-- ==== Sys2Proof/Word.lean ====
section
/-! DEFINITION. The machine's unit of data: a byte (spec/00_scope.md R7), and the two magic bytes and length bounds the
spec fixes (R5). -/

namespace Sys2Proof

/-- A byte: an unsigned integer in `[0, 255]` (R7); sums of bytes wrap modulo 256 (R91). -/
abbrev Byte := BitVec 8

/-- First header byte, `'Y'` (R5). -/
def MAGIC1 : Byte := 0x59

/-- Second header byte, `'S'` (R5). -/
def MAGIC2 : Byte := 0x53

/-- Least accepted message length (R5). -/
def LEN_MIN : Nat := 4

/-- Exclusive upper bound of the message length (R5). -/
def LEN_LIM : Nat := 200

/-- Header bytes before the message: two magic bytes, two id bytes, one length byte (R5). -/
def HDR_BYTES : Nat := 5

/-- Capacity of the present list (R5, R28). -/
def PCAP : Nat := 99

/-- Least capacity of the frame buffer, `2 + 2 + 1 + 199 + 2` (R6). -/
def CAP_MIN : Nat := 206

end Sys2Proof
end

