-- ==== Sys2Proof/Config.lean ====
section
/-! DEFINITION. The implementation parameters of spec/00_scope.md R5, which `RESET` latches (R23, R200), the identifier
table's rows (spec/30_encoding.md R70 to R73), and the free value of buffer bytes that nothing has written. -/

namespace Sys2Proof

/-- The sub-record types: one row of `IDTAB` each (R72, R73). -/
inductive Kind where
  | temp | acc | gyro | facc | dvel | vel | magn | magr | eul | quat | dquat | loc | loch | tss | tsd
  | temp2 | acc2 | gyro2
deriving DecidableEq, Repr

/-- Every row, in the order of R72 and R73. -/
def Kind.all : List Kind :=
  [.temp, .acc, .gyro, .facc, .dvel, .vel, .magn, .magr, .eul, .quat, .dquat, .loc, .loch, .tss, .tsd,
   .temp2, .acc2, .gyro2]

/-- `HP_ALT_BYTES`: the altitude of the high-precision location has 4 or 8 bytes (R5, R66). -/
inductive HpAlt where
  | four | eight
deriving DecidableEq, Repr

/-- The number `HP_ALT_BYTES` stands for. -/
def HpAlt.bytes : HpAlt → Nat
  | .four => 4
  | .eight => 8

/-- `OVERRUN`: a sub-record that does not fit in the message is noise (R5, R134). The spec names no other value. -/
inductive Overrun where
  | noise
deriving DecidableEq, Repr

/-- `SCAN_TAIL`: a magic pair too near the end of the buffer is no candidate (R5, R183). The spec names no other value. -/
inductive ScanTail where
  | reject
deriving DecidableEq, Repr

/-- The id column of `IDTAB` for the rows whose id is a parameter; `ACC` is fixed (R71) and has no field here. The
defaults are those of R72, from general knowledge (PRESUMED by the spec, log 12). -/
structure IdTab where
  temp  : Byte := 0x01
  gyro  : Byte := 0x20
  facc  : Byte := 0x11
  dvel  : Byte := 0x12
  vel   : Byte := 0x70
  magn  : Byte := 0x30
  magr  : Byte := 0x31
  eul   : Byte := 0x40
  quat  : Byte := 0x41
  dquat : Byte := 0x42
  loc   : Byte := 0x60
  loch  : Byte := 0x68
  tss   : Byte := 0x51
  tsd   : Byte := 0x52
deriving DecidableEq, Repr

/-- The configuration (R5). An OPEN id is an `Option`: given to `RESET`, or not given (R73, log 14). -/
structure Cfg where
  cap      : Nat := 264
  dual     : Bool := false
  ids      : IdTab := {}
  idTemp2  : Option Byte := none
  idAcc2   : Option Byte := none
  idGyro2  : Option Byte := none
  hpAlt    : HpAlt := .eight
  cntw     : Nat := 32
  overrun  : Overrun := .noise
  scanTail : ScanTail := .reject
deriving DecidableEq, Repr

/-- The default configuration (R5). -/
def Cfg.default : Cfg := {}

/-- The id byte of a row, if the row is active: the second-sensor rows are active only when `DUAL = true` (R47, R73). -/
def Cfg.idOf (c : Cfg) : Kind → Option Byte
  | .temp  => some c.ids.temp
  | .acc   => some 0x10
  | .gyro  => some c.ids.gyro
  | .facc  => some c.ids.facc
  | .dvel  => some c.ids.dvel
  | .vel   => some c.ids.vel
  | .magn  => some c.ids.magn
  | .magr  => some c.ids.magr
  | .eul   => some c.ids.eul
  | .quat  => some c.ids.quat
  | .dquat => some c.ids.dquat
  | .loc   => some c.ids.loc
  | .loch  => some c.ids.loch
  | .tss   => some c.ids.tss
  | .tsd   => some c.ids.tsd
  | .temp2 => if c.dual then c.idTemp2 else none
  | .acc2  => if c.dual then c.idAcc2 else none
  | .gyro2 => if c.dual then c.idGyro2 else none

/-- The ids of the active rows, in table order. -/
def Cfg.activeIds (c : Cfg) : List Byte := Kind.all.filterMap c.idOf

/-- FREE VALUE (log 5): what `BUF` holds at an offset nothing has written since the last reset (R17, R44: "unspecified
(any value)"). The arguments are the number of resets so far and the offset. No body: nothing can be proved of it. -/
opaque Config.unwrittenByte (epoch offset : Nat) : Byte

end Sys2Proof
end

