-- ==== Sys2Proof/Syntax.lean ====
section
/-! DEFINITION. The operations of the block: one constructor of `Instr` for each row of spec/opcode_table.json
(spec/30_encoding.md R83), and what the host may put on the input port (spec/45_host_operations.md). -/

namespace Sys2Proof

/-- Three signed 32-bit raw values, numbered in wire order (R66 `S32x3`, R153). -/
structure Lanes3 where
  l0 : BitVec 32
  l1 : BitVec 32
  l2 : BitVec 32
deriving DecidableEq, Repr

/-- Four signed 32-bit raw values, numbered in wire order (R66 `S32x4`, R153). -/
structure Lanes4 where
  l0 : BitVec 32
  l1 : BitVec 32
  l2 : BitVec 32
  l3 : BitVec 32
deriving DecidableEq, Repr

/-- The altitude of a high-precision location, of `8 * HP_ALT_BYTES` bits (R66 `LOC64`). -/
inductive Altitude where
  | w4 (v : BitVec 32)
  | w8 (v : BitVec 64)
deriving DecidableEq, Repr

/-- The host operations (R200 to R204) and, as one item, the bytes of a whole frame fed in order (log 3): what can stand
on the block's input port. The host has no way to ask for an internal operation (R83). -/
inductive HostOp where
  | reset (c : Cfg)
  | feed (b : Byte)
  | scan (src : List Byte)
  | rdtrace
  | rdrec
  | frame (tid : BitVec 16) (len : Byte) (body : List Byte)
deriving DecidableEq, Repr

/-- The internal operations, which have no bit encoding (R83). -/
inductive IntOp where
  | dispatch
  | upd (b : Byte)
  | clr
deriving DecidableEq, Repr

/-- One constructor per row of the opcode table.
* The byte operations of the framer carry the input byte `b` (R101 to R109); `badst` also keeps the low three bits of the
  invalid state code that selected it (R80).
* `frame` carries the transaction id, the length byte, and the bytes after it: message and checksum (R60).
* A sub-record carries the raw integers of its data bytes (R66); `noise` carries the byte it stands on (R75).
* The host operations carry their operands (R200 to R204). -/
inductive Instr where
  | h1 (b : Byte)
  | h2 (b : Byte)
  | tidl (b : Byte)
  | tidh (b : Byte)
  | len (b : Byte)
  | msg (b : Byte)
  | crc1 (b : Byte)
  | crc2 (b : Byte)
  | badst (low : BitVec 3) (b : Byte)
  | frame (tid : BitVec 16) (len : Byte) (body : List Byte)
  | temp (v : BitVec 16)
  | acc (v : Lanes3)
  | gyro (v : Lanes3)
  | facc (v : Lanes3)
  | dvel (v : Lanes3)
  | vel (v : Lanes3)
  | magn (v : Lanes3)
  | magr (v : Lanes3)
  | eul (v : Lanes3)
  | quat (v : Lanes4)
  | dquat (v : Lanes4)
  | loc (lat lon alt : BitVec 32)
  | loch (lat lon : BitVec 64) (alt : Altitude)
  | tss (v : BitVec 32)
  | tsd (v : BitVec 32)
  | temp2 (v : BitVec 16)
  | acc2 (v : Lanes3)
  | gyro2 (v : Lanes3)
  | noise (b : Byte)
  | reset (c : Cfg)
  | feed (b : Byte)
  | scan (src : List Byte)
  | rdtrace
  | rdrec
  | dispatch
  | upd (b : Byte)
  | clr
deriving DecidableEq, Repr

end Sys2Proof
end

