-- ==== Sys2Proof/WellFormed.lean ====
section
/-! DEFINITION. Which configurations and which instructions are well-formed (spec/00_scope.md R6, spec/20_memory.md R47,
spec/45_host_operations.md R200; spec/30_encoding.md R61, R66, R73). -/

namespace Sys2Proof

/-- The length test, `4 <= b < 200`, unsigned (R61, R105, R154(d)). -/
def legalLength (b : Byte) : Bool := decide (LEN_MIN ≤ b.toNat) && decide (b.toNat < LEN_LIM)

/-- A configuration `RESET` accepts: `CAP >= 206`, active ids pairwise distinct, and the three OPEN ids given when
`DUAL = true` (R200). -/
def Cfg.wf (c : Cfg) : Bool :=
  decide (CAP_MIN ≤ c.cap) && decide c.activeIds.Nodup &&
    (!c.dual || (c.idTemp2.isSome && c.idAcc2.isSome && c.idGyro2.isSome))

/-- How many bytes follow the length byte of a frame: message and checksum after a legal length (R60), none after an
illegal one, which ends the frame (R74). -/
def frameBodyLength (len : Byte) : Nat := if legalLength len then len.toNat + 2 else 0

/-- The altitude has the width the configuration asks for (R66). -/
def Altitude.fits (c : Cfg) : Altitude → Bool
  | .w4 _ => c.hpAlt == .four
  | .w8 _ => c.hpAlt == .eight

/-- A well-formed instruction under a configuration. -/
def Instr.wf (c : Cfg) : Instr → Bool
  | .h1 _ => true
  | .h2 _ => true
  | .tidl _ => true
  | .tidh _ => true
  | .len _ => true
  | .msg _ => true
  | .crc1 _ => true
  | .crc2 _ => true
  | .badst _ _ => true
  | .frame _ l body => body.length == frameBodyLength l
  | .temp _ => true
  | .acc _ => true
  | .gyro _ => true
  | .facc _ => true
  | .dvel _ => true
  | .vel _ => true
  | .magn _ => true
  | .magr _ => true
  | .eul _ => true
  | .quat _ => true
  | .dquat _ => true
  | .loc _ _ _ => true
  | .loch _ _ alt => alt.fits c
  | .tss _ => true
  | .tsd _ => true
  | .temp2 _ => (c.idOf .temp2).isSome
  | .acc2 _ => (c.idOf .acc2).isSome
  | .gyro2 _ => (c.idOf .gyro2).isSome
  | .noise _ => true
  | .reset c' => c'.wf
  | .feed _ => true
  | .scan _ => true
  | .rdtrace => true
  | .rdrec => true
  | .dispatch => true
  | .upd _ => true
  | .clr => true

end Sys2Proof
end

