-- ==== Sys2Proof/Decode.lean ====
section
/-! DEFINITION. Byte order (spec/42_dispatcher.md R136, spec/20_memory.md R48), the identifier table's formats
(spec/30_encoding.md R66, R72, R73), the three decoders of the block (byte operation by state code, frame from wire bytes,
sub-record from message bytes), and the encoder written from the same tables. -/

namespace Sys2Proof

/-! ## Little-endian integers -/

/-- `LEu_n`: the unsigned integer of a list of bytes, least significant byte first (R136, R67). -/
def leu : List Byte → Nat
  | [] => 0
  | b :: bs => b.toNat + 256 * leu bs

/-- `LEs_n`: the same bytes read as a two's complement integer of `8n` bits (R136). -/
def les (bs : List Byte) : Int :=
  if 2 * leu bs < 256 ^ bs.length then (leu bs : Int) else (leu bs : Int) - (256 : Int) ^ bs.length

/-- The `n` bytes of a natural number, least significant first (R48). -/
def leBytes : Nat → Nat → List Byte
  | 0, _ => []
  | n + 1, x => BitVec.ofNat 8 x :: leBytes n (x / 256)

/-- The `w`-bit word at byte offset `o` of a list of data bytes (R66, R67). -/
def leWord (w o : Nat) (d : List Byte) : BitVec w := BitVec.ofNat w (leu ((d.drop o).take (w / 8)))

/-! ## The identifier table -/

/-- The data formats (R66). -/
inductive Format where
  | s16x1 | s32x3 | s32x4 | u32x1 | loc32 | loc64
deriving DecidableEq, Repr

/-- Data length of a format in bytes (R66); `LOC64` depends on `HP_ALT_BYTES`. -/
def Format.dataLength (c : Cfg) : Format → Nat
  | .s16x1 => 2
  | .s32x3 => 12
  | .s32x4 => 16
  | .u32x1 => 4
  | .loc32 => 12
  | .loc64 => 16 + c.hpAlt.bytes

/-- The format column of the table (R72, R73). -/
def Kind.format : Kind → Format
  | .temp | .temp2 => .s16x1
  | .acc | .gyro | .facc | .dvel | .vel | .magn | .magr | .eul | .acc2 | .gyro2 => .s32x3
  | .quat | .dquat => .s32x4
  | .loc => .loc32
  | .loch => .loc64
  | .tss | .tsd => .u32x1

/-- The expected data length of a row (R65, R72, R73). -/
def Kind.expLen (c : Cfg) (k : Kind) : Nat := k.format.dataLength c

/-- The active row of an id, if there is one (R47). -/
def Cfg.lookup (c : Cfg) (id : Byte) : Option Kind := Kind.all.find? fun k => c.idOf k == some id

/-- The `OVERRUN` policy: whether data of `need` bytes counts as fitting in `have` bytes (R134). -/
def Overrun.fits : Overrun → Nat → Nat → Bool
  | .noise, need, avail => decide (need ≤ avail)

/-- Recognition at the first byte of the rest `m` of the message (R135): a length byte exists, the id has an active row,
the length byte is the row's, and the data fits. -/
def recognise (c : Cfg) : List Byte → Option Kind
  | id :: sl :: data =>
    match c.lookup id with
    | some k => if sl.toNat = k.expLen c ∧ c.overrun.fits (k.expLen c) data.length = true then some k else none
    | none => none
  | _ => none

/-- Three lanes of four bytes each (R66). -/
def lanes3 (d : List Byte) : Lanes3 := ⟨leWord 32 0 d, leWord 32 4 d, leWord 32 8 d⟩

/-- Four lanes of four bytes each (R66). -/
def lanes4 (d : List Byte) : Lanes4 := ⟨leWord 32 0 d, leWord 32 4 d, leWord 32 8 d, leWord 32 12 d⟩

/-- The altitude of a high-precision location (R66, R167). -/
def altitudeOf (c : Cfg) (d : List Byte) : Altitude :=
  match c.hpAlt with
  | .four => .w4 (leWord 32 16 d)
  | .eight => .w8 (leWord 64 16 d)

/-- The sub-record operation of a row with its data bytes `d` (R66, R155 to R172). -/
def Kind.build (c : Cfg) (k : Kind) (d : List Byte) : Instr :=
  match k with
  | .temp => .temp (leWord 16 0 d)
  | .acc => .acc (lanes3 d)
  | .gyro => .gyro (lanes3 d)
  | .facc => .facc (lanes3 d)
  | .dvel => .dvel (lanes3 d)
  | .vel => .vel (lanes3 d)
  | .magn => .magn (lanes3 d)
  | .magr => .magr (lanes3 d)
  | .eul => .eul (lanes3 d)
  | .quat => .quat (lanes4 d)
  | .dquat => .dquat (lanes4 d)
  | .loc => .loc (leWord 32 0 d) (leWord 32 4 d) (leWord 32 8 d)
  | .loch => .loch (leWord 64 0 d) (leWord 64 8 d) (altitudeOf c d)
  | .tss => .tss (leWord 32 0 d)
  | .tsd => .tsd (leWord 32 0 d)
  | .temp2 => .temp2 (leWord 16 0 d)
  | .acc2 => .acc2 (lanes3 d)
  | .gyro2 => .gyro2 (lanes3 d)

/-! ## The decoders -/

/-- Why bytes do not decode. -/
inductive DecodeError where
  /-- The message has ended: there is no byte at the cursor. -/
  | endOfMessage
  /-- The first two bytes are not the magic pair. -/
  | notAFrame
  /-- The bytes end before the frame does. -/
  | truncatedFrame
  /-- Bytes are left after the instruction. -/
  | trailingBytes
deriving DecidableEq, Repr

/-- The byte operation a state code selects (R80, R100). -/
def decodeFsm (code : BitVec 4) (b : Byte) : Instr :=
  match code.toNat with
  | 0 => .h1 b
  | 1 => .h2 b
  | 2 => .tidl b
  | 3 => .tidh b
  | 4 => .len b
  | 5 => .msg b
  | 6 => .crc1 b
  | 7 => .crc2 b
  | _ => .badst (code.setWidth 3) b

/-- A frame from wire bytes, with the bytes after it (R60, R61, R74). -/
def decodeFrame : List Byte → Except DecodeError (Instr × List Byte)
  | m1 :: m2 :: tl :: th :: l :: rest =>
    if m1 = MAGIC1 ∧ m2 = MAGIC2 then
      if frameBodyLength l ≤ rest.length then
        .ok (.frame (th ++ tl) l (rest.take (frameBodyLength l)), rest.drop (frameBodyLength l))
      else .error .truncatedFrame
    else .error .notAFrame
  | _ => .error .truncatedFrame

/-- What the dispatcher finds at the head of the rest `m` of the message, with the bytes after it: a recognised
sub-record (R135) or a noise byte (R75, R133). -/
def decodeSub (c : Cfg) (m : List Byte) : Except DecodeError (Instr × List Byte) :=
  match m with
  | [] => .error .endOfMessage
  | b :: rest =>
    match recognise c m with
    | some k => .ok (k.build c ((m.drop 2).take (k.expLen c)), m.drop (2 + k.expLen c))
    | none => .ok (.noise b, rest)

/-- What the host puts on the port, as an instruction. -/
def HostOp.instr : HostOp → Instr
  | .reset c => .reset c
  | .feed b => .feed b
  | .scan src => .scan src
  | .rdtrace => .rdtrace
  | .rdrec => .rdrec
  | .frame tid len body => .frame tid len body

/-- An internal operation, as an instruction. -/
def IntOp.instr : IntOp → Instr
  | .dispatch => .dispatch
  | .upd b => .upd b
  | .clr => .clr

/-- The encoded form of an instruction, one constructor per row format of R83. -/
inductive Code where
  /-- Format `FSM`: the state code and the input byte. -/
  | fsm (code : BitVec 4) (b : Byte)
  /-- Format `FRAME`: wire bytes. -/
  | wire (bs : List Byte)
  /-- Format `SR`: message bytes. -/
  | message (bs : List Byte)
  /-- Format `HOST`: no bit encoding. -/
  | host (op : HostOp)
  /-- Format `INT`: no bit encoding. -/
  | internal (op : IntOp)
deriving DecidableEq, Repr

/-- An instruction that uses up all its bytes. -/
def wholeOf : Except DecodeError (Instr × List Byte) → Except DecodeError Instr
  | .ok (i, []) => .ok i
  | .ok (_, _ :: _) => .error .trailingBytes
  | .error e => .error e

/-- The decoder, total on every code. -/
def decode (c : Cfg) : Code → Except DecodeError Instr
  | .fsm code b => .ok (decodeFsm code b)
  | .wire bs => wholeOf (decodeFrame bs)
  | .message bs => wholeOf (decodeSub c bs)
  | .host op => .ok op.instr
  | .internal op => .ok op.instr

/-! ## The encoder -/

/-- The four bytes of a 32-bit word (R66). -/
def bytes32 (v : BitVec 32) : List Byte := leBytes 4 v.toNat

/-- The eight bytes of a 64-bit word (R66). -/
def bytes64 (v : BitVec 64) : List Byte := leBytes 8 v.toNat

/-- The twelve data bytes of three lanes (R66). -/
def bytesLanes3 (v : Lanes3) : List Byte := bytes32 v.l0 ++ (bytes32 v.l1 ++ bytes32 v.l2)

/-- The sixteen data bytes of four lanes (R66). -/
def bytesLanes4 (v : Lanes4) : List Byte := bytes32 v.l0 ++ (bytes32 v.l1 ++ (bytes32 v.l2 ++ bytes32 v.l3))

/-- The bytes of an altitude (R66). -/
def bytesAltitude : Altitude → List Byte
  | .w4 v => bytes32 v
  | .w8 v => bytes64 v

/-- A sub-record: id byte, length byte, data (R64). -/
def encodeSub (c : Cfg) (k : Kind) (data : List Byte) : List Byte :=
  (c.idOf k).getD 0 :: BitVec.ofNat 8 (k.expLen c) :: data

/-- The wire bytes of a frame (R60). -/
def frameBytes (tid : BitVec 16) (len : Byte) (body : List Byte) : List Byte :=
  MAGIC1 :: MAGIC2 :: tid.extractLsb' 0 8 :: tid.extractLsb' 8 8 :: len :: body

/-- The encoder (R60, R64, R80, R83). -/
def encode (c : Cfg) : Instr → Code
  | .h1 b => .fsm 0 b
  | .h2 b => .fsm 1 b
  | .tidl b => .fsm 2 b
  | .tidh b => .fsm 3 b
  | .len b => .fsm 4 b
  | .msg b => .fsm 5 b
  | .crc1 b => .fsm 6 b
  | .crc2 b => .fsm 7 b
  | .badst low b => .fsm (8 + low.setWidth 4) b
  | .frame tid len body => .wire (frameBytes tid len body)
  | .temp v => .message (encodeSub c .temp (leBytes 2 v.toNat))
  | .acc v => .message (encodeSub c .acc (bytesLanes3 v))
  | .gyro v => .message (encodeSub c .gyro (bytesLanes3 v))
  | .facc v => .message (encodeSub c .facc (bytesLanes3 v))
  | .dvel v => .message (encodeSub c .dvel (bytesLanes3 v))
  | .vel v => .message (encodeSub c .vel (bytesLanes3 v))
  | .magn v => .message (encodeSub c .magn (bytesLanes3 v))
  | .magr v => .message (encodeSub c .magr (bytesLanes3 v))
  | .eul v => .message (encodeSub c .eul (bytesLanes3 v))
  | .quat v => .message (encodeSub c .quat (bytesLanes4 v))
  | .dquat v => .message (encodeSub c .dquat (bytesLanes4 v))
  | .loc lat lon alt => .message (encodeSub c .loc (bytes32 lat ++ (bytes32 lon ++ bytes32 alt)))
  | .loch lat lon alt => .message (encodeSub c .loch (bytes64 lat ++ (bytes64 lon ++ bytesAltitude alt)))
  | .tss v => .message (encodeSub c .tss (bytes32 v))
  | .tsd v => .message (encodeSub c .tsd (bytes32 v))
  | .temp2 v => .message (encodeSub c .temp2 (leBytes 2 v.toNat))
  | .acc2 v => .message (encodeSub c .acc2 (bytesLanes3 v))
  | .gyro2 v => .message (encodeSub c .gyro2 (bytesLanes3 v))
  | .noise b => .message [b]
  | .reset c' => .host (.reset c')
  | .feed b => .host (.feed b)
  | .scan src => .host (.scan src)
  | .rdtrace => .host .rdtrace
  | .rdrec => .host .rdrec
  | .dispatch => .internal .dispatch
  | .upd b => .internal (.upd b)
  | .clr => .internal .clr

/-! ## Words of the opcode table -/

/-- The longest sub-record, `LOCH` with an eight-byte altitude, has 26 bytes (R174). -/
def SUB_MAX : Nat := 26

/-- How many bytes the frame that starts with word `w` has: header, and what its length byte, bits 39 to 32, asks for
(R60, R62). -/
def frameTotal (w : Nat) : Nat := HDR_BYTES + frameBodyLength (BitVec.ofNat 8 (w / 2 ^ 32))

/-- The bytes of a table word, the first at the lowest offset, with zeros up to `total` bytes (R83). -/
def tableBytes (nbits w total : Nat) : List Byte :=
  leBytes ((nbits + 7) / 8) w ++ List.replicate (total - (nbits + 7) / 8) 0

/-- Whether a table word is the magic pair, the selector of the row `FRAME` (R83). -/
def isFrameWord (w : Nat) : Bool := BitVec.ofNat 16 w == MAGIC2 ++ MAGIC1

/-- The instruction the decoders read from a word of spec/opcode_table.json (R83, log 18). A word of at most one byte is a
state code: bits 3 to 0 select the byte operation, whose input byte is 0. A longer word is the first bytes of a frame or
of a sub-record, decoded under the default configuration. -/
def decodeTableWord (nbits w : Nat) : Option Instr :=
  if nbits ≤ 8 then some (decodeFsm (BitVec.ofNat 4 w) 0)
  else if isFrameWord w then (decodeFrame (tableBytes nbits w (frameTotal w))).toOption.map (·.1)
  else (decodeSub Cfg.default (tableBytes nbits w SUB_MAX)).toOption.map (·.1)

end Sys2Proof
end

