-- ==== Sys2Proof/Machine/State.lean ====
section
/-! DEFINITION. The decoder's state (spec/10_state.md), its faults and refusals, and the state after reset (R35). -/

namespace Sys2Proof.Machine

/-- The framer's state: the eight states in frame order, and the eight invalid codes, 8 + `low` (R11, R80). -/
inductive FState where
  | header1 | header2 | tidLow | tidHigh | length | message | crc1 | crc2
  | invalid (low : BitVec 3)
deriving DecidableEq, Repr

/-- The per-byte status (R22, R81). -/
inductive Status where
  | running | done | checksumError | lengthError | internalError
deriving DecidableEq, Repr

/-- `loc_prec`: which location sub-record wrote `lat`, `lon`, `alt` last in this frame (R25, R26). -/
inductive LocPrec where
  | none | standard | high
deriving DecidableEq, Repr

/-- The sensor record `REC` (R25): the raw integers, each a word of its stated width; signed fields are read with
`BitVec.toInt`, the timestamps with `BitVec.toNat`. Every field is zero unless written (R131). -/
structure SensorRecord where
  temp     : BitVec 16 := 0
  acc      : Lanes3 := ⟨0, 0, 0⟩
  gyro     : Lanes3 := ⟨0, 0, 0⟩
  facc     : Lanes3 := ⟨0, 0, 0⟩
  dvel     : Lanes3 := ⟨0, 0, 0⟩
  vel      : Lanes3 := ⟨0, 0, 0⟩
  magn     : Lanes3 := ⟨0, 0, 0⟩
  magr     : Lanes3 := ⟨0, 0, 0⟩
  euler    : Lanes3 := ⟨0, 0, 0⟩
  quat     : Lanes4 := ⟨0, 0, 0, 0⟩
  dquat    : Lanes4 := ⟨0, 0, 0, 0⟩
  locPrec  : LocPrec := .none
  lat      : BitVec 64 := 0
  lon      : BitVec 64 := 0
  alt      : BitVec 64 := 0
  tsSample : BitVec 32 := 0
  tsReady  : BitVec 32 := 0
  temp2    : BitVec 16 := 0
  acc2     : Lanes3 := ⟨0, 0, 0⟩
  gyro2    : Lanes3 := ⟨0, 0, 0⟩
deriving DecidableEq, Repr

/-- The record with every field zero and `loc_prec = 0` (R35, R131). -/
def SensorRecord.zero : SensorRecord := {}

/-- What the block presents at its outputs: a per-byte status (R201), a completion event (R31), the trace registers
(R203), the record registers (R204). -/
inductive Output where
  | status (s : Status)
  | complete (tid : BitVec 16) (record : SensorRecord) (present : List Byte)
  | trace (cntDone cntFail : Nat) (last : Status)
  | record (record : SensorRecord) (present : List Byte) (pcount : BitVec 7) (tid : BitVec 16)
deriving DecidableEq, Repr

/-- What the block is doing (log 4, log 11): waiting for its first reset (R252), between operations, or inside a
dispatch, where `CUR` is alive (R29). -/
inductive Activity where
  | preReset | idle | walking
deriving DecidableEq, Repr

/-- The frame buffer's contents: the bytes written since the last reset, as (offset, byte) pairs. An unlisted offset holds
no known value (R17, log 5). -/
abbrev Memory := List Host.Cell

/-- The state of the decoder. `act`, `epoch`, `port` and `out` are the model's own (log 1, 2, 4, 5); everything else is the
spec's (R10). -/
structure State where
  /-- The configuration `RESET` latched (R23, R200). -/
  cfg     : Cfg
  /-- The model's own: what the block is doing. -/
  act     : Activity
  /-- `ST` (R11). -/
  st      : FState
  /-- `TID` (R12). -/
  tid     : BitVec 16
  /-- `LEN` (R13). -/
  len     : Byte
  /-- `REM` (R14). -/
  rem     : Byte
  /-- `C0` (R15). -/
  c0      : Byte
  /-- `C1` (R15). -/
  c1      : Byte
  /-- `WP` (R16, log 8). -/
  wp      : Nat
  /-- `BUF` (R17). -/
  buf     : Memory
  /-- `CNT_DONE` (R19, R20, log 7). -/
  cntDone : Nat
  /-- `CNT_FAIL` (R19, R20, log 7). -/
  cntFail : Nat
  /-- `LAST` (R21). -/
  last    : Status
  /-- `REC` (R24, R25). -/
  record  : SensorRecord
  /-- `PRESENT` (R28). -/
  present : List Byte
  /-- `PCOUNT` (R28, R10). -/
  pcount  : BitVec 7
  /-- `CUR` (R29); dead outside a dispatch, where the model keeps it 0 (log 4). -/
  cur     : BitVec 8
  /-- The model's own: how many resets there have been since the run began (log 5). -/
  epoch   : Nat
  /-- The model's own: the host operations not yet taken from the input port, the next one first (log 1). -/
  port    : List HostOp
  /-- The model's own: what this step presents at the outputs, in order (log 2). -/
  out     : List Output
deriving DecidableEq, Repr

/-- The faults. -/
inductive Fault where
  /-- An access of `BUF` at an offset that does not exist (R40: offsets `0 .. CAP-1`). Raised by an accepting byte
  operation when `WP >= CAP`, and by a dispatch whose message view leaves the buffer. No reachable state raises it (R34).
  Safe: the spec gives such an access no effect (log 9). -/
  | bufferAddress (offset : Nat)
deriving DecidableEq, Repr

/-- The refusals. -/
inductive Refusal where
  /-- Raised by `exec` for an instruction that has no meaning in the model yet. Safe. -/
  | notModelled (mnemonic : String)
  /-- Raised by an operation before the first `RESET` (R252: "A model gives a run that does not begin with `RESET` no
  meaning (refused)"). Safe. -/
  | beforeReset
  /-- Raised by an operation that overlaps a dispatch (R54, R255: refused). Safe. -/
  | overlap
  /-- Raised by `RESET` with an ill-formed configuration (R200: refused). Safe. -/
  | badConfig
  /-- Raised by a sub-record operation of a row that the configuration does not have (R73: "these rows do not exist").
  No decoded instruction raises it. Safe. -/
  | inactiveRow (k : Kind)
  /-- Raised by the walk where the message holds nothing to run. No dispatch raises it. Safe. -/
  | notSubRecord
deriving DecidableEq, Repr

/-- The machine right after reset with the default configuration (R35, R200, log 6). -/
def State.reset : State where
  cfg := Cfg.default
  act := .idle
  st := .header1
  tid := 0
  len := 0
  rem := 0
  c0 := 0
  c1 := 0
  wp := 0
  buf := []
  cntDone := 0
  cntFail := 0
  last := .running
  record := SensorRecord.zero
  present := []
  pcount := 0
  cur := 0
  epoch := 0
  port := []
  out := []

end Sys2Proof.Machine
end

