-- ==== Sys2Proof/Machine/Flags.lean ====
section
/-! DEFINITION. Codes and conditions: the state and status codes (spec/30_encoding.md R80, R81), which statuses are errors
(spec/60_exceptions.md R220), and the saturating increment of the trace counters (spec/10_state.md R20). -/

namespace Sys2Proof.Machine

/-- The 4-bit code of a framer state (R80). -/
def FState.code : FState → BitVec 4
  | .header1 => 0
  | .header2 => 1
  | .tidLow => 2
  | .tidHigh => 3
  | .length => 4
  | .message => 5
  | .crc1 => 6
  | .crc2 => 7
  | .invalid low => 8 + low.setWidth 4

/-- The framer state of a 4-bit code (R80). -/
def FState.ofCode (code : BitVec 4) : FState :=
  match code.toNat with
  | 0 => .header1
  | 1 => .header2
  | 2 => .tidLow
  | 3 => .tidHigh
  | 4 => .length
  | 5 => .message
  | 6 => .crc1
  | 7 => .crc2
  | _ => .invalid (code.setWidth 3)

/-- The 3-bit code of a status, in `LAST` and at the status output (R81). -/
def Status.code : Status → BitVec 3
  | .running => 0
  | .done => 1
  | .checksumError => 2
  | .lengthError => 3
  | .internalError => 4

/-- The three error statuses (R220). -/
def Status.isError : Status → Bool
  | .running => false
  | .done => false
  | .checksumError => true
  | .lengthError => true
  | .internalError => true

/-- The 2-bit tag `loc_prec` (R25). -/
def LocPrec.code : LocPrec → BitVec 2
  | .none => 0
  | .standard => 1
  | .high => 2

/-- The greatest value of a trace counter, `2^CNTW - 1` (R20). -/
def maxCount (c : Cfg) : Nat := 2 ^ c.cntw - 1

/-- `sat_inc(x) = min(x + 1, 2^CNTW - 1)` (R20, R107). -/
def satInc (c : Cfg) (x : Nat) : Nat := min (x + 1) (maxCount c)

end Sys2Proof.Machine
end

