-- ==== Sys2Proof/Machine/Ops.lean ====
section
/-! DEFINITION. The shared operations: sequencing, the frame buffer (spec/20_memory.md R42), the end of a byte-feed step
(spec/41_framer.md R100), raising an error status (spec/60_exceptions.md R225), and who may run when (R54, R252). -/

namespace Sys2Proof.Machine

/-! ## Sequencing -/

/-- The result of an operation that hands on a value. -/
abbrev Res (α : Type) := Host.Outcome α Fault Refusal

/-- Do one operation and then another with what it answers; a fault or a refusal ends both. -/
def andThen {α β : Type} (r : Res α) (f : α → Res β) : Res β :=
  match r with
  | .next a => f a
  | .fault x => .fault x
  | .refused x => .refused x

/-! ## The frame buffer -/

/-- What an offset holds, if something was written there since the last reset. -/
def Memory.read : Memory → Nat → Option Byte
  | [], _ => none
  | (k, v) :: m, a => if k = a then some v else Memory.read m a

/-- Write one byte. The list stays sorted by offset with no repeats. -/
def Memory.write : Memory → Nat → Byte → Memory
  | [], a, v => [(a, v)]
  | (k, w) :: m, a, v =>
    if a < k then (a, v) :: (k, w) :: m
    else if a = k then (a, v) :: m
    else (k, w) :: Memory.write m a v

/-- Write a list of bytes at successive offsets. -/
def Memory.writeAll : Memory → Nat → List Byte → Memory
  | m, _, [] => m
  | m, a, b :: bs => Memory.writeAll (Memory.write m a b) (a + 1) bs

/-- The canonical form: offsets strictly rising. An unlisted offset reads as no value, so no entry can equal it. -/
def Memory.wf (m : Memory) : Bool := decide (m.Pairwise fun x y => x.1 < y.1)

/-- `BUF[WP] <- b; WP <- WP + 1` (R42), where the offset exists. -/
def stored (b : Byte) (s : State) : State := { s with buf := Memory.write s.buf s.wp b, wp := s.wp + 1 }

/-- `store(b)` (R42): the write and the advance, if offset `WP` exists (R40, log 9). -/
def store (b : Byte) (s : State) : Res State :=
  if s.wp < s.cfg.cap then .next (stored b s) else .fault (.bufferAddress s.wp)

/-! ## The registers of a frame -/

/-- The frame "reset to empty" at a header match (R101, R30). -/
def clearFrame (s : State) : State :=
  { s with wp := 0, tid := 0, len := 0, rem := 0, c0 := 0, c1 := 0 }

/-- `ST <- f`. -/
def goto (f : FState) (s : State) : State := { s with st := f }

/-! ## The end of a step -/

/-- `LAST <- status` (R100, R111). -/
def retire (status : Status) (s : State) : State := { s with last := status }

/-- TAKING AN EXCEPTION: `raise status` (R225, R220). `ST <- Header1`, `LAST <- status`, and `CNT_FAIL` is incremented if
and only if the status is `ChecksumError`. Nothing is saved; there is no handler and no return (R226). -/
def raise (status : Status) (s : State) : State :=
  { s with
    st := .header1
    last := status
    cntFail := if status = .checksumError then satInc s.cfg s.cntFail else s.cntFail }

/-- A completed frame: `CNT_DONE` incremented, `ST <- Header1`, status `Done`, in this order after the dispatch (R108,
R115). -/
def completeFrame (s : State) : State :=
  retire .done { s with cntDone := satInc s.cfg s.cntDone, st := .header1 }

/-- Put something on the outputs of this step. -/
def emit (o : Output) (s : State) : State := { s with out := s.out ++ [o] }

/-- Return the per-byte status of the step to the host (R100, R201). -/
def reportStatus (s : State) : State := emit (.status s.last) s

/-- A byte-feed step that the host asked for also returns its status (R201). -/
def answer (r : Res State) : Res State := andThen r fun t => .next (reportStatus t)

/-! ## Who may run -/

/-- An operation that needs the block between operations: it is refused before the first reset (R252) and inside a
dispatch (R54). -/
def whenIdle (s : State) (r : Res State) : Res State :=
  match s.act with
  | .idle => r
  | .preReset => .refused .beforeReset
  | .walking => .refused .overlap

end Sys2Proof.Machine
end

