-- ==== Sys2Proof/Machine/Operands.lean ====
section
/-! DEFINITION. Operand forms: bytes of the message view (spec/20_memory.md R45), raw integers widened to 64 bits
(spec/10_state.md R26), and the state change every recognised sub-record makes (spec/42_dispatcher.md R133, R137). -/

namespace Sys2Proof.Machine

/-- `BUF[a]`: the byte written there, or, where nothing was written since the last reset, a free value (R17, R44, log 5). -/
def State.byteAt (s : State) (a : Nat) : Byte :=
  (Memory.read s.buf a).getD (Config.unwrittenByte s.epoch a)

/-- `n` bytes of `BUF` from offset `a`. -/
def State.bytesAt (s : State) (a n : Nat) : List Byte := (List.range' a n).map s.byteAt

/-- The message view `M[0 .. LEN)`, `M[i] = BUF[5 + i]` (R45). -/
def State.message (s : State) : List Byte := s.bytesAt HDR_BYTES s.len.toNat

/-- The rest of the message from the cursor, `M[CUR .. LEN)`: what the dispatcher fetches from. -/
def State.messageFrom (s : State) : List Byte := s.message.drop s.cur.toNat

/-- `sext_64` of a 32-bit raw value (R26, R166). -/
def sext64 (v : BitVec 32) : BitVec 64 := v.signExtend 64

/-- The altitude of a high-precision location, sign-extended to 64 bits (R26, R167). -/
def altitude64 : Altitude → BitVec 64
  | .w4 v => v.signExtend 64
  | .w8 v => v

/-- `CUR <- CUR + n` (R133). -/
def advance (n : Nat) (s : State) : State := { s with cur := s.cur + BitVec.ofNat 8 n }

/-- A sub-record with id byte `id` and `n` data bytes has been decoded to the record `r`: the record is written, then the id
is appended to `PRESENT` and counted (R137), and the cursor moves past the sub-record (R133). -/
def decoded (id : Byte) (n : Nat) (r : SensorRecord) (s : State) : State :=
  advance (2 + n) { s with record := r, present := s.present ++ [id], pcount := s.pcount + 1 }

/-- One recognised sub-record of row `k` that leaves the record as `r` (R130, R150). -/
def subRecord (k : Kind) (r : SensorRecord) (s : State) : Res State :=
  match s.cfg.idOf k with
  | some id => .next (decoded id (k.expLen s.cfg) r s)
  | none => .refused (.inactiveRow k)

end Sys2Proof.Machine
end

