-- ==== Sys2Proof/Machine/Checksum.lean ====
section
/-! DEFINITION. The checksum accumulator (spec/40_checksum.md): `UPD`, `CLR` and the pure function `CKS`. -/

namespace Sys2Proof.Machine

/-- One update of the pair `(c0, c1)`; the second sum sees the new first one; both wrap modulo 256 (R91). -/
def updPair (c : Byte × Byte) (b : Byte) : Byte × Byte := (c.1 + b, c.2 + (c.1 + b))

/-- `CKS(s)`: the accumulator after `CLR` and `UPD` of each byte (R92). -/
def cks (bs : List Byte) : Byte × Byte := bs.foldl updPair (0, 0)

/-- `UPD(b)` on the registers (R91). -/
def upd (b : Byte) (s : State) : State := { s with c0 := (updPair (s.c0, s.c1) b).1, c1 := (updPair (s.c0, s.c1) b).2 }

/-- `CLR` on the registers (R93). -/
def clr (s : State) : State := { s with c0 := 0, c1 := 0 }

/-- UPD (R91). -/
def execUpd (b : Byte) (s : State) : Res State := .next (upd b s)

/-- CLR (R93). -/
def execClr (s : State) : Res State := .next (clr s)

end Sys2Proof.Machine
end

