-- ==== Sys2Proof/Machine/Fields.lean ====
section
/-! DEFINITION. The sub-record operations (spec/43_fields.md): each writes the raw integers of its lanes into its target
fields of `REC` and no other field (R150, R153); `decoded` adds the present list and the cursor (R137, R133). -/

namespace Sys2Proof.Machine

/-- TEMP, temperature (R155). -/
def execTemp (v : BitVec 16) (s : State) : Res State :=
  subRecord .temp { s.record with temp := v } s

/-- ACC, acceleration (R156). -/
def execAcc (v : Lanes3) (s : State) : Res State :=
  subRecord .acc { s.record with acc := v } s

/-- GYRO, angular rate (R157). -/
def execGyro (v : Lanes3) (s : State) : Res State :=
  subRecord .gyro { s.record with gyro := v } s

/-- FACC, free acceleration (R158). -/
def execFacc (v : Lanes3) (s : State) : Res State :=
  subRecord .facc { s.record with facc := v } s

/-- DVEL, speed increment (R159). -/
def execDvel (v : Lanes3) (s : State) : Res State :=
  subRecord .dvel { s.record with dvel := v } s

/-- VEL, velocity (R160). -/
def execVel (v : Lanes3) (s : State) : Res State :=
  subRecord .vel { s.record with vel := v } s

/-- MAGN, magnetic field, normalised (R161). -/
def execMagn (v : Lanes3) (s : State) : Res State :=
  subRecord .magn { s.record with magn := v } s

/-- MAGR, magnetic field, raw (R162). -/
def execMagr (v : Lanes3) (s : State) : Res State :=
  subRecord .magr { s.record with magr := v } s

/-- EUL, Euler angles (R163). -/
def execEul (v : Lanes3) (s : State) : Res State :=
  subRecord .eul { s.record with euler := v } s

/-- QUAT, quaternion (R164). -/
def execQuat (v : Lanes4) (s : State) : Res State :=
  subRecord .quat { s.record with quat := v } s

/-- DQUAT, quaternion increment (R165). -/
def execDquat (v : Lanes4) (s : State) : Res State :=
  subRecord .dquat { s.record with dquat := v } s

/-- LOC, location, standard precision; 64-bit raw fields and `loc_prec <- 1` (R166, R26). -/
def execLoc (lat lon alt : BitVec 32) (s : State) : Res State :=
  subRecord .loc { s.record with lat := sext64 lat, lon := sext64 lon, alt := sext64 alt, locPrec := .standard } s

/-- LOCH, location, high precision; `loc_prec <- 2` (R167, R26). -/
def execLoch (lat lon : BitVec 64) (alt : Altitude) (s : State) : Res State :=
  subRecord .loch { s.record with lat := lat, lon := lon, alt := altitude64 alt, locPrec := .high } s

/-- TSS, sample timestamp, unsigned (R168). -/
def execTss (v : BitVec 32) (s : State) : Res State :=
  subRecord .tss { s.record with tsSample := v } s

/-- TSD, data-ready timestamp, unsigned (R169). -/
def execTsd (v : BitVec 32) (s : State) : Res State :=
  subRecord .tsd { s.record with tsReady := v } s

/-- TEMP2, second-sensor temperature, active only when `DUAL = true` (R170). -/
def execTemp2 (v : BitVec 16) (s : State) : Res State :=
  subRecord .temp2 { s.record with temp2 := v } s

/-- ACC2, second-sensor acceleration, active only when `DUAL = true` (R171). -/
def execAcc2 (v : Lanes3) (s : State) : Res State :=
  subRecord .acc2 { s.record with acc2 := v } s

/-- GYRO2, second-sensor angular rate, active only when `DUAL = true` (R172). -/
def execGyro2 (v : Lanes3) (s : State) : Res State :=
  subRecord .gyro2 { s.record with gyro2 := v } s

/-- NOISE: the dispatcher's default, `CUR <- CUR + 1`, nothing written (R133, R75). The byte is not looked at. -/
def execNoise (_b : Byte) (s : State) : Res State := .next (advance 1 s)

end Sys2Proof.Machine
end

