-- ==== Sys2Proof/Machine/Dispatcher.lean ====
section
/-! DEFINITION. The field dispatcher (spec/42_dispatcher.md): the walk over the message as a fetch, decode, execute loop,
and `DISPATCH`. -/

namespace Sys2Proof.Machine

/-- Run one sub-record operation: what the dispatcher decodes at the cursor (R132). Only rows of format `SR` are run; the
decoder yields no other (R83). -/
def runSub (i : Instr) (s : State) : Res State :=
  match i with
  | .temp v => execTemp v s
  | .acc v => execAcc v s
  | .gyro v => execGyro v s
  | .facc v => execFacc v s
  | .dvel v => execDvel v s
  | .vel v => execVel v s
  | .magn v => execMagn v s
  | .magr v => execMagr v s
  | .eul v => execEul v s
  | .quat v => execQuat v s
  | .dquat v => execDquat v s
  | .loc lat lon alt => execLoc lat lon alt s
  | .loch lat lon alt => execLoch lat lon alt s
  | .tss v => execTss v s
  | .tsd v => execTsd v s
  | .temp2 v => execTemp2 v s
  | .acc2 v => execAcc2 v s
  | .gyro2 v => execGyro2 v s
  | .noise b => execNoise b s
  | .h1 _ | .h2 _ | .tidl _ | .tidh _ | .len _ | .msg _ | .crc1 _ | .crc2 _ | .badst _ _ | .frame _ _ _
  | .reset _ | .feed _ | .scan _ | .rdtrace | .rdrec | .dispatch | .upd _ | .clr => .refused .notSubRecord

/-- The operation at the cursor: a recognised sub-record or a noise byte (R132, R135). -/
def fetchSub (s : State) : Except DecodeError Instr := (decodeSub s.cfg s.messageFrom).map (·.1)

/-- The loop condition `CUR < LEN` (R132). -/
def walkGoesOn (s : State) : Bool := decide (s.cur.toNat < s.len.toNat)

/-- One iteration of the walk (R130). -/
def walkStep (s : State) : Res State :=
  match fetchSub s with
  | .ok i => runSub i s
  | .error _ => .refused .notSubRecord

/-- The walk (R132): at most `n` iterations, as long as `CUR < LEN`. Every iteration moves the cursor on, so `n = LEN` is
enough (R139). -/
def walk : Nat → State → Res State
  | 0, s => .next s
  | n + 1, s => if walkGoesOn s then andThen (walkStep s) (walk n) else .next s

/-- The record zeroed, the present list emptied, the cursor at 0 (R130, R131). -/
def dispatchBegin (s : State) : State :=
  { s with act := .walking, record := SensorRecord.zero, present := [], pcount := 0, cur := 0 }

/-- `emit Complete(TID, REC, PRESENT)` (R138, R31); the cursor is no more (R29). -/
def dispatchEnd (s : State) : State :=
  emit (.complete s.tid s.record s.present) { s with act := .idle, cur := 0 }

/-- `DISPATCH()` (R130), where the message view lies in the buffer (R40, log 9). -/
def runDispatch (s : State) : Res State :=
  if HDR_BYTES + s.len.toNat ≤ s.cfg.cap then
    andThen (walk s.len.toNat (dispatchBegin s)) fun t => .next (dispatchEnd t)
  else .fault (.bufferAddress s.cfg.cap)

/-- DISPATCH, called by `CRC2` only (R130). -/
def execDispatch (s : State) : Res State := whenIdle s (runDispatch s)

end Sys2Proof.Machine
end

