-- ==== Sys2Proof/Machine/Framer.lean ====
section
/-! DEFINITION. The frame assembly state machine (spec/41_framer.md): the byte operations and the byte-feed step `FEED`.
`byteH1` to `byteBadst` are the operations as the step performs them, `LAST` written; `execH1` to `execBadst` are the same
asked for by the host, which gets the status. -/

namespace Sys2Proof.Machine

/-- H1 (R101). -/
def byteH1 (b : Byte) (s : State) : Res State :=
  if b = MAGIC1 then
    andThen (store b (clearFrame s)) fun t => .next (retire .running (goto .header2 t))
  else .next (retire .running s)

/-- H2 (R102). -/
def byteH2 (b : Byte) (s : State) : Res State :=
  if b = MAGIC2 then
    andThen (store b s) fun t => .next (retire .running (goto .tidLow t))
  else .next (retire .running (goto .header1 s))

/-- TIDL (R103): `TID[7:0] <- b`. -/
def byteTidl (b : Byte) (s : State) : Res State :=
  andThen (store b s) fun t =>
    .next (retire .running (goto .tidHigh (upd b { t with tid := t.tid.extractLsb' 8 8 ++ b })))

/-- TIDH (R104): `TID[15:8] <- b`. -/
def byteTidh (b : Byte) (s : State) : Res State :=
  andThen (store b s) fun t =>
    .next (retire .running (goto .length (upd b { t with tid := b ++ t.tid.extractLsb' 0 8 })))

/-- LEN (R105). -/
def byteLen (b : Byte) (s : State) : Res State :=
  if legalLength b then
    andThen (store b s) fun t =>
      .next (retire .running (goto .message (upd b { t with len := b, rem := b })))
  else .next (raise .lengthError s)

/-- MSG (R106): the new `REM` is tested. -/
def byteMsg (b : Byte) (s : State) : Res State :=
  andThen (store b s) fun t =>
    .next (retire .running
      (goto (if t.rem - 1 = 0 then .crc1 else t.st) (upd b { t with rem := t.rem - 1 })))

/-- CRC1 (R107). -/
def byteCrc1 (b : Byte) (s : State) : Res State :=
  if b = s.c0 then
    andThen (store b s) fun t => .next (retire .running (goto .crc2 t))
  else .next (raise .checksumError s)

/-- CRC2 (R108): on a match, store, dispatch, count, `Done`. -/
def byteCrc2 (b : Byte) (s : State) : Res State :=
  if b = s.c1 then
    andThen (store b s) fun t => andThen (runDispatch t) fun u => .next (completeFrame u)
  else .next (raise .checksumError s)

/-- BADST (R109): the byte is ignored, and so is which invalid code it was. -/
def byteBadst (_low : BitVec 3) (_b : Byte) (s : State) : Res State := .next (raise .internalError s)

/-- The byte-feed step: one byte operation, selected by `ST` (R100). -/
def byteStep (b : Byte) (s : State) : Res State :=
  match s.st with
  | .header1 => byteH1 b s
  | .header2 => byteH2 b s
  | .tidLow => byteTidl b s
  | .tidHigh => byteTidh b s
  | .length => byteLen b s
  | .message => byteMsg b s
  | .crc1 => byteCrc1 b s
  | .crc2 => byteCrc2 b s
  | .invalid low => byteBadst low b s

/-- H1 (R101). -/
def execH1 (b : Byte) (s : State) : Res State := whenIdle s (answer (byteH1 b s))

/-- H2 (R102). -/
def execH2 (b : Byte) (s : State) : Res State := whenIdle s (answer (byteH2 b s))

/-- TIDL (R103). -/
def execTidl (b : Byte) (s : State) : Res State := whenIdle s (answer (byteTidl b s))

/-- TIDH (R104). -/
def execTidh (b : Byte) (s : State) : Res State := whenIdle s (answer (byteTidh b s))

/-- LEN (R105). -/
def execLen (b : Byte) (s : State) : Res State := whenIdle s (answer (byteLen b s))

/-- MSG (R106). -/
def execMsg (b : Byte) (s : State) : Res State := whenIdle s (answer (byteMsg b s))

/-- CRC1 (R107). -/
def execCrc1 (b : Byte) (s : State) : Res State := whenIdle s (answer (byteCrc1 b s))

/-- CRC2 (R108). -/
def execCrc2 (b : Byte) (s : State) : Res State := whenIdle s (answer (byteCrc2 b s))

/-- BADST (R109). -/
def execBadst (low : BitVec 3) (b : Byte) (s : State) : Res State := whenIdle s (answer (byteBadst low b s))

/-- FEED (R201, R100). -/
def execFeed (b : Byte) (s : State) : Res State := whenIdle s (answer (byteStep b s))

/-- Feed bytes one after another, as the host does (R8). -/
def feedAll : List Byte → State → Res State
  | [], s => .next s
  | b :: bs, s => andThen (answer (byteStep b s)) (feedAll bs)

/-- FRAME (R60, R114): the bytes of a frame, fed in wire order (log 3). -/
def execFrame (tid : BitVec 16) (len : Byte) (body : List Byte) (s : State) : Res State :=
  whenIdle s (feedAll (frameBytes tid len body) s)

end Sys2Proof.Machine
end

