-- ==== Sys2Proof/Machine/Scanner.lean ====
section
/-! DEFINITION. The bulk scanner (spec/44_scanner.md R180): `SCAN` as byte-feed steps on the decoder. `POS`, `CAND` and `Q`
are arguments of its loops (R32); a loop's first argument bounds its iterations (R188). -/

namespace Sys2Proof.Machine

/-- The `SCAN_TAIL` policy: whether the header test may be made at `p` in a buffer of `n` bytes (R183). -/
def tailAllows : ScanTail → Nat → Nat → Bool
  | .reject, p, n => decide (p + 4 < n)

/-- The header test `candidate(p)` (R183). -/
def candidate (c : Cfg) (src : List Byte) (p : Nat) : Bool :=
  tailAllows c.scanTail p src.length &&
    (src[p]? == some MAGIC1 && src[p + 1]? == some MAGIC2 && (src[p + 4]?.elim false legalLength))

/-- The least candidate at or after `pos` (R180). -/
def nextCandidate (c : Cfg) (src : List Byte) (pos : Nat) : Option Nat :=
  (List.range' pos (src.length - pos)).find? (candidate c src)

/-- A search position and the decoder's state there. -/
structure ScanPoint where
  pos : Nat
  state : State
deriving DecidableEq, Repr

/-- Phase 1 (R182): feed without searching until `ST = Header1` or the buffer ends; an error status sends the search back
to index 0. -/
def scanContinue (src : List Byte) : Nat → Nat → State → Res ScanPoint
  | 0, pos, s => .next ⟨pos, s⟩
  | n + 1, pos, s =>
    if s.st = .header1 then .next ⟨pos, s⟩
    else
      match src[pos]? with
      | none => .next ⟨pos, s⟩
      | some b =>
        andThen (byteStep b s) fun t => scanContinue src n (if t.last.isError then 0 else pos + 1) t

/-- How the trial of a candidate ended (R180). -/
inductive Verdict where
  | completed | failed | unfinished
deriving DecidableEq, Repr

/-- The end of the trial of a candidate: how, the next unfed index, the decoder's state. -/
structure Trial where
  verdict : Verdict
  q : Nat
  state : State
deriving DecidableEq, Repr

/-- Try a candidate (R184): feed from index `q` until `Done`, an error status, or the end of the buffer. -/
def scanTry (src : List Byte) : Nat → Nat → State → Res Trial
  | 0, q, s => .next ⟨.unfinished, q, s⟩
  | n + 1, q, s =>
    match src[q]? with
    | none => .next ⟨.unfinished, q, s⟩
    | some b =>
      andThen (byteStep b s) fun t =>
        if t.last = .done then .next ⟨.completed, q + 1, t⟩
        else if t.last.isError then .next ⟨.failed, q + 1, t⟩
        else scanTry src n (q + 1) t

/-- Phase 2 (R183 to R187): search from `pos`; after `Done` go on behind the frame, after an error two bytes past the
candidate, and stop where the buffer ends. -/
def scanSearch (src : List Byte) : Nat → Nat → State → Res State
  | 0, _, s => .next s
  | n + 1, pos, s =>
    match nextCandidate s.cfg src pos with
    | none => .next s
    | some cand =>
      andThen (scanTry src src.length cand s) fun r =>
        match r.verdict with
        | .completed => scanSearch src n r.q r.state
        | .failed => scanSearch src n (cand + 2) r.state
        | .unfinished => .next r.state

/-- `SCAN(SRC, N)` (R180). -/
def runScan (src : List Byte) (s : State) : Res State :=
  andThen (scanContinue src (src.length + 1) 0 s) fun r =>
    if r.state.st = .header1 then scanSearch src (src.length + 1) r.pos r.state else .next r.state

/-- SCAN (R202, R180). The statuses of its byte-feed steps are not returned to the host; its events are (log 22). -/
def execScan (src : List Byte) (s : State) : Res State := whenIdle s (runScan src s)

end Sys2Proof.Machine
end

