-- ==== Sys2Proof/Machine/HostOps.lean ====
section
/-! DEFINITION. The host operations that feed nothing (spec/45_host_operations.md): `RESET`, `RDTRACE`, and reading the
record. -/

namespace Sys2Proof.Machine

/-- The registers of R35 at their reset values, under the configuration `c` (R200). What the buffer holds is unspecified:
nothing is known of it any more (R17, log 5). The port and the outputs are not registers of the block. -/
def resetTo (c : Cfg) (s : State) : State :=
  { s with
    cfg := c, act := .idle, st := .header1, tid := 0, len := 0, rem := 0, c0 := 0, c1 := 0, wp := 0, buf := []
    cntDone := 0, cntFail := 0, last := .running, record := SensorRecord.zero, present := [], pcount := 0, cur := 0
    epoch := s.epoch + 1 }

/-- RESET (R200, R250): at any time but inside a step (R208); an ill-formed configuration is refused. -/
def execReset (c : Cfg) (s : State) : Res State :=
  match s.act with
  | .walking => .refused .overlap
  | .preReset | .idle => if c.wf then .next (resetTo c s) else .refused .badConfig

/-- RDTRACE (R203): the trace registers at the outputs; no side effect. -/
def execRdtrace (s : State) : Res State := whenIdle s (.next (emit (.trace s.cntDone s.cntFail s.last) s))

/-- RDREC, reading the record (R204): `REC`, `PRESENT`, `PCOUNT` and `TID` at the outputs; no side effect. -/
def execRdrec (s : State) : Res State :=
  whenIdle s (.next (emit (.record s.record s.present s.pcount s.tid) s))

end Sys2Proof.Machine
end

