-- ==== Sys2Proof/Machine/Dispatch.lean ====
section
/-! DEFINITION. The meaning of every instruction: one arm per row of spec/opcode_table.json. -/

namespace Sys2Proof.Machine

def exec (i : Instr) (s : State) : Host.Outcome State Fault Refusal :=
  match i with
  | .h1 b => Sys2Proof.Machine.execH1 b s
  | .h2 b => Sys2Proof.Machine.execH2 b s
  | .tidl b => Sys2Proof.Machine.execTidl b s
  | .tidh b => Sys2Proof.Machine.execTidh b s
  | .len b => Sys2Proof.Machine.execLen b s
  | .msg b => Sys2Proof.Machine.execMsg b s
  | .crc1 b => Sys2Proof.Machine.execCrc1 b s
  | .crc2 b => Sys2Proof.Machine.execCrc2 b s
  | .badst low b => Sys2Proof.Machine.execBadst low b s
  | .frame tid n body => Sys2Proof.Machine.execFrame tid n body s
  | .temp v => Sys2Proof.Machine.execTemp v s
  | .acc v => Sys2Proof.Machine.execAcc v s
  | .gyro v => Sys2Proof.Machine.execGyro v s
  | .facc v => Sys2Proof.Machine.execFacc v s
  | .dvel v => Sys2Proof.Machine.execDvel v s
  | .vel v => Sys2Proof.Machine.execVel v s
  | .magn v => Sys2Proof.Machine.execMagn v s
  | .magr v => Sys2Proof.Machine.execMagr v s
  | .eul v => Sys2Proof.Machine.execEul v s
  | .quat v => Sys2Proof.Machine.execQuat v s
  | .dquat v => Sys2Proof.Machine.execDquat v s
  | .loc lat lon alt => Sys2Proof.Machine.execLoc lat lon alt s
  | .loch lat lon alt => Sys2Proof.Machine.execLoch lat lon alt s
  | .tss v => Sys2Proof.Machine.execTss v s
  | .tsd v => Sys2Proof.Machine.execTsd v s
  | .temp2 v => Sys2Proof.Machine.execTemp2 v s
  | .acc2 v => Sys2Proof.Machine.execAcc2 v s
  | .gyro2 v => Sys2Proof.Machine.execGyro2 v s
  | .noise b => Sys2Proof.Machine.execNoise b s
  | .reset c => Sys2Proof.Machine.execReset c s
  | .feed b => Sys2Proof.Machine.execFeed b s
  | .scan src => Sys2Proof.Machine.execScan src s
  | .rdtrace => Sys2Proof.Machine.execRdtrace s
  | .rdrec => Sys2Proof.Machine.execRdrec s
  | .dispatch => Sys2Proof.Machine.execDispatch s
  | .upd b => Sys2Proof.Machine.execUpd b s
  | .clr => Sys2Proof.Machine.execClr s

end Sys2Proof.Machine
end

