-- ==== Sys2Proof/Machine/Step.lean ====
section
/-! DEFINITION. One step of the block: the next host operation from the port, or, inside a dispatch, the next sub-record of
the message (log 1, log 4); and how a word of the opcode table is placed where the step fetches it. -/

namespace Sys2Proof.Machine

/-- Inside a dispatch (log 4): run the operation at the cursor, or, at the end of the message, complete the frame (R130,
R108). -/
def stepWalking (s : State) : Res State :=
  if walkGoesOn s then
    match fetchSub s with
    | .ok i => exec i s
    | .error _ => .refused .notSubRecord
  else .next (reportStatus (completeFrame (dispatchEnd s)))

/-- Between operations: take the next host operation from the port and run it; an empty port leaves the block as it is
(R113, R236). -/
def stepPort (s : State) : Res State :=
  match s.port with
  | [] => .next s
  | op :: rest => exec op.instr { s with port := rest }

/-- One step. The outputs present what this step gives (R31, R201). -/
def step (s : State) : Host.Outcome State Fault Refusal :=
  match s.act with
  | .walking => stepWalking { s with out := [] }
  | .preReset => stepPort { s with out := [] }
  | .idle => stepPort { s with out := [] }

/-- Place a word of spec/opcode_table.json where the next step fetches (log 18). A state code goes to `ST`, with a `FEED` of
the byte 0 at the port; a frame goes to the port; a sub-record goes to the message, with the dispatcher at its first byte. -/
def State.withFetchWord (s : State) (nbits w : Nat) : State :=
  if nbits ≤ 8 then
    { s with act := .idle, st := FState.ofCode (BitVec.ofNat 4 w), port := .feed 0 :: s.port }
  else
    match decodeTableWord nbits w with
    | some (.frame tid l body) => { s with act := .idle, port := .frame tid l body :: s.port }
    | _ =>
      { s with
        act := .walking, cur := 0, len := BitVec.ofNat 8 SUB_MAX
        buf := Memory.writeAll s.buf HDR_BYTES (tableBytes nbits w SUB_MAX) }

end Sys2Proof.Machine
end

