-- ==== Sys2Proof/Machine/Values.lean ====
section
/-! DEFINITION. The physical value of a field (spec/43_fields.md R151), exact in the rationals, with the scale exponents of
spec/10_state.md R25, and what D0 asks of a floating rendering (R152). No operation of the block computes these. -/

namespace Sys2Proof.Machine

/-- `raw * 10^(-k)` (R151). -/
def scaled (k : Nat) (raw : Int) : ℚ := (raw : ℚ) / 10 ^ k

/-- The scale exponent of a row's field (R25, R72); for the two location rows, that of `lat` and `lon`. -/
def scaleExponent : Kind → Nat
  | .temp | .temp2 => 2
  | .acc | .gyro | .facc | .dvel | .vel | .magn | .eul | .quat | .dquat | .acc2 | .gyro2 => 6
  | .magr => 3
  | .loc => 7
  | .loch => 10
  | .tss | .tsd => 0

/-- The exponent of `lat` and `lon` (R25, R151); with `loc_prec = 0` the raw values are 0 and any exponent will do. -/
def latLonExponent : LocPrec → Nat
  | .none => 0
  | .standard => 7
  | .high => 10

/-- The exponent of `alt` (R25). -/
def altExponent : Nat := 3

/-- The values of three lanes. -/
def scaled3 (k : Nat) (v : Lanes3) : List ℚ := [scaled k v.l0.toInt, scaled k v.l1.toInt, scaled k v.l2.toInt]

/-- The values of four lanes. -/
def scaled4 (k : Nat) (v : Lanes4) : List ℚ :=
  [scaled k v.l0.toInt, scaled k v.l1.toInt, scaled k v.l2.toInt, scaled k v.l3.toInt]

/-- The physical values of the field a row writes, lane by lane in wire order (R25, R151); the location's are `lat`, `lon`,
`alt` under the tag's exponent. -/
def fieldValues (r : SensorRecord) : Kind → List ℚ
  | .temp => [scaled (scaleExponent .temp) r.temp.toInt]
  | .acc => scaled3 (scaleExponent .acc) r.acc
  | .gyro => scaled3 (scaleExponent .gyro) r.gyro
  | .facc => scaled3 (scaleExponent .facc) r.facc
  | .dvel => scaled3 (scaleExponent .dvel) r.dvel
  | .vel => scaled3 (scaleExponent .vel) r.vel
  | .magn => scaled3 (scaleExponent .magn) r.magn
  | .magr => scaled3 (scaleExponent .magr) r.magr
  | .eul => scaled3 (scaleExponent .eul) r.euler
  | .quat => scaled4 (scaleExponent .quat) r.quat
  | .dquat => scaled4 (scaleExponent .dquat) r.dquat
  | .loc | .loch =>
    [scaled (latLonExponent r.locPrec) r.lat.toInt, scaled (latLonExponent r.locPrec) r.lon.toInt,
     scaled altExponent r.alt.toInt]
  | .tss => [scaled (scaleExponent .tss) r.tsSample.toNat]
  | .tsd => [scaled (scaleExponent .tsd) r.tsReady.toNat]
  | .temp2 => [scaled (scaleExponent .temp2) r.temp2.toInt]
  | .acc2 => scaled3 (scaleExponent .acc2) r.acc2
  | .gyro2 => scaled3 (scaleExponent .gyro2) r.gyro2

/-- What may be assumed of the OPEN rendering `FLT`, here any function to the rationals: an error of at most `1e-5` on the
values of D0's one example, and nothing else (R152, log 16). -/
def FltAdmissible (flt : ℚ → ℚ) : Prop :=
  |flt 1 - 1| ≤ 1 / 10 ^ 5 ∧ |flt 0 - 0| ≤ 1 / 10 ^ 5 ∧ |flt (-49 / 5) - (-49 / 5)| ≤ 1 / 10 ^ 5

end Sys2Proof.Machine
end

