-- ==== Sys2Proof/Machine/Assembler.lean ====
section
/-! DEFINITION. The frame notation (spec/30_encoding.md R82): messages from sub-records and literal bytes, frames with the
computed checksum bytes (spec/40_checksum.md R92, R94). The block has no such unit; the host and the statements do. -/

namespace Sys2Proof.Machine

/-- One part of a message: a sub-record by mnemonic, a literal header with data, literal bytes (R82). -/
inductive MsgItem where
  | sub (i : Instr)
  | lit (id len : Byte) (data : List Byte)
  | raw (bs : List Byte)
deriving DecidableEq, Repr

/-- The bytes a code stands for, if it is a piece of a message. -/
def codeBytes : Code → List Byte
  | .message bs => bs
  | .fsm _ _ | .wire _ | .host _ | .internal _ => []

/-- The bytes of one part of a message (R82). -/
def MsgItem.bytes (c : Cfg) : MsgItem → List Byte
  | .sub i => codeBytes (encode c i)
  | .lit id len data => id :: len :: data
  | .raw bs => bs

/-- The bytes of a message (R82). -/
def messageBytes (c : Cfg) (items : List MsgItem) : List Byte := items.flatMap (MsgItem.bytes c)

/-- The bytes the checksum covers: `tid_lo`, `tid_hi`, `len` and the message, in wire order (R94). -/
def covered (tid : BitVec 16) (len : Byte) (msg : List Byte) : List Byte :=
  tid.extractLsb' 0 8 :: tid.extractLsb' 8 8 :: len :: msg

/-- The checksum bytes of a frame (R94). -/
def frameChecksum (tid : BitVec 16) (msg : List Byte) : Byte × Byte :=
  cks (covered tid (BitVec.ofNat 8 msg.length) msg)

/-- The frame `FRAME tid=… { … }` over message bytes, with its computed checksum (R82). -/
def validFrame (tid : BitVec 16) (msg : List Byte) : Instr :=
  .frame tid (BitVec.ofNat 8 msg.length) (msg ++ [(frameChecksum tid msg).1, (frameChecksum tid msg).2])

/-- The wire bytes of that frame (R60, R82). -/
def validFrameBytes (tid : BitVec 16) (msg : List Byte) : List Byte :=
  frameBytes tid (BitVec.ofNat 8 msg.length) (msg ++ [(frameChecksum tid msg).1, (frameChecksum tid msg).2])

/-- The same frame with its first (`!crc0`) or second (`!crc1`) checksum byte inverted (R82). -/
def brokenFrame (tid : BitVec 16) (msg : List Byte) (bad0 bad1 : Bool) : Instr :=
  let flip (bad : Bool) (b : Byte) : Byte := if bad then b ^^^ 0xFF else b
  .frame tid (BitVec.ofNat 8 msg.length)
    (msg ++ [flip bad0 (frameChecksum tid msg).1, flip bad1 (frameChecksum tid msg).2])

end Sys2Proof.Machine
end

