-- ==== Sys2Proof/Safety.lean ====
section
/-! DEFINITION. What counts as a good state: the invariants of spec/10_state.md R34, the buffer layout of
spec/20_memory.md R41, and the facts about counters, record and present list that go with them; and the terms in which
statements say what an operation leaves alone. -/

namespace Sys2Proof.Machine

/-! ## Good states -/

/-- The accumulator holds the checksum of `n` bytes from offset 2 (R34, R94). -/
def SumsOver (s : State) (n : Nat) : Prop := (s.c0, s.c1) = cks (s.bytesAt 2 n)

/-- Nothing of the message has been seen yet (R34). -/
def NoLength (s : State) : Prop := s.rem = 0 ∧ s.len = 0

/-- The table of R34, one line per framer state; an invalid code is never present. -/
def FramerOk (s : State) : Prop :=
  match s.st with
  | .header1 => s.wp ≤ 206
  | .header2 => s.wp = 1 ∧ NoLength s ∧ s.c0 = 0 ∧ s.c1 = 0
  | .tidLow => s.wp = 2 ∧ NoLength s ∧ s.c0 = 0 ∧ s.c1 = 0
  | .tidHigh => s.wp = 3 ∧ NoLength s ∧ SumsOver s 1
  | .length => s.wp = 4 ∧ NoLength s ∧ SumsOver s 2
  | .message =>
    s.wp + s.rem.toNat = 5 + s.len.toNat ∧ 1 ≤ s.rem.toNat ∧ s.rem.toNat ≤ s.len.toNat ∧
      legalLength s.len = true ∧ SumsOver s (s.wp - 2)
  | .crc1 => s.wp = 5 + s.len.toNat ∧ s.rem = 0 ∧ legalLength s.len = true ∧ SumsOver s (3 + s.len.toNat)
  | .crc2 =>
    s.wp = 6 + s.len.toNat ∧ s.rem = 0 ∧ legalLength s.len = true ∧ SumsOver s (3 + s.len.toNat) ∧
      Memory.read s.buf (5 + s.len.toNat) = some s.c0
  | .invalid _ => False

/-- The header of the frame stands at its wire offsets as far as it has been stored (R41). -/
def HeaderStored (s : State) : Prop :=
  (1 ≤ s.wp → Memory.read s.buf 0 = some MAGIC1) ∧
  (2 ≤ s.wp → Memory.read s.buf 1 = some MAGIC2) ∧
  (3 ≤ s.wp → Memory.read s.buf 2 = some (s.tid.extractLsb' 0 8)) ∧
  (4 ≤ s.wp → Memory.read s.buf 3 = some (s.tid.extractLsb' 8 8)) ∧
  (5 ≤ s.wp → Memory.read s.buf 4 = some s.len)

/-- The invariant of the block between operations. -/
structure Inv (s : State) : Prop where
  /-- The latched configuration is one `RESET` accepts (R200). -/
  cfgOk : s.cfg.wf = true
  /-- The block is between operations: no dispatch is in progress (R29, R52). -/
  idle : s.act = .idle
  /-- The buffer is in canonical form. -/
  bufWf : Memory.wf s.buf = true
  /-- Nothing is ever written at or above offset 206 (R41). -/
  bufBound : ∀ p ∈ s.buf, p.1 < CAP_MIN
  /-- Every offset below `WP` was written since the last reset (R16, R42). -/
  written : ∀ a, a < s.wp → (Memory.read s.buf a).isSome = true
  /-- `WP <= 206` (R16, R34). -/
  wpBound : s.wp ≤ 206
  /-- The table of R34. -/
  framer : FramerOk s
  /-- The layout of R41. -/
  header : HeaderStored s
  /-- The trace counters fit in `CNTW` bits (R20). -/
  doneBound : s.cntDone ≤ maxCount s.cfg
  failBound : s.cntFail ≤ maxCount s.cfg
  /-- `PCOUNT` is the length of `PRESENT`, which never exceeds its capacity (R28). -/
  presentCount : s.pcount.toNat = s.present.length
  presentBound : s.present.length ≤ PCAP
  /-- With `DUAL = false` the second-sensor fields are 0 (R27). -/
  oneSensor : s.cfg.dual = false →
    s.record.temp2 = 0 ∧ s.record.acc2 = ⟨0, 0, 0⟩ ∧ s.record.gyro2 = ⟨0, 0, 0⟩
  /-- With `loc_prec = 0` the three location values are 0 (R26). -/
  noLocation : s.record.locPrec = .none → s.record.lat = 0 ∧ s.record.lon = 0 ∧ s.record.alt = 0

/-! ## What an operation leaves alone -/

/-- One byte of the buffer is stored at offset `a`; every other byte is as before. -/
def StoredAt (a : Nat) (b : Byte) (m m' : Memory) : Prop :=
  Memory.read m' a = some b ∧ ∀ x, x ≠ a → Memory.read m' x = Memory.read m x

/-- Every byte of the buffer is as before. -/
def SameBytes (m m' : Memory) : Prop := ∀ x, Memory.read m' x = Memory.read m x

/-- What a dispatch computes from a message: the record and the present list (R130, R131). -/
structure Decoding where
  record : SensorRecord
  present : List Byte
deriving DecidableEq, Repr

/-- The decoding the state holds. -/
def State.decoding (s : State) : Decoding := ⟨s.record, s.present⟩

/-! ## What a message means -/

/-- The row an instruction is a sub-record of, if it is one (R72, R73). -/
def rowOf : Instr → Option Kind
  | .temp _ => some .temp
  | .acc _ => some .acc
  | .gyro _ => some .gyro
  | .facc _ => some .facc
  | .dvel _ => some .dvel
  | .vel _ => some .vel
  | .magn _ => some .magn
  | .magr _ => some .magr
  | .eul _ => some .eul
  | .quat _ => some .quat
  | .dquat _ => some .dquat
  | .loc _ _ _ => some .loc
  | .loch _ _ _ => some .loch
  | .tss _ => some .tss
  | .tsd _ => some .tsd
  | .temp2 _ => some .temp2
  | .acc2 _ => some .acc2
  | .gyro2 _ => some .gyro2
  | .noise _ => none
  | .h1 _ | .h2 _ | .tidl _ | .tidh _ | .len _ | .msg _ | .crc1 _ | .crc2 _ | .badst _ _ | .frame _ _ _
  | .reset _ | .feed _ | .scan _ | .rdtrace | .rdrec | .dispatch | .upd _ | .clr => none

/-- The operations the decoder finds in a message, from the first byte on (R132); at most `n` of them. -/
def parse (c : Cfg) : Nat → List Byte → List Instr
  | 0, _ => []
  | n + 1, m =>
    match decodeSub c m with
    | .ok (i, rest) => i :: parse c n rest
    | .error _ => []

/-- The operations of a whole message; each takes at least one byte (R139). -/
def subOps (c : Cfg) (msg : List Byte) : List Instr := parse c msg.length msg

/-- Execute a list of instructions one after another. -/
def execAll : List Instr → State → Res State
  | [], s => .next s
  | i :: is, s => andThen (exec i s) (execAll is)

/-- The record and present list that a message decodes to under a configuration, starting from the zero record (R131). It
looks at nothing else. -/
def decodingOf (c : Cfg) (msg : List Byte) : Decoding :=
  match execAll (subOps c msg) (dispatchBegin { State.reset with cfg := c }) with
  | .next t => t.decoding
  | .fault _ => ⟨SensorRecord.zero, []⟩
  | .refused _ => ⟨SensorRecord.zero, []⟩

/-! ## Rows of the table -/

/-- The bytes `id, length, d` decode to `i` whatever follows, and `i` changes the record by `f`, appends the id, moves the
cursor past the sub-record, and leaves everything else alone, every byte of the buffer included. -/
def RowWrites (s : State) (d rest : List Byte) (id : Byte) (i : Instr) (f : SensorRecord → SensorRecord) : Prop :=
  decodeSub s.cfg (id :: BitVec.ofNat 8 d.length :: (d ++ rest)) = .ok (i, rest) ∧
  ∃ t, exec i s = .next t ∧
    t = { s with record := f s.record, present := s.present ++ [id], pcount := s.pcount + 1
                 cur := s.cur + BitVec.ofNat 8 (2 + d.length) } ∧
    SameBytes s.buf t.buf

/-- The signed integer of four data bytes from `o` on (R136). -/
def signed4 (d : List Byte) (o : Nat) : Int := les ((d.drop o).take 4)

/-- Three lanes hold the three signed integers of twelve data bytes (R66, R153). -/
def SignedLanes3 (v : Lanes3) (d : List Byte) : Prop :=
  v.l0.toInt = signed4 d 0 ∧ v.l1.toInt = signed4 d 4 ∧ v.l2.toInt = signed4 d 8

/-- Four lanes hold the four signed integers of sixteen data bytes (R66, R153). -/
def SignedLanes4 (v : Lanes4) (d : List Byte) : Prop :=
  v.l0.toInt = signed4 d 0 ∧ v.l1.toInt = signed4 d 4 ∧ v.l2.toInt = signed4 d 8 ∧ v.l3.toInt = signed4 d 12

/-! ## Runs -/

/-- Byte-feed steps one after another, the statuses seen but not returned to the host (R180). -/
def feedSilent : List Byte → State → Res State
  | [], s => .next s
  | b :: bs, s => andThen (byteStep b s) (feedSilent bs)

/-- The readable state: what the host reads with `RDTRACE` and by reading the record (R203, R204). -/
structure Readable where
  cntDone : Nat
  cntFail : Nat
  last : Status
  record : SensorRecord
  present : List Byte
  pcount : BitVec 7
  tid : BitVec 16
deriving DecidableEq, Repr

/-- The readable state that the registers hold. -/
def State.readable (s : State) : Readable := ⟨s.cntDone, s.cntFail, s.last, s.record, s.present, s.pcount, s.tid⟩

/-- The observation of a run (R9): what the block presented, in input order, and the readable state at the end. The values
that a host read presented on the way stand among the outputs, where the read stood in the input. -/
structure Observation where
  outputs : List Output
  final : Readable
deriving DecidableEq, Repr

/-- More outputs in front of an observation. -/
def Observation.after (os : List Output) (o : Observation) : Observation := { o with outputs := os ++ o.outputs }

/-- The observation of a run of `n` steps (R9). A run that an operation without meaning ends is observed up to there. -/
def observe : Nat → State → Observation
  | 0, s => ⟨[], s.readable⟩
  | n + 1, s =>
    match step s with
    | .next t => (observe n t).after t.out
    | .fault _ => ⟨[], s.readable⟩
    | .refused _ => ⟨[], s.readable⟩

/-- The observation of the run that ends where the input the host gave ends (R9): one step per operation on the port. -/
def observePort (s : State) : Observation := observe s.port.length s

/-- How many completion events a list of outputs holds. -/
def events : List Output → Nat
  | [] => 0
  | .complete _ _ _ :: os => events os + 1
  | .status _ :: os => events os
  | .trace _ _ _ :: os => events os
  | .record _ _ _ _ :: os => events os

end Sys2Proof.Machine
end

