-- ==== Sys2Proof/Certificates/Slice0/Obligations.lean ====
section
/-! DEFINITION. The statements for the provers, file by file of spec/. `Inv` is the invariant of Safety.lean. -/

open Sys2Proof Sys2Proof.Machine

/-! ## Reset and configuration -/

/-- R35, R200: `RESET` with a configuration it accepts, at any time but inside a dispatch, leaves every register at its
reset value and the configuration latched; the port and the outputs are not registers. Nothing is said of `BUF`: its
contents are unspecified. -/
def Obligations.ResetPutsEveryRegisterAtItsResetValue : Prop :=
  ∀ (c : Cfg) (s : State), c.wf = true → s.act ≠ .walking →
    ∃ t, exec (.reset c) s = .next t ∧ t.cfg = c ∧ t.st = .header1 ∧ t.st.code = 0 ∧ t.tid = 0 ∧ t.len = 0 ∧
      t.rem = 0 ∧ t.c0 = 0 ∧ t.c1 = 0 ∧ t.wp = 0 ∧ t.cntDone = 0 ∧ t.cntFail = 0 ∧ t.last = .running ∧
      t.last.code = 0 ∧ t.record = SensorRecord.zero ∧ t.record.locPrec.code = 0 ∧ t.present = [] ∧ t.pcount = 0 ∧
      t.port = s.port ∧ t.out = s.out

/-- `State.reset` is what `RESET` with the default configuration leaves, but for the model's own fields: the counter of
resets, the port and the outputs; and every byte of the buffer is then a free value again, whatever was written before.
MODEL'S CHOICE: log 4 (the cursor and the activity), log 5 (the buffer forgets), log 6. -/
def Obligations.ResetStateIsWhatResetLeaves : Prop :=
  ∀ s : State, s.act ≠ .walking →
    ∃ t, exec (.reset Cfg.default) s = .next t ∧
      t = { State.reset with epoch := s.epoch + 1, port := s.port, out := s.out } ∧
      ∀ a, t.byteAt a = Config.unwrittenByte (s.epoch + 1) a

/-- R6, R47, R200: a configuration with `CAP < 206`, with two active rows sharing an id, or with `DUAL = true` and an OPEN
id not given, is refused. -/
def Obligations.IllFormedConfigurationIsRefused : Prop :=
  ∀ (c : Cfg) (s : State), s.act ≠ .walking →
    (c.cap < 206 ∨
      (∃ k k' id, k ≠ k' ∧ c.idOf k = some id ∧ c.idOf k' = some id) ∨
      (c.dual = true ∧ (c.idTemp2 = none ∨ c.idAcc2 = none ∨ c.idGyro2 = none))) →
    exec (.reset c) s = .refused .badConfig

/-- R23: no operation but `RESET` changes the configuration. -/
def Obligations.OnlyResetChangesTheConfiguration : Prop :=
  ∀ s t : State, step s = .next t → t.cfg = s.cfg ∨ (s.act ≠ .walking ∧ ∃ c rest, s.port = .reset c :: rest ∧ t.cfg = c)

/-! ## Decoding -/

/-- The words of the opcode table, and what they decode to: every byte operation, the frame, every sub-record row of the
default table, and one word that no row matches. The rules give the selectors alone: the state codes (R80), the header bytes of
a row (R72), how the table writes them (R83). MODEL'S CHOICE: that a word of at most 8 bits is a state code with the input
byte 0, and that a longer one is padded with zeros, hence the zero operands, log 18; the default ids are PRESUMED, log 12. -/
def Obligations.TableWordsDecodeToTheirRows : Prop :=
  decodeTableWord 8 0x0 = some (.h1 0) ∧ decodeTableWord 8 0x1 = some (.h2 0) ∧ decodeTableWord 8 0x2 = some (.tidl 0) ∧
  decodeTableWord 8 0x3 = some (.tidh 0) ∧ decodeTableWord 8 0x4 = some (.len 0) ∧ decodeTableWord 8 0x5 = some (.msg 0) ∧
  decodeTableWord 8 0x6 = some (.crc1 0) ∧ decodeTableWord 8 0x7 = some (.crc2 0) ∧
  decodeTableWord 8 0x8 = some (.badst 0 0) ∧ decodeTableWord 8 0xB = some (.badst 3 0) ∧
  decodeTableWord 16 0x5359 = some (.frame 0 0 []) ∧
  decodeTableWord 16 0x0201 = some (.temp 0) ∧ decodeTableWord 16 0x0C10 = some (.acc ⟨0, 0, 0⟩) ∧
  decodeTableWord 16 0x0C20 = some (.gyro ⟨0, 0, 0⟩) ∧ decodeTableWord 16 0x0C11 = some (.facc ⟨0, 0, 0⟩) ∧
  decodeTableWord 16 0x0C12 = some (.dvel ⟨0, 0, 0⟩) ∧ decodeTableWord 16 0x0C70 = some (.vel ⟨0, 0, 0⟩) ∧
  decodeTableWord 16 0x0C30 = some (.magn ⟨0, 0, 0⟩) ∧ decodeTableWord 16 0x0C31 = some (.magr ⟨0, 0, 0⟩) ∧
  decodeTableWord 16 0x0C40 = some (.eul ⟨0, 0, 0⟩) ∧ decodeTableWord 16 0x1041 = some (.quat ⟨0, 0, 0, 0⟩) ∧
  decodeTableWord 16 0x1042 = some (.dquat ⟨0, 0, 0, 0⟩) ∧ decodeTableWord 16 0x0C60 = some (.loc 0 0 0) ∧
  decodeTableWord 16 0x1868 = some (.loch 0 0 (.w8 0)) ∧ decodeTableWord 16 0x0451 = some (.tss 0) ∧
  decodeTableWord 16 0x0452 = some (.tsd 0) ∧ decodeTableWord 16 0x0D60 = some (.noise 0x60)

/-- Decode and encode agree: the encoding of every well-formed instruction, with every operand, decodes to it, under every
configuration `RESET` accepts. -/
def Obligations.DecodeOfEncodeIsTheInstruction : Prop :=
  ∀ (c : Cfg) (i : Instr), c.wf = true → i.wf c = true → decode c (encode c i) = .ok i

/-- The other direction: what the decoders read at the head of a message or of a byte stream is well-formed and encodes back
to exactly the bytes they used, so no byte of a sub-record or of a frame is ignored. -/
def Obligations.DecodedBytesEncodeBack : Prop :=
  ∀ (c : Cfg) (m rest : List Byte) (i : Instr),
    (decodeSub c m = .ok (i, rest) → i.wf c = true ∧ ∃ bs, encode c i = .message bs ∧ bs ++ rest = m) ∧
    (decodeFrame m = .ok (i, rest) → i.wf c = true ∧ ∃ bs, encode c i = .wire bs ∧ bs ++ rest = m)

/-- R135: recognition at the head of a message, with the table as a relation between rows and ids. -/
def Obligations.RecognitionNeedsIdLengthAndRoom : Prop :=
  ∀ (c : Cfg) (id sl : Byte) (data : List Byte), c.wf = true →
    (∀ k, c.idOf k = some id → sl.toNat = k.expLen c → k.expLen c ≤ data.length →
      decodeSub c (id :: sl :: data) = .ok (k.build c (data.take (k.expLen c)), data.drop (k.expLen c))) ∧
    ((∀ k, ¬(c.idOf k = some id ∧ sl.toNat = k.expLen c ∧ k.expLen c ≤ data.length)) →
      decodeSub c (id :: sl :: data) = .ok (.noise id, sl :: data)) ∧
    decodeSub c [id] = .ok (.noise id, [])

/-- R136, R67: the little-endian sum, its two's complement reading, and the words of 16, 32 and 64 bits that hold them. -/
def Obligations.LittleEndianWordsHoldTheirIntegers : Prop :=
  (∀ bs : List Byte, leu bs = ∑ j ∈ Finset.range bs.length, (bs.getD j 0).toNat * 2 ^ (8 * j)) ∧
  (∀ bs : List Byte, 1 ≤ bs.length →
    les bs = if leu bs < 2 ^ (8 * bs.length - 1) then (leu bs : Int) else (leu bs : Int) - 2 ^ (8 * bs.length)) ∧
  (∀ bs : List Byte, bs.length = 2 → (leWord 16 0 bs).toNat = leu bs ∧ (leWord 16 0 bs).toInt = les bs) ∧
  (∀ bs : List Byte, bs.length = 4 → (leWord 32 0 bs).toNat = leu bs ∧ (leWord 32 0 bs).toInt = les bs) ∧
  (∀ bs : List Byte, bs.length = 8 → (leWord 64 0 bs).toNat = leu bs ∧ (leWord 64 0 bs).toInt = les bs)

/-! ## The step -/

/-- A step runs the decoded instruction. Between operations it takes the next operation from the port and runs it; with an
empty port nothing happens. Inside a dispatch it runs what the message decodes to at the cursor, and at the end of the
message it completes the frame. In every case the outputs of the step before are gone. MODEL'S CHOICE: the port and the outputs in the state, log 1, log 2; dispatch, log 4. -/
def Obligations.StepRunsTheDecodedInstruction : Prop :=
  (∀ (s : State) (op : HostOp) (rest : List HostOp), s.act ≠ .walking → s.port = op :: rest →
    step s = exec op.instr { s with port := rest, out := [] }) ∧
  (∀ s : State, s.act ≠ .walking → s.port = [] → step s = .next { s with out := [] }) ∧
  (∀ (s : State) (i : Instr) (rest : List Byte), s.act = .walking → s.cur.toNat < s.len.toNat →
    decodeSub s.cfg s.messageFrom = .ok (i, rest) → step s = exec i { s with out := [] }) ∧
  (∀ s : State, s.act = .walking → s.len.toNat ≤ s.cur.toNat →
    ∃ t, step s = .next t ∧
      t = { s with act := .idle, cur := 0, cntDone := satInc s.cfg s.cntDone, st := .header1, last := .done
                   out := [.complete s.tid s.record s.present, .status .done] })

/-- R100: `FEED` runs the byte operation that the state code selects. -/
def Obligations.FeedRunsTheByteOperationOfTheState : Prop :=
  ∀ (b : Byte) (s : State), exec (.feed b) s = exec (decodeFsm s.st.code b) s

/-- R100: from every good state, for every byte, `FEED` has an outcome: a good state. -/
def Obligations.FeedAlwaysCompletes : Prop :=
  ∀ (b : Byte) (s : State), Inv s → ∃ t, exec (.feed b) s = .next t ∧ Inv t ∧
    t.cfg = s.cfg ∧ t.port = s.port ∧ t.epoch = s.epoch

/-- Every host operation is refused inside a dispatch, and every one but `RESET` before the first reset. The spec refuses
overlapping byte-feed steps (R54) and a run that does not begin with `RESET` (R252). MODEL'S CHOICE: that `RESET`, `SCAN`, a frame
and the reads are refused inside a dispatch too is inferred (DEDUCED, log 11), where R208 only assumes a reset away; and that
a dispatch in progress is a state of its own is log 4. -/
def Obligations.OverlapAndUseBeforeResetAreRefused : Prop :=
  ∀ (s : State) (op : HostOp),
    (s.act = .walking → exec op.instr s = .refused .overlap) ∧
    (s.act = .preReset → (∀ c, op ≠ .reset c) → exec op.instr s = .refused .beforeReset)

/-! ## The byte operations -/

/-- R101. -/
def Obligations.H1AcceptsOnlyTheFirstMagicByte : Prop :=
  ∀ (b : Byte) (s : State), s.act = .idle → 0 < s.cfg.cap →
    (b = 0x59 → ∃ t, exec (.h1 b) s = .next t ∧
      t = { s with st := .header2, wp := 1, tid := 0, len := 0, rem := 0, c0 := 0, c1 := 0, buf := t.buf
                   last := .running, out := s.out ++ [.status .running] } ∧
      StoredAt 0 0x59 s.buf t.buf) ∧
    (b ≠ 0x59 → ∃ t, exec (.h1 b) s = .next t ∧
      t = { s with last := .running, out := s.out ++ [.status .running] } ∧ SameBytes s.buf t.buf)

/-- R102. The mismatching byte is not looked at again: the stream `59 59 53` starts no frame. -/
def Obligations.H2AcceptsTheSecondMagicByteOrResynchronises : Prop :=
  (∀ (b : Byte) (s : State), s.act = .idle → s.wp < s.cfg.cap →
    (b = 0x53 → ∃ t, exec (.h2 b) s = .next t ∧
      t = { s with st := .tidLow, wp := s.wp + 1, buf := t.buf, last := .running
                   out := s.out ++ [.status .running] } ∧
      StoredAt s.wp 0x53 s.buf t.buf) ∧
    (b ≠ 0x53 → ∃ t, exec (.h2 b) s = .next t ∧
      t = { s with st := .header1, last := .running, out := s.out ++ [.status .running] } ∧ SameBytes s.buf t.buf)) ∧
  (∀ s : State, s.act = .idle → s.st = .header1 → 0 < s.cfg.cap →
    ∃ t, execAll [.feed 0x59, .feed 0x59, .feed 0x53] s = .next t ∧ t.st = .header1 ∧
      t.out = s.out ++ [.status .running, .status .running, .status .running])

/-- R103, R104: the two halves of the transaction id, each byte stored and summed. -/
def Obligations.TidBytesAreStoredSummedAndKept : Prop :=
  ∀ (b : Byte) (s : State), s.act = .idle → s.wp < s.cfg.cap →
    (∃ t, exec (.tidl b) s = .next t ∧
      t = { s with st := .tidHigh, wp := s.wp + 1, buf := t.buf, tid := t.tid, c0 := t.c0, c1 := t.c1
                   last := .running, out := s.out ++ [.status .running] } ∧
      t.tid.toNat = s.tid.toNat / 256 * 256 + b.toNat ∧
      t.c0.toNat = (s.c0.toNat + b.toNat) % 256 ∧ t.c1.toNat = (s.c1.toNat + t.c0.toNat) % 256 ∧
      StoredAt s.wp b s.buf t.buf) ∧
    (∃ t, exec (.tidh b) s = .next t ∧
      t = { s with st := .length, wp := s.wp + 1, buf := t.buf, tid := t.tid, c0 := t.c0, c1 := t.c1
                   last := .running, out := s.out ++ [.status .running] } ∧
      t.tid.toNat = b.toNat * 256 + s.tid.toNat % 256 ∧
      t.c0.toNat = (s.c0.toNat + b.toNat) % 256 ∧ t.c1.toNat = (s.c1.toNat + t.c0.toNat) % 256 ∧
      StoredAt s.wp b s.buf t.buf)

/-- R105. -/
def Obligations.LenAcceptsFourTo199AndRaisesLengthErrorElsewhere : Prop :=
  ∀ (b : Byte) (s : State), s.act = .idle → s.wp < s.cfg.cap →
    (4 ≤ b.toNat ∧ b.toNat < 200 → ∃ t, exec (.len b) s = .next t ∧
      t = { s with st := .message, wp := s.wp + 1, buf := t.buf, len := b, rem := b, c0 := t.c0, c1 := t.c1
                   last := .running, out := s.out ++ [.status .running] } ∧
      t.c0.toNat = (s.c0.toNat + b.toNat) % 256 ∧ t.c1.toNat = (s.c1.toNat + t.c0.toNat) % 256 ∧
      StoredAt s.wp b s.buf t.buf) ∧
    (¬(4 ≤ b.toNat ∧ b.toNat < 200) → ∃ t, exec (.len b) s = .next t ∧
      t = { s with st := .header1, last := .lengthError, out := s.out ++ [.status .lengthError] } ∧
      SameBytes s.buf t.buf)

/-- R106: the state is `Message`, where the operation belongs, and `REM` is at least 1, as on every entry (R14). -/
def Obligations.MsgStoresSumsAndCountsDown : Prop :=
  ∀ (b : Byte) (s : State), s.act = .idle → s.wp < s.cfg.cap → s.st = .message → 1 ≤ s.rem.toNat →
    ∃ t, exec (.msg b) s = .next t ∧
      t = { s with st := t.st, wp := s.wp + 1, buf := t.buf, rem := t.rem, c0 := t.c0, c1 := t.c1
                   last := .running, out := s.out ++ [.status .running] } ∧
      t.rem.toNat = s.rem.toNat - 1 ∧ t.st = (if s.rem.toNat = 1 then .crc1 else .message) ∧
      t.c0.toNat = (s.c0.toNat + b.toNat) % 256 ∧ t.c1.toNat = (s.c1.toNat + t.c0.toNat) % 256 ∧
      StoredAt s.wp b s.buf t.buf

/-- R107, R20: `sat_inc(x) = min(x + 1, 2^CNTW - 1)`. -/
def Obligations.Crc1ComparesWithC0 : Prop :=
  ∀ (b : Byte) (s : State), s.act = .idle → s.wp < s.cfg.cap →
    (b = s.c0 → ∃ t, exec (.crc1 b) s = .next t ∧
      t = { s with st := .crc2, wp := s.wp + 1, buf := t.buf, last := .running
                   out := s.out ++ [.status .running] } ∧
      StoredAt s.wp b s.buf t.buf) ∧
    (b ≠ s.c0 → ∃ t, exec (.crc1 b) s = .next t ∧
      t = { s with st := .header1, cntFail := min (s.cntFail + 1) (2 ^ s.cfg.cntw - 1), last := .checksumError
                   out := s.out ++ [.status .checksumError] } ∧
      SameBytes s.buf t.buf)

/-- R108: on a match the frame is dispatched, counted and reported, with one completion event; on a mismatch
`ChecksumError`. The record and the list are those of the message the state then holds. MODEL'S CHOICE: the cursor, which R29
gives no value between steps, is 0 after the match, log 4. -/
def Obligations.Crc2CompletesTheFrameOrRaisesChecksumError : Prop :=
  ∀ (b : Byte) (s : State), s.act = .idle →
    (b = s.c1 → s.wp < s.cfg.cap → 5 + s.len.toNat ≤ s.cfg.cap → ∃ t, exec (.crc2 b) s = .next t ∧
      t = { s with st := .header1, wp := s.wp + 1, buf := t.buf, cntDone := min (s.cntDone + 1) (2 ^ s.cfg.cntw - 1)
                   last := .done, record := t.record, present := t.present, pcount := t.pcount, cur := 0
                   out := s.out ++ [.complete s.tid t.record t.present, .status .done] } ∧
      t.decoding = decodingOf s.cfg t.message ∧ t.pcount.toNat = t.present.length ∧
      StoredAt s.wp b s.buf t.buf) ∧
    (b ≠ s.c1 → ∃ t, exec (.crc2 b) s = .next t ∧
      t = { s with st := .header1, cntFail := min (s.cntFail + 1) (2 ^ s.cfg.cntw - 1), last := .checksumError
                   out := s.out ++ [.status .checksumError] } ∧
      SameBytes s.buf t.buf)

/-- R109: nothing else changes, whatever the byte and whichever the invalid code. -/
def Obligations.BadstRaisesInternalErrorAndChangesNothingElse : Prop :=
  ∀ (low : BitVec 3) (b : Byte) (s : State), s.act = .idle →
    ∃ t, exec (.badst low b) s = .next t ∧
      t = { s with st := .header1, last := .internalError, out := s.out ++ [.status .internalError] } ∧
      SameBytes s.buf t.buf

/-! ## The checksum -/

/-- R91, R93. -/
def Obligations.UpdAndClrChangeTheAccumulatorOnly : Prop :=
  (∀ (b : Byte) (s : State), ∃ t, exec (.upd b) s = .next t ∧ t = { s with c0 := t.c0, c1 := t.c1 } ∧
    t.c0.toNat = (s.c0.toNat + b.toNat) % 256 ∧ t.c1.toNat = (s.c1.toNat + t.c0.toNat) % 256 ∧
    SameBytes s.buf t.buf) ∧
  (∀ s : State, ∃ t, exec .clr s = .next t ∧ t = { s with c0 := 0, c1 := 0 } ∧ SameBytes s.buf t.buf)

/-- R92: `CKS` is the accumulator after `CLR` and `UPD` of each byte, and its closed form. -/
def Obligations.ChecksumClosedForm : Prop :=
  ∀ bs : List Byte,
    (∀ s : State, ∃ t, execAll (.clr :: bs.map Instr.upd) s = .next t ∧ (t.c0, t.c1) = cks bs) ∧
    (cks bs).1.toNat = (∑ i ∈ Finset.range bs.length, (bs.getD i 0).toNat) % 256 ∧
    (cks bs).2.toNat = (∑ i ∈ Finset.range bs.length, (bs.length - i) * (bs.getD i 0).toNat) % 256 ∧
    cks [] = (0, 0)

/-- R96: a change confined to one contributing byte changes the first checksum byte. -/
def Obligations.OneChangedByteChangesTheFirstSum : Prop :=
  ∀ (before after : List Byte) (x y : Byte), x ≠ y →
    (cks (before ++ x :: after)).1 ≠ (cks (before ++ y :: after)).1

/-- R96: a frame of which one message byte was changed and the checksum not recomputed is never completed: no event, no
`Done` counted, the record as before, one `ChecksumError` counted. -/
def Obligations.CorruptedMessageByteNeverCompletes : Prop :=
  ∀ (s : State) (tid : BitVec 16) (before after : List Byte) (x y : Byte), Inv s → s.st = .header1 → x ≠ y →
    4 ≤ (before ++ x :: after).length → (before ++ x :: after).length < 200 →
    ∃ t, exec (.frame tid (BitVec.ofNat 8 (before ++ x :: after).length)
        (before ++ y :: after ++ [(frameChecksum tid (before ++ x :: after)).1,
          (frameChecksum tid (before ++ x :: after)).2])) s = .next t ∧
      events t.out = events s.out ∧ Output.status .done ∉ t.out.drop s.out.length ∧ t.cntDone = s.cntDone ∧
      t.cntFail = satInc s.cfg s.cntFail ∧ t.record = s.record ∧ t.present = s.present

/-! ## The dispatcher -/

/-- R133: a noise byte moves the cursor by one and writes nothing. -/
def Obligations.NoiseOnlyMovesTheCursorByOne : Prop :=
  ∀ (b : Byte) (s : State), ∃ t, exec (.noise b) s = .next t ∧ t = { s with cur := s.cur + 1 } ∧ SameBytes s.buf t.buf

/-- Every sub-record row that is active runs, in every state and with every operand: TEMP, ACC, GYRO, FACC, DVEL, VEL, MAGN,
MAGR, EUL, QUAT, DQUAT, LOC, LOCH, TSS, TSD, and with `DUAL = true` TEMP2, ACC2, GYRO2. It writes the record, appends its
id, and moves the cursor past itself (R133, R137, R150); no framer register, counter or buffer byte changes. -/
def Obligations.EveryActiveSubRecordRuns : Prop :=
  ∀ (i : Instr) (k : Kind) (id : Byte) (s : State), rowOf i = some k → s.cfg.idOf k = some id →
    ∃ t, exec i s = .next t ∧
      t = { s with record := t.record, present := s.present ++ [id], pcount := s.pcount + 1
                   cur := s.cur + BitVec.ofNat 8 (2 + k.expLen s.cfg) } ∧
      SameBytes s.buf t.buf

/-- MODEL'S CHOICE, log 19: outside the configurations that have its row, a second-sensor operation is refused by name. -/
def Obligations.InactiveRowIsRefused : Prop :=
  ∀ (v : BitVec 16) (w : Lanes3) (s : State), s.cfg.dual = false →
    exec (.temp2 v) s = .refused (.inactiveRow .temp2) ∧ exec (.acc2 w) s = .refused (.inactiveRow .acc2) ∧
    exec (.gyro2 w) s = .refused (.inactiveRow .gyro2)

/-- R156 to R163: the three-lane rows of the first sensor, with their default ids. -/
def Obligations.ThreeLaneRowsWriteTheirField : Prop :=
  (Cfg.default.ids.gyro = 0x20 ∧ Cfg.default.ids.facc = 0x11 ∧ Cfg.default.ids.dvel = 0x12 ∧ Cfg.default.ids.vel = 0x70 ∧
    Cfg.default.ids.magn = 0x30 ∧ Cfg.default.ids.magr = 0x31 ∧ Cfg.default.ids.eul = 0x40) ∧
  (∀ (s : State) (d rest : List Byte), s.cfg.wf = true → d.length = 12 → ∃ v : Lanes3, SignedLanes3 v d ∧
    RowWrites s d rest 0x10 (.acc v) (fun r => { r with acc := v }) ∧
    RowWrites s d rest s.cfg.ids.gyro (.gyro v) (fun r => { r with gyro := v }) ∧
    RowWrites s d rest s.cfg.ids.facc (.facc v) (fun r => { r with facc := v }) ∧
    RowWrites s d rest s.cfg.ids.dvel (.dvel v) (fun r => { r with dvel := v }) ∧
    RowWrites s d rest s.cfg.ids.vel (.vel v) (fun r => { r with vel := v }) ∧
    RowWrites s d rest s.cfg.ids.magn (.magn v) (fun r => { r with magn := v }) ∧
    RowWrites s d rest s.cfg.ids.magr (.magr v) (fun r => { r with magr := v }) ∧
    RowWrites s d rest s.cfg.ids.eul (.eul v) (fun r => { r with euler := v }))

/-- R164, R165: the four-lane rows, with their default ids. -/
def Obligations.FourLaneRowsWriteTheirField : Prop :=
  (Cfg.default.ids.quat = 0x41 ∧ Cfg.default.ids.dquat = 0x42) ∧
  (∀ (s : State) (d rest : List Byte), s.cfg.wf = true → d.length = 16 → ∃ v : Lanes4, SignedLanes4 v d ∧
    RowWrites s d rest s.cfg.ids.quat (.quat v) (fun r => { r with quat := v }) ∧
    RowWrites s d rest s.cfg.ids.dquat (.dquat v) (fun r => { r with dquat := v }))

/-- R155, R168, R169: the temperature, signed, and the two timestamps, unsigned, with their default ids. -/
def Obligations.ScalarRowsWriteTheirField : Prop :=
  (Cfg.default.ids.temp = 0x01 ∧ Cfg.default.ids.tss = 0x51 ∧ Cfg.default.ids.tsd = 0x52) ∧
  (∀ (s : State) (d rest : List Byte), s.cfg.wf = true → d.length = 2 → ∃ v : BitVec 16, v.toInt = les d ∧
    RowWrites s d rest s.cfg.ids.temp (.temp v) (fun r => { r with temp := v })) ∧
  (∀ (s : State) (d rest : List Byte), s.cfg.wf = true → d.length = 4 → ∃ v : BitVec 32, v.toNat = leu d ∧
    RowWrites s d rest s.cfg.ids.tss (.tss v) (fun r => { r with tsSample := v }) ∧
    RowWrites s d rest s.cfg.ids.tsd (.tsd v) (fun r => { r with tsReady := v }))

/-- R166: the standard location, sign-extended to 64 bits, tag 1. -/
def Obligations.LocWritesSignExtendedLocation : Prop :=
  Cfg.default.ids.loc = 0x60 ∧
  (∀ (s : State) (d rest : List Byte), s.cfg.wf = true → d.length = 12 →
    ∃ (lat lon alt : BitVec 32) (lat' lon' alt' : BitVec 64),
      lat'.toInt = signed4 d 0 ∧ lon'.toInt = signed4 d 4 ∧ alt'.toInt = signed4 d 8 ∧
      RowWrites s d rest s.cfg.ids.loc (.loc lat lon alt)
        (fun r => { r with lat := lat', lon := lon', alt := alt', locPrec := .standard }))

/-- R167: the high-precision location under either width of the altitude, tag 2; under the other width's length byte it is
not recognised. -/
def Obligations.LochWritesHighPrecisionLocation : Prop :=
  Cfg.default.ids.loch = 0x68 ∧
  (∀ (s : State) (d rest : List Byte), s.cfg.wf = true → d.length = 16 + s.cfg.hpAlt.bytes →
    ∃ (lat lon alt' : BitVec 64) (alt : Altitude),
      lat.toInt = les (d.take 8) ∧ lon.toInt = les ((d.drop 8).take 8) ∧ alt'.toInt = les (d.drop 16) ∧
      RowWrites s d rest s.cfg.ids.loch (.loch lat lon alt)
        (fun r => { r with lat := lat, lon := lon, alt := alt', locPrec := .high })) ∧
  (∀ (c : Cfg) (sl : Byte) (data : List Byte), c.wf = true → sl.toNat ≠ 16 + c.hpAlt.bytes →
    decodeSub c (c.ids.loch :: sl :: data) = .ok (.noise c.ids.loch, sl :: data))

/-- R170 to R172: with `DUAL = true` the second-sensor rows write their own fields; with `DUAL = false` no message decodes
to one of them (R73). -/
def Obligations.SecondSensorRowsWriteTheirFieldInDualMode : Prop :=
  (∀ (s : State) (d rest : List Byte) (id : Byte), s.cfg.wf = true → s.cfg.dual = true → d.length = 2 →
    s.cfg.idTemp2 = some id → ∃ v : BitVec 16, v.toInt = les d ∧
      RowWrites s d rest id (.temp2 v) (fun r => { r with temp2 := v })) ∧
  (∀ (s : State) (d rest : List Byte) (ida idg : Byte), s.cfg.wf = true → s.cfg.dual = true → d.length = 12 →
    s.cfg.idAcc2 = some ida → s.cfg.idGyro2 = some idg → ∃ v : Lanes3, SignedLanes3 v d ∧
      RowWrites s d rest ida (.acc2 v) (fun r => { r with acc2 := v }) ∧
      RowWrites s d rest idg (.gyro2 v) (fun r => { r with gyro2 := v })) ∧
  (∀ (c : Cfg) (m rest : List Byte) (i : Instr), c.dual = false → decodeSub c m = .ok (i, rest) →
    rowOf i ≠ some .temp2 ∧ rowOf i ≠ some .acc2 ∧ rowOf i ≠ some .gyro2)

/-- R130, R131, R138: `DISPATCH` answers, emits one completion event with the registers it leaves, and touches nothing but
the record, the present list and its count. What it leaves there is a function of the message and the configuration: it is
the same whatever the record, the present list and every other buffer byte were before. MODEL'S CHOICE: the cursor, which R29
gives no value after a dispatch, is 0, log 4. -/
def Obligations.DispatchDecodesTheMessageAndTouchesOnlyTheRecord : Prop :=
  ∀ s : State, s.act = .idle → 5 + s.len.toNat ≤ s.cfg.cap → ∃ t, exec .dispatch s = .next t ∧
    t = { s with record := t.record, present := t.present, pcount := t.pcount, cur := 0
                 out := s.out ++ [.complete s.tid t.record t.present] } ∧
    t.decoding = decodingOf s.cfg s.message ∧ t.pcount.toNat = t.present.length ∧ SameBytes s.buf t.buf

/-- R132: the dispatch is the execution, in order, of the operations the decoder finds in the message: the walk neither
skips nor repeats nor invents one. MODEL'S CHOICE: the activity while it lasts and the cursor 0 at its end, log 4. -/
def Obligations.DispatchExecutesTheDecodedOperationsInOrder : Prop :=
  ∀ s : State, s.act = .idle → 5 + s.len.toNat ≤ s.cfg.cap →
    exec .dispatch s =
      andThen (execAll (subOps s.cfg s.message) (dispatchBegin s)) fun t => .next (dispatchEnd t)

/-- R133, R139: the walk ends with the cursor exactly at the end of the message, and the list holds at most one id for every
four message bytes. -/
def Obligations.WalkEndsAtTheEndOfTheMessage : Prop :=
  ∀ s : State, ∃ t, walk s.len.toNat (dispatchBegin s) = .next t ∧ t.cur = s.len ∧
    4 * t.present.length ≤ s.len.toNat ∧
    t = { s with act := .walking, record := t.record, present := t.present, pcount := t.pcount, cur := t.cur }

/-- R173: a message that holds just one sub-record of an active row decodes to that row's fields and to nothing else. -/
def Obligations.OneSubRecordMessageDecodesToItsRow : Prop :=
  ∀ (s : State) (i : Instr) (k : Kind) (id : Byte), s.act = .idle → s.cfg.wf = true → 5 + s.len.toNat ≤ s.cfg.cap →
    rowOf i = some k → i.wf s.cfg = true → s.cfg.idOf k = some id → encode s.cfg i = .message s.message →
    ∃ t u, exec .dispatch s = .next t ∧ exec i (dispatchBegin s) = .next u ∧ t.record = u.record ∧ t.present = [id]

/-- The atomic completing step is the walk run one sub-record a step: the machine placed at the start of the dispatch
reaches, in at most `LEN + 1` steps, exactly the state `CRC2` answers (R52, R130). MODEL'S CHOICE: the single steps, log 4. -/
def Obligations.AtomicDispatchIsTheStepwiseWalk : Prop :=
  ∀ (b : Byte) (s : State), s.act = .idle → s.out = [] → b = s.c1 → s.wp < s.cfg.cap →
    5 + s.len.toNat ≤ s.cfg.cap →
    ∃ n t, n ≤ s.len.toNat + 1 ∧ exec (.crc2 b) s = .next t ∧
      Host.Core.run Sys2Proof.core n (dispatchBegin (stored b s)) = .next t

/-- R151, R25: the physical values of every field are the raw integers, the timestamps' read unsigned and all others signed,
times the field's power of ten. The location's exponent follows the tag, whichever of its two rows asks; with `loc_prec = 0`
the raw values are 0 and so are the physical ones. -/
def Obligations.PhysicalValuesAreScaledRawIntegers : Prop :=
  ∀ r : SensorRecord,
    let value := fun (k : Nat) (x : Int) => (x : ℚ) * (1 / 10 ^ k)
    let three := fun (k : Nat) (v : Lanes3) => [value k v.l0.toInt, value k v.l1.toInt, value k v.l2.toInt]
    let four := fun (k : Nat) (v : Lanes4) =>
      [value k v.l0.toInt, value k v.l1.toInt, value k v.l2.toInt, value k v.l3.toInt]
    let place := fun (k : Nat) => [value k r.lat.toInt, value k r.lon.toInt, value 3 r.alt.toInt]
    fieldValues r .temp = [value 2 r.temp.toInt] ∧ fieldValues r .temp2 = [value 2 r.temp2.toInt] ∧
    fieldValues r .acc = three 6 r.acc ∧ fieldValues r .gyro = three 6 r.gyro ∧ fieldValues r .facc = three 6 r.facc ∧
    fieldValues r .dvel = three 6 r.dvel ∧ fieldValues r .vel = three 6 r.vel ∧ fieldValues r .magn = three 6 r.magn ∧
    fieldValues r .magr = three 3 r.magr ∧ fieldValues r .eul = three 6 r.euler ∧
    fieldValues r .acc2 = three 6 r.acc2 ∧ fieldValues r .gyro2 = three 6 r.gyro2 ∧
    fieldValues r .quat = four 6 r.quat ∧ fieldValues r .dquat = four 6 r.dquat ∧
    fieldValues r .tss = [(r.tsSample.toNat : ℚ)] ∧ fieldValues r .tsd = [(r.tsReady.toNat : ℚ)] ∧
    (r.locPrec = .standard → fieldValues r .loc = place 7 ∧ fieldValues r .loch = place 7) ∧
    (r.locPrec = .high → fieldValues r .loc = place 10 ∧ fieldValues r .loch = place 10) ∧
    (r.locPrec = .none → r.lat = 0 → r.lon = 0 → r.alt = 0 →
      fieldValues r .loc = [0, 0, 0] ∧ fieldValues r .loch = [0, 0, 0])

/-! ## The host's reads -/

/-- R203, R204: reading the trace registers and the record presents their values and changes nothing. -/
def Obligations.ReadsPresentRegistersAndChangeNothing : Prop :=
  ∀ s : State, s.act = .idle →
    (∃ t, exec .rdtrace s = .next t ∧ t = { s with out := s.out ++ [.trace s.cntDone s.cntFail s.last] } ∧
      SameBytes s.buf t.buf) ∧
    (∃ t, exec .rdrec s = .next t ∧
      t = { s with out := s.out ++ [.record s.record s.present s.pcount s.tid] } ∧ SameBytes s.buf t.buf)

/-! ## Frames -/

/-- A frame is its bytes fed one by one (log 3), and from a good state it always completes, well-formed or not. -/
def Obligations.FrameIsItsBytesFed : Prop :=
  ∀ (tid : BitVec 16) (n : Byte) (body : List Byte) (s : State), Inv s →
    ∃ t, exec (.frame tid n body) s = .next t ∧ execAll ((frameBytes tid n body).map .feed) s = .next t ∧ Inv t

/-- R114: a frame with a correct checksum and a legal length, fed from `Header1`, gives `Running` for all but the last byte
and one `Done` at the last, with one completion event that carries the id and the decoding of the message. -/
def Obligations.ValidFrameCompletes : Prop :=
  ∀ (s : State) (tid : BitVec 16) (msg : List Byte), Inv s → s.st = .header1 → 4 ≤ msg.length → msg.length < 200 →
    ∃ t, exec (validFrame tid msg) s = .next t ∧
      t.out = s.out ++ (List.replicate (6 + msg.length) (.status .running) ++
        [.complete tid t.record t.present, .status .done]) ∧
      t.decoding = decodingOf s.cfg msg ∧ t.tid = tid ∧ t.st = .header1 ∧
      t.cntDone = satInc s.cfg s.cntDone ∧ t.cntFail = s.cntFail

/-- R41, R42: after a valid frame the buffer holds its bytes at their wire offsets, and every other byte is as before. -/
def Obligations.FrameStandsAtItsWireOffsets : Prop :=
  ∀ (s : State) (tid : BitVec 16) (msg : List Byte), Inv s → s.st = .header1 → 4 ≤ msg.length → msg.length < 200 →
    ∃ t, exec (validFrame tid msg) s = .next t ∧ t.wp = 7 + msg.length ∧
      (∀ a, a < 7 + msg.length → Memory.read t.buf a = (validFrameBytes tid msg)[a]?) ∧
      (∀ a, 7 + msg.length ≤ a → Memory.read t.buf a = Memory.read s.buf a)

/-! ## Rules about every byte-feed step -/

/-- R42: a byte-feed step changes the buffer at `WP` only, which a header match has set to 0. -/
def Obligations.FeedWritesTheBufferAtTheWritePointerOnly : Prop :=
  ∀ (b : Byte) (s t : State), exec (.feed b) s = .next t →
    ∀ a, Memory.read t.buf a ≠ Memory.read s.buf a →
      a = (if s.st = .header1 then 0 else s.wp) ∧ t.wp = a + 1 ∧ Memory.read t.buf a = some b

/-- R19, R20, R220: the counters move on `Done` and on `ChecksumError`, and on nothing else. -/
def Obligations.FeedCountsDoneAndChecksumErrorsOnly : Prop :=
  ∀ (b : Byte) (s t : State), exec (.feed b) s = .next t →
    t.cntDone = (if t.last = .done then min (s.cntDone + 1) (2 ^ s.cfg.cntw - 1) else s.cntDone) ∧
    t.cntFail = (if t.last = .checksumError then min (s.cntFail + 1) (2 ^ s.cfg.cntw - 1) else s.cntFail)

/-- R31, R21, R229: a byte-feed step that returns `Done` emits one event, with the registers as they are at its end;
another emits none and leaves the record and the present list alone. The returned status is in `LAST`. -/
def Obligations.FeedEmitsOneEventExactlyOnDone : Prop :=
  ∀ (b : Byte) (s t : State), exec (.feed b) s = .next t →
    (t.last = .done → t.out = s.out ++ [.complete s.tid t.record t.present, .status .done]) ∧
    (t.last ≠ .done → t.out = s.out ++ [.status t.last] ∧ t.record = s.record ∧ t.present = s.present ∧
      t.pcount = s.pcount)

/-- R225, R108: after an error status and after `Done` the framer is in `Header1`, and an error changes nothing but `ST`,
`LAST` and, for `ChecksumError`, `CNT_FAIL`. -/
def Obligations.ErrorsReturnToHeader1AndSaveNothing : Prop :=
  ∀ (b : Byte) (s t : State), exec (.feed b) s = .next t →
    (t.last = .done → t.st = .header1) ∧
    (t.last.isError = true →
      t = { s with st := .header1, last := t.last, out := s.out ++ [.status t.last]
                   cntFail := if t.last = .checksumError then min (s.cntFail + 1) (2 ^ s.cfg.cntw - 1) else s.cntFail })

/-- R111: every byte-feed step writes the status it returns to `LAST`; the framer's next state, its working registers and the
status depend on `ST`, the byte, `REM`, `C0` and `C1` alone. -/
def Obligations.FramerIgnoresEverythingButItsRegisters : Prop :=
  (∀ (b : Byte) (s t : State), exec (.feed b) s = .next t → t.out.getLast? = some (.status t.last)) ∧
  (∀ (b : Byte) (s t s' t' : State), s.st = s'.st → s.rem = s'.rem → s.c0 = s'.c0 → s.c1 = s'.c1 →
    exec (.feed b) s = .next t → exec (.feed b) s' = .next t' →
    t.st = t'.st ∧ t.rem = t'.rem ∧ t.c0 = t'.c0 ∧ t.c1 = t'.c1 ∧ t.last = t'.last)

/-- R117: from every good state, for every byte, there is a next state; and whatever bytes are fed, a framer that is not in
`Header1` is back there after at most 205 of them. -/
def Obligations.FramerIsBackInHeader1After205Bytes : Prop :=
  ∀ s : State, Inv s →
    (∀ b, ∃ t, exec (.feed b) s = .next t) ∧
    (∀ bs : List Byte, s.st ≠ .header1 → bs.length = 205 →
      ∃ n t, n ≤ 205 ∧ execAll ((bs.take n).map .feed) s = .next t ∧ t.st = .header1)

/-! ## The scanner -/

/-- R183: the least candidate at or after a position. -/
def Obligations.NextCandidateIsTheLeastPlausibleHeader : Prop :=
  ∀ (c : Cfg) (src : List Byte) (pos : Nat),
    let plausible := fun p : Nat => p + 4 < src.length ∧ src[p]? = some 0x59 ∧ src[p + 1]? = some 0x53 ∧
      ∃ l, src[p + 4]? = some l ∧ 4 ≤ l.toNat ∧ l.toNat < 200
    (∀ p, nextCandidate c src pos = some p ↔ pos ≤ p ∧ plausible p ∧ ∀ q, pos ≤ q → q < p → ¬plausible q) ∧
    (nextCandidate c src pos = none ↔ ∀ p, pos ≤ p → ¬plausible p)

/-- R180, R9: from every good state `SCAN` of every buffer completes in a good state; its outputs are completion events
only, and the trace counters do not go down. -/
def Obligations.ScanAlwaysCompletes : Prop :=
  ∀ (src : List Byte) (s : State), Inv s → ∃ t, exec (.scan src) s = .next t ∧ Inv t ∧
    t.cfg = s.cfg ∧ t.port = s.port ∧ t.epoch = s.epoch ∧ s.cntDone ≤ t.cntDone ∧ s.cntFail ≤ t.cntFail ∧
    ∃ evs : List (BitVec 16 × SensorRecord × List Byte), t.out = s.out ++ evs.map (fun e => .complete e.1 e.2.1 e.2.2)

/-- R184, R186: the trial of a candidate feeds the bytes from the candidate on, one by one, up to the first `Done`, to the
first error, or to the end of the buffer: every byte before the last one fed returned `Running`. From `Header1` at a candidate
the only error is `ChecksumError`. -/
def Obligations.CandidateTrialFeedsUntilDoneErrorOrEnd : Prop :=
  ∀ (src : List Byte) (cand : Nat) (s : State) (r : Trial), s.st = .header1 → candidate s.cfg src cand = true →
    scanTry src src.length cand s = .next r →
    feedSilent ((src.drop cand).take (r.q - cand)) s = .next r.state ∧ cand < r.q ∧ r.q ≤ src.length ∧
    (∀ n, cand < n → n < r.q →
      ∃ v, feedSilent ((src.drop cand).take (n - cand)) s = .next v ∧ v.last = .running) ∧
    (r.verdict = .completed → r.state.last = .done ∧ r.state.st = .header1) ∧
    (r.verdict = .failed → r.state.last = .checksumError ∧ r.state.st = .header1) ∧
    (r.verdict = .unfinished → r.q = src.length ∧ r.state.last = .running)

/-- R180, R185, R186, R187: from `Header1`, a buffer with no candidate is not fed at all. With one, `SCAN` tries the least;
after `Done` the rest is `SCAN` of the buffer behind the frame, after an error `SCAN` of the buffer from two bytes past the
candidate, and where the buffer ends first the state is kept. -/
def Obligations.ScanGoesOnBehindTheFrameOrTwoPastTheCandidate : Prop :=
  ∀ (src : List Byte) (s : State), Inv s → s.st = .header1 →
    (nextCandidate s.cfg src 0 = none → exec (.scan src) s = .next s) ∧
    (∀ (cand : Nat) (r : Trial), nextCandidate s.cfg src 0 = some cand → scanTry src src.length cand s = .next r →
      (r.verdict = .completed → exec (.scan src) s = exec (.scan (src.drop r.q)) r.state) ∧
      (r.verdict = .failed → exec (.scan src) s = exec (.scan (src.drop (cand + 2))) r.state) ∧
      (r.verdict = .unfinished → exec (.scan src) s = .next r.state))

/-- R182: a frame in progress is continued without searching. Let `pre` be the bytes of the buffer that leave the framer
outside `Header1`, and `b` the next one: a buffer that ends with `pre` keeps the state; if `b` ends the frame with an error
the whole buffer is scanned from index 0, and if it ends it without one the bytes behind it are. -/
def Obligations.ScanContinuesAFrameInProgress : Prop :=
  ∀ (pre src : List Byte) (b : Byte) (s u t : State), Inv s →
    (∀ n v, n ≤ pre.length → feedSilent (pre.take n) s = .next v → v.st ≠ .header1) →
    feedSilent pre s = .next u → byteStep b u = .next t →
    exec (.scan pre) s = .next u ∧
    (t.last.isError = true → exec (.scan (pre ++ b :: src)) s = exec (.scan (pre ++ b :: src)) t) ∧
    (t.st = .header1 → t.last.isError = false → exec (.scan (pre ++ b :: src)) s = exec (.scan src) t)

/-- R114, R180, R185: scanning a buffer that is one valid frame completes it, once, as feeding it does. -/
def Obligations.ScanningAValidFrameCompletesIt : Prop :=
  ∀ (s : State) (tid : BitVec 16) (msg : List Byte), Inv s → s.st = .header1 → 4 ≤ msg.length → msg.length < 200 →
    ∃ t, exec (.scan (validFrameBytes tid msg)) s = .next t ∧
      t.out = s.out ++ [.complete tid t.record t.present] ∧ t.decoding = decodingOf s.cfg msg ∧ t.st = .header1 ∧
      t.cntDone = satInc s.cfg s.cntDone ∧ t.cntFail = s.cntFail

/-! ## Invariants -/

/-- The reset state is good. MODEL'S CHOICE where it speaks of the model's own fields: log 4, log 6. -/
def Obligations.ResetStateMeetsTheInvariant : Prop := Inv State.reset

/-- R34, R41, R20, R26 to R28: every step keeps the invariant. -/
def Obligations.EveryStepKeepsTheInvariant : Prop :=
  ∀ s t : State, Inv s → step s = .next t → Inv t

/-- R117, R226: from a good state nothing halts the block: every step answers, but for a reset whose configuration is
refused. -/
def Obligations.NoStepFromAGoodStateHalts : Prop :=
  ∀ s : State, Inv s →
    (∃ t, step s = .next t) ∨ ∃ c rest, s.port = .reset c :: rest ∧ c.wf = false ∧ step s = .refused .badConfig

/-- R4, R24, R229, R19: but for a reset, the record and the present list change only in a step that emits a completion
event, and the trace counters never go down. -/
def Obligations.RecordChangesOnlyWithAnEventAndCountersNeverGoDown : Prop :=
  ∀ s t : State, Inv s → step s = .next t → (∀ c rest, s.port ≠ .reset c :: rest) →
    (events t.out = 0 →
      t.record = s.record ∧ t.present = s.present ∧ t.pcount = s.pcount ∧ t.cntDone = s.cntDone) ∧
    s.cntDone ≤ t.cntDone ∧ s.cntFail ≤ t.cntFail
end

