-- ==== Sys2Proof/Laws/State.lean ====
section
/-! SUPPORT. What each named update of the state does to each register: one lemma per field per update, true by rfl. -/

namespace Sys2Proof.Machine

@[simp] theorem stored_cfg (b : Byte) (s : State) : (stored b s).cfg = s.cfg := rfl
@[simp] theorem stored_act (b : Byte) (s : State) : (stored b s).act = s.act := rfl
@[simp] theorem stored_st (b : Byte) (s : State) : (stored b s).st = s.st := rfl
@[simp] theorem stored_tid (b : Byte) (s : State) : (stored b s).tid = s.tid := rfl
@[simp] theorem stored_len (b : Byte) (s : State) : (stored b s).len = s.len := rfl
@[simp] theorem stored_rem (b : Byte) (s : State) : (stored b s).rem = s.rem := rfl
@[simp] theorem stored_c0 (b : Byte) (s : State) : (stored b s).c0 = s.c0 := rfl
@[simp] theorem stored_c1 (b : Byte) (s : State) : (stored b s).c1 = s.c1 := rfl
@[simp] theorem stored_wp (b : Byte) (s : State) : (stored b s).wp = s.wp + 1 := rfl
@[simp] theorem stored_buf (b : Byte) (s : State) : (stored b s).buf = Memory.write s.buf s.wp b := rfl
@[simp] theorem stored_cntDone (b : Byte) (s : State) : (stored b s).cntDone = s.cntDone := rfl
@[simp] theorem stored_cntFail (b : Byte) (s : State) : (stored b s).cntFail = s.cntFail := rfl
@[simp] theorem stored_last (b : Byte) (s : State) : (stored b s).last = s.last := rfl
@[simp] theorem stored_record (b : Byte) (s : State) : (stored b s).record = s.record := rfl
@[simp] theorem stored_present (b : Byte) (s : State) : (stored b s).present = s.present := rfl
@[simp] theorem stored_pcount (b : Byte) (s : State) : (stored b s).pcount = s.pcount := rfl
@[simp] theorem stored_cur (b : Byte) (s : State) : (stored b s).cur = s.cur := rfl
@[simp] theorem stored_epoch (b : Byte) (s : State) : (stored b s).epoch = s.epoch := rfl
@[simp] theorem stored_port (b : Byte) (s : State) : (stored b s).port = s.port := rfl
@[simp] theorem stored_out (b : Byte) (s : State) : (stored b s).out = s.out := rfl

@[simp] theorem clearFrame_cfg (s : State) : (clearFrame s).cfg = s.cfg := rfl
@[simp] theorem clearFrame_act (s : State) : (clearFrame s).act = s.act := rfl
@[simp] theorem clearFrame_st (s : State) : (clearFrame s).st = s.st := rfl
@[simp] theorem clearFrame_tid (s : State) : (clearFrame s).tid = 0 := rfl
@[simp] theorem clearFrame_len (s : State) : (clearFrame s).len = 0 := rfl
@[simp] theorem clearFrame_rem (s : State) : (clearFrame s).rem = 0 := rfl
@[simp] theorem clearFrame_c0 (s : State) : (clearFrame s).c0 = 0 := rfl
@[simp] theorem clearFrame_c1 (s : State) : (clearFrame s).c1 = 0 := rfl
@[simp] theorem clearFrame_wp (s : State) : (clearFrame s).wp = 0 := rfl
@[simp] theorem clearFrame_buf (s : State) : (clearFrame s).buf = s.buf := rfl
@[simp] theorem clearFrame_cntDone (s : State) : (clearFrame s).cntDone = s.cntDone := rfl
@[simp] theorem clearFrame_cntFail (s : State) : (clearFrame s).cntFail = s.cntFail := rfl
@[simp] theorem clearFrame_last (s : State) : (clearFrame s).last = s.last := rfl
@[simp] theorem clearFrame_record (s : State) : (clearFrame s).record = s.record := rfl
@[simp] theorem clearFrame_present (s : State) : (clearFrame s).present = s.present := rfl
@[simp] theorem clearFrame_pcount (s : State) : (clearFrame s).pcount = s.pcount := rfl
@[simp] theorem clearFrame_cur (s : State) : (clearFrame s).cur = s.cur := rfl
@[simp] theorem clearFrame_epoch (s : State) : (clearFrame s).epoch = s.epoch := rfl
@[simp] theorem clearFrame_port (s : State) : (clearFrame s).port = s.port := rfl
@[simp] theorem clearFrame_out (s : State) : (clearFrame s).out = s.out := rfl

@[simp] theorem goto_cfg (f : FState) (s : State) : (goto f s).cfg = s.cfg := rfl
@[simp] theorem goto_act (f : FState) (s : State) : (goto f s).act = s.act := rfl
@[simp] theorem goto_st (f : FState) (s : State) : (goto f s).st = f := rfl
@[simp] theorem goto_tid (f : FState) (s : State) : (goto f s).tid = s.tid := rfl
@[simp] theorem goto_len (f : FState) (s : State) : (goto f s).len = s.len := rfl
@[simp] theorem goto_rem (f : FState) (s : State) : (goto f s).rem = s.rem := rfl
@[simp] theorem goto_c0 (f : FState) (s : State) : (goto f s).c0 = s.c0 := rfl
@[simp] theorem goto_c1 (f : FState) (s : State) : (goto f s).c1 = s.c1 := rfl
@[simp] theorem goto_wp (f : FState) (s : State) : (goto f s).wp = s.wp := rfl
@[simp] theorem goto_buf (f : FState) (s : State) : (goto f s).buf = s.buf := rfl
@[simp] theorem goto_cntDone (f : FState) (s : State) : (goto f s).cntDone = s.cntDone := rfl
@[simp] theorem goto_cntFail (f : FState) (s : State) : (goto f s).cntFail = s.cntFail := rfl
@[simp] theorem goto_last (f : FState) (s : State) : (goto f s).last = s.last := rfl
@[simp] theorem goto_record (f : FState) (s : State) : (goto f s).record = s.record := rfl
@[simp] theorem goto_present (f : FState) (s : State) : (goto f s).present = s.present := rfl
@[simp] theorem goto_pcount (f : FState) (s : State) : (goto f s).pcount = s.pcount := rfl
@[simp] theorem goto_cur (f : FState) (s : State) : (goto f s).cur = s.cur := rfl
@[simp] theorem goto_epoch (f : FState) (s : State) : (goto f s).epoch = s.epoch := rfl
@[simp] theorem goto_port (f : FState) (s : State) : (goto f s).port = s.port := rfl
@[simp] theorem goto_out (f : FState) (s : State) : (goto f s).out = s.out := rfl

@[simp] theorem retire_cfg (x : Status) (s : State) : (retire x s).cfg = s.cfg := rfl
@[simp] theorem retire_act (x : Status) (s : State) : (retire x s).act = s.act := rfl
@[simp] theorem retire_st (x : Status) (s : State) : (retire x s).st = s.st := rfl
@[simp] theorem retire_tid (x : Status) (s : State) : (retire x s).tid = s.tid := rfl
@[simp] theorem retire_len (x : Status) (s : State) : (retire x s).len = s.len := rfl
@[simp] theorem retire_rem (x : Status) (s : State) : (retire x s).rem = s.rem := rfl
@[simp] theorem retire_c0 (x : Status) (s : State) : (retire x s).c0 = s.c0 := rfl
@[simp] theorem retire_c1 (x : Status) (s : State) : (retire x s).c1 = s.c1 := rfl
@[simp] theorem retire_wp (x : Status) (s : State) : (retire x s).wp = s.wp := rfl
@[simp] theorem retire_buf (x : Status) (s : State) : (retire x s).buf = s.buf := rfl
@[simp] theorem retire_cntDone (x : Status) (s : State) : (retire x s).cntDone = s.cntDone := rfl
@[simp] theorem retire_cntFail (x : Status) (s : State) : (retire x s).cntFail = s.cntFail := rfl
@[simp] theorem retire_last (x : Status) (s : State) : (retire x s).last = x := rfl
@[simp] theorem retire_record (x : Status) (s : State) : (retire x s).record = s.record := rfl
@[simp] theorem retire_present (x : Status) (s : State) : (retire x s).present = s.present := rfl
@[simp] theorem retire_pcount (x : Status) (s : State) : (retire x s).pcount = s.pcount := rfl
@[simp] theorem retire_cur (x : Status) (s : State) : (retire x s).cur = s.cur := rfl
@[simp] theorem retire_epoch (x : Status) (s : State) : (retire x s).epoch = s.epoch := rfl
@[simp] theorem retire_port (x : Status) (s : State) : (retire x s).port = s.port := rfl
@[simp] theorem retire_out (x : Status) (s : State) : (retire x s).out = s.out := rfl

@[simp] theorem raise_cfg (x : Status) (s : State) : (raise x s).cfg = s.cfg := rfl
@[simp] theorem raise_act (x : Status) (s : State) : (raise x s).act = s.act := rfl
@[simp] theorem raise_st (x : Status) (s : State) : (raise x s).st = .header1 := rfl
@[simp] theorem raise_tid (x : Status) (s : State) : (raise x s).tid = s.tid := rfl
@[simp] theorem raise_len (x : Status) (s : State) : (raise x s).len = s.len := rfl
@[simp] theorem raise_rem (x : Status) (s : State) : (raise x s).rem = s.rem := rfl
@[simp] theorem raise_c0 (x : Status) (s : State) : (raise x s).c0 = s.c0 := rfl
@[simp] theorem raise_c1 (x : Status) (s : State) : (raise x s).c1 = s.c1 := rfl
@[simp] theorem raise_wp (x : Status) (s : State) : (raise x s).wp = s.wp := rfl
@[simp] theorem raise_buf (x : Status) (s : State) : (raise x s).buf = s.buf := rfl
@[simp] theorem raise_cntDone (x : Status) (s : State) : (raise x s).cntDone = s.cntDone := rfl
@[simp] theorem raise_cntFail (x : Status) (s : State) : (raise x s).cntFail = if x = .checksumError then satInc s.cfg s.cntFail else s.cntFail := rfl
@[simp] theorem raise_last (x : Status) (s : State) : (raise x s).last = x := rfl
@[simp] theorem raise_record (x : Status) (s : State) : (raise x s).record = s.record := rfl
@[simp] theorem raise_present (x : Status) (s : State) : (raise x s).present = s.present := rfl
@[simp] theorem raise_pcount (x : Status) (s : State) : (raise x s).pcount = s.pcount := rfl
@[simp] theorem raise_cur (x : Status) (s : State) : (raise x s).cur = s.cur := rfl
@[simp] theorem raise_epoch (x : Status) (s : State) : (raise x s).epoch = s.epoch := rfl
@[simp] theorem raise_port (x : Status) (s : State) : (raise x s).port = s.port := rfl
@[simp] theorem raise_out (x : Status) (s : State) : (raise x s).out = s.out := rfl

@[simp] theorem completeFrame_cfg (s : State) : (completeFrame s).cfg = s.cfg := rfl
@[simp] theorem completeFrame_act (s : State) : (completeFrame s).act = s.act := rfl
@[simp] theorem completeFrame_st (s : State) : (completeFrame s).st = .header1 := rfl
@[simp] theorem completeFrame_tid (s : State) : (completeFrame s).tid = s.tid := rfl
@[simp] theorem completeFrame_len (s : State) : (completeFrame s).len = s.len := rfl
@[simp] theorem completeFrame_rem (s : State) : (completeFrame s).rem = s.rem := rfl
@[simp] theorem completeFrame_c0 (s : State) : (completeFrame s).c0 = s.c0 := rfl
@[simp] theorem completeFrame_c1 (s : State) : (completeFrame s).c1 = s.c1 := rfl
@[simp] theorem completeFrame_wp (s : State) : (completeFrame s).wp = s.wp := rfl
@[simp] theorem completeFrame_buf (s : State) : (completeFrame s).buf = s.buf := rfl
@[simp] theorem completeFrame_cntDone (s : State) : (completeFrame s).cntDone = satInc s.cfg s.cntDone := rfl
@[simp] theorem completeFrame_cntFail (s : State) : (completeFrame s).cntFail = s.cntFail := rfl
@[simp] theorem completeFrame_last (s : State) : (completeFrame s).last = .done := rfl
@[simp] theorem completeFrame_record (s : State) : (completeFrame s).record = s.record := rfl
@[simp] theorem completeFrame_present (s : State) : (completeFrame s).present = s.present := rfl
@[simp] theorem completeFrame_pcount (s : State) : (completeFrame s).pcount = s.pcount := rfl
@[simp] theorem completeFrame_cur (s : State) : (completeFrame s).cur = s.cur := rfl
@[simp] theorem completeFrame_epoch (s : State) : (completeFrame s).epoch = s.epoch := rfl
@[simp] theorem completeFrame_port (s : State) : (completeFrame s).port = s.port := rfl
@[simp] theorem completeFrame_out (s : State) : (completeFrame s).out = s.out := rfl

@[simp] theorem emit_cfg (o : Output) (s : State) : (emit o s).cfg = s.cfg := rfl
@[simp] theorem emit_act (o : Output) (s : State) : (emit o s).act = s.act := rfl
@[simp] theorem emit_st (o : Output) (s : State) : (emit o s).st = s.st := rfl
@[simp] theorem emit_tid (o : Output) (s : State) : (emit o s).tid = s.tid := rfl
@[simp] theorem emit_len (o : Output) (s : State) : (emit o s).len = s.len := rfl
@[simp] theorem emit_rem (o : Output) (s : State) : (emit o s).rem = s.rem := rfl
@[simp] theorem emit_c0 (o : Output) (s : State) : (emit o s).c0 = s.c0 := rfl
@[simp] theorem emit_c1 (o : Output) (s : State) : (emit o s).c1 = s.c1 := rfl
@[simp] theorem emit_wp (o : Output) (s : State) : (emit o s).wp = s.wp := rfl
@[simp] theorem emit_buf (o : Output) (s : State) : (emit o s).buf = s.buf := rfl
@[simp] theorem emit_cntDone (o : Output) (s : State) : (emit o s).cntDone = s.cntDone := rfl
@[simp] theorem emit_cntFail (o : Output) (s : State) : (emit o s).cntFail = s.cntFail := rfl
@[simp] theorem emit_last (o : Output) (s : State) : (emit o s).last = s.last := rfl
@[simp] theorem emit_record (o : Output) (s : State) : (emit o s).record = s.record := rfl
@[simp] theorem emit_present (o : Output) (s : State) : (emit o s).present = s.present := rfl
@[simp] theorem emit_pcount (o : Output) (s : State) : (emit o s).pcount = s.pcount := rfl
@[simp] theorem emit_cur (o : Output) (s : State) : (emit o s).cur = s.cur := rfl
@[simp] theorem emit_epoch (o : Output) (s : State) : (emit o s).epoch = s.epoch := rfl
@[simp] theorem emit_port (o : Output) (s : State) : (emit o s).port = s.port := rfl
@[simp] theorem emit_out (o : Output) (s : State) : (emit o s).out = s.out ++ [o] := rfl

@[simp] theorem reportStatus_cfg (s : State) : (reportStatus s).cfg = s.cfg := rfl
@[simp] theorem reportStatus_act (s : State) : (reportStatus s).act = s.act := rfl
@[simp] theorem reportStatus_st (s : State) : (reportStatus s).st = s.st := rfl
@[simp] theorem reportStatus_tid (s : State) : (reportStatus s).tid = s.tid := rfl
@[simp] theorem reportStatus_len (s : State) : (reportStatus s).len = s.len := rfl
@[simp] theorem reportStatus_rem (s : State) : (reportStatus s).rem = s.rem := rfl
@[simp] theorem reportStatus_c0 (s : State) : (reportStatus s).c0 = s.c0 := rfl
@[simp] theorem reportStatus_c1 (s : State) : (reportStatus s).c1 = s.c1 := rfl
@[simp] theorem reportStatus_wp (s : State) : (reportStatus s).wp = s.wp := rfl
@[simp] theorem reportStatus_buf (s : State) : (reportStatus s).buf = s.buf := rfl
@[simp] theorem reportStatus_cntDone (s : State) : (reportStatus s).cntDone = s.cntDone := rfl
@[simp] theorem reportStatus_cntFail (s : State) : (reportStatus s).cntFail = s.cntFail := rfl
@[simp] theorem reportStatus_last (s : State) : (reportStatus s).last = s.last := rfl
@[simp] theorem reportStatus_record (s : State) : (reportStatus s).record = s.record := rfl
@[simp] theorem reportStatus_present (s : State) : (reportStatus s).present = s.present := rfl
@[simp] theorem reportStatus_pcount (s : State) : (reportStatus s).pcount = s.pcount := rfl
@[simp] theorem reportStatus_cur (s : State) : (reportStatus s).cur = s.cur := rfl
@[simp] theorem reportStatus_epoch (s : State) : (reportStatus s).epoch = s.epoch := rfl
@[simp] theorem reportStatus_port (s : State) : (reportStatus s).port = s.port := rfl
@[simp] theorem reportStatus_out (s : State) : (reportStatus s).out = s.out ++ [.status s.last] := rfl

@[simp] theorem advance_cfg (n : Nat) (s : State) : (advance n s).cfg = s.cfg := rfl
@[simp] theorem advance_act (n : Nat) (s : State) : (advance n s).act = s.act := rfl
@[simp] theorem advance_st (n : Nat) (s : State) : (advance n s).st = s.st := rfl
@[simp] theorem advance_tid (n : Nat) (s : State) : (advance n s).tid = s.tid := rfl
@[simp] theorem advance_len (n : Nat) (s : State) : (advance n s).len = s.len := rfl
@[simp] theorem advance_rem (n : Nat) (s : State) : (advance n s).rem = s.rem := rfl
@[simp] theorem advance_c0 (n : Nat) (s : State) : (advance n s).c0 = s.c0 := rfl
@[simp] theorem advance_c1 (n : Nat) (s : State) : (advance n s).c1 = s.c1 := rfl
@[simp] theorem advance_wp (n : Nat) (s : State) : (advance n s).wp = s.wp := rfl
@[simp] theorem advance_buf (n : Nat) (s : State) : (advance n s).buf = s.buf := rfl
@[simp] theorem advance_cntDone (n : Nat) (s : State) : (advance n s).cntDone = s.cntDone := rfl
@[simp] theorem advance_cntFail (n : Nat) (s : State) : (advance n s).cntFail = s.cntFail := rfl
@[simp] theorem advance_last (n : Nat) (s : State) : (advance n s).last = s.last := rfl
@[simp] theorem advance_record (n : Nat) (s : State) : (advance n s).record = s.record := rfl
@[simp] theorem advance_present (n : Nat) (s : State) : (advance n s).present = s.present := rfl
@[simp] theorem advance_pcount (n : Nat) (s : State) : (advance n s).pcount = s.pcount := rfl
@[simp] theorem advance_cur (n : Nat) (s : State) : (advance n s).cur = s.cur + BitVec.ofNat 8 n := rfl
@[simp] theorem advance_epoch (n : Nat) (s : State) : (advance n s).epoch = s.epoch := rfl
@[simp] theorem advance_port (n : Nat) (s : State) : (advance n s).port = s.port := rfl
@[simp] theorem advance_out (n : Nat) (s : State) : (advance n s).out = s.out := rfl

@[simp] theorem decoded_cfg (id : Byte) (n : Nat) (r : SensorRecord) (s : State) : (decoded id n r s).cfg = s.cfg := rfl
@[simp] theorem decoded_act (id : Byte) (n : Nat) (r : SensorRecord) (s : State) : (decoded id n r s).act = s.act := rfl
@[simp] theorem decoded_st (id : Byte) (n : Nat) (r : SensorRecord) (s : State) : (decoded id n r s).st = s.st := rfl
@[simp] theorem decoded_tid (id : Byte) (n : Nat) (r : SensorRecord) (s : State) : (decoded id n r s).tid = s.tid := rfl
@[simp] theorem decoded_len (id : Byte) (n : Nat) (r : SensorRecord) (s : State) : (decoded id n r s).len = s.len := rfl
@[simp] theorem decoded_rem (id : Byte) (n : Nat) (r : SensorRecord) (s : State) : (decoded id n r s).rem = s.rem := rfl
@[simp] theorem decoded_c0 (id : Byte) (n : Nat) (r : SensorRecord) (s : State) : (decoded id n r s).c0 = s.c0 := rfl
@[simp] theorem decoded_c1 (id : Byte) (n : Nat) (r : SensorRecord) (s : State) : (decoded id n r s).c1 = s.c1 := rfl
@[simp] theorem decoded_wp (id : Byte) (n : Nat) (r : SensorRecord) (s : State) : (decoded id n r s).wp = s.wp := rfl
@[simp] theorem decoded_buf (id : Byte) (n : Nat) (r : SensorRecord) (s : State) : (decoded id n r s).buf = s.buf := rfl
@[simp] theorem decoded_cntDone (id : Byte) (n : Nat) (r : SensorRecord) (s : State) : (decoded id n r s).cntDone = s.cntDone := rfl
@[simp] theorem decoded_cntFail (id : Byte) (n : Nat) (r : SensorRecord) (s : State) : (decoded id n r s).cntFail = s.cntFail := rfl
@[simp] theorem decoded_last (id : Byte) (n : Nat) (r : SensorRecord) (s : State) : (decoded id n r s).last = s.last := rfl
@[simp] theorem decoded_record (id : Byte) (n : Nat) (r : SensorRecord) (s : State) : (decoded id n r s).record = r := rfl
@[simp] theorem decoded_present (id : Byte) (n : Nat) (r : SensorRecord) (s : State) : (decoded id n r s).present = s.present ++ [id] := rfl
@[simp] theorem decoded_pcount (id : Byte) (n : Nat) (r : SensorRecord) (s : State) : (decoded id n r s).pcount = s.pcount + 1 := rfl
@[simp] theorem decoded_cur (id : Byte) (n : Nat) (r : SensorRecord) (s : State) : (decoded id n r s).cur = s.cur + BitVec.ofNat 8 (2 + n) := rfl
@[simp] theorem decoded_epoch (id : Byte) (n : Nat) (r : SensorRecord) (s : State) : (decoded id n r s).epoch = s.epoch := rfl
@[simp] theorem decoded_port (id : Byte) (n : Nat) (r : SensorRecord) (s : State) : (decoded id n r s).port = s.port := rfl
@[simp] theorem decoded_out (id : Byte) (n : Nat) (r : SensorRecord) (s : State) : (decoded id n r s).out = s.out := rfl

@[simp] theorem upd_cfg (b : Byte) (s : State) : (upd b s).cfg = s.cfg := rfl
@[simp] theorem upd_act (b : Byte) (s : State) : (upd b s).act = s.act := rfl
@[simp] theorem upd_st (b : Byte) (s : State) : (upd b s).st = s.st := rfl
@[simp] theorem upd_tid (b : Byte) (s : State) : (upd b s).tid = s.tid := rfl
@[simp] theorem upd_len (b : Byte) (s : State) : (upd b s).len = s.len := rfl
@[simp] theorem upd_rem (b : Byte) (s : State) : (upd b s).rem = s.rem := rfl
@[simp] theorem upd_c0 (b : Byte) (s : State) : (upd b s).c0 = s.c0 + b := rfl
@[simp] theorem upd_c1 (b : Byte) (s : State) : (upd b s).c1 = s.c1 + (s.c0 + b) := rfl
@[simp] theorem upd_wp (b : Byte) (s : State) : (upd b s).wp = s.wp := rfl
@[simp] theorem upd_buf (b : Byte) (s : State) : (upd b s).buf = s.buf := rfl
@[simp] theorem upd_cntDone (b : Byte) (s : State) : (upd b s).cntDone = s.cntDone := rfl
@[simp] theorem upd_cntFail (b : Byte) (s : State) : (upd b s).cntFail = s.cntFail := rfl
@[simp] theorem upd_last (b : Byte) (s : State) : (upd b s).last = s.last := rfl
@[simp] theorem upd_record (b : Byte) (s : State) : (upd b s).record = s.record := rfl
@[simp] theorem upd_present (b : Byte) (s : State) : (upd b s).present = s.present := rfl
@[simp] theorem upd_pcount (b : Byte) (s : State) : (upd b s).pcount = s.pcount := rfl
@[simp] theorem upd_cur (b : Byte) (s : State) : (upd b s).cur = s.cur := rfl
@[simp] theorem upd_epoch (b : Byte) (s : State) : (upd b s).epoch = s.epoch := rfl
@[simp] theorem upd_port (b : Byte) (s : State) : (upd b s).port = s.port := rfl
@[simp] theorem upd_out (b : Byte) (s : State) : (upd b s).out = s.out := rfl

@[simp] theorem clr_cfg (s : State) : (clr s).cfg = s.cfg := rfl
@[simp] theorem clr_act (s : State) : (clr s).act = s.act := rfl
@[simp] theorem clr_st (s : State) : (clr s).st = s.st := rfl
@[simp] theorem clr_tid (s : State) : (clr s).tid = s.tid := rfl
@[simp] theorem clr_len (s : State) : (clr s).len = s.len := rfl
@[simp] theorem clr_rem (s : State) : (clr s).rem = s.rem := rfl
@[simp] theorem clr_c0 (s : State) : (clr s).c0 = 0 := rfl
@[simp] theorem clr_c1 (s : State) : (clr s).c1 = 0 := rfl
@[simp] theorem clr_wp (s : State) : (clr s).wp = s.wp := rfl
@[simp] theorem clr_buf (s : State) : (clr s).buf = s.buf := rfl
@[simp] theorem clr_cntDone (s : State) : (clr s).cntDone = s.cntDone := rfl
@[simp] theorem clr_cntFail (s : State) : (clr s).cntFail = s.cntFail := rfl
@[simp] theorem clr_last (s : State) : (clr s).last = s.last := rfl
@[simp] theorem clr_record (s : State) : (clr s).record = s.record := rfl
@[simp] theorem clr_present (s : State) : (clr s).present = s.present := rfl
@[simp] theorem clr_pcount (s : State) : (clr s).pcount = s.pcount := rfl
@[simp] theorem clr_cur (s : State) : (clr s).cur = s.cur := rfl
@[simp] theorem clr_epoch (s : State) : (clr s).epoch = s.epoch := rfl
@[simp] theorem clr_port (s : State) : (clr s).port = s.port := rfl
@[simp] theorem clr_out (s : State) : (clr s).out = s.out := rfl

@[simp] theorem dispatchBegin_cfg (s : State) : (dispatchBegin s).cfg = s.cfg := rfl
@[simp] theorem dispatchBegin_act (s : State) : (dispatchBegin s).act = .walking := rfl
@[simp] theorem dispatchBegin_st (s : State) : (dispatchBegin s).st = s.st := rfl
@[simp] theorem dispatchBegin_tid (s : State) : (dispatchBegin s).tid = s.tid := rfl
@[simp] theorem dispatchBegin_len (s : State) : (dispatchBegin s).len = s.len := rfl
@[simp] theorem dispatchBegin_rem (s : State) : (dispatchBegin s).rem = s.rem := rfl
@[simp] theorem dispatchBegin_c0 (s : State) : (dispatchBegin s).c0 = s.c0 := rfl
@[simp] theorem dispatchBegin_c1 (s : State) : (dispatchBegin s).c1 = s.c1 := rfl
@[simp] theorem dispatchBegin_wp (s : State) : (dispatchBegin s).wp = s.wp := rfl
@[simp] theorem dispatchBegin_buf (s : State) : (dispatchBegin s).buf = s.buf := rfl
@[simp] theorem dispatchBegin_cntDone (s : State) : (dispatchBegin s).cntDone = s.cntDone := rfl
@[simp] theorem dispatchBegin_cntFail (s : State) : (dispatchBegin s).cntFail = s.cntFail := rfl
@[simp] theorem dispatchBegin_last (s : State) : (dispatchBegin s).last = s.last := rfl
@[simp] theorem dispatchBegin_record (s : State) : (dispatchBegin s).record = SensorRecord.zero := rfl
@[simp] theorem dispatchBegin_present (s : State) : (dispatchBegin s).present = [] := rfl
@[simp] theorem dispatchBegin_pcount (s : State) : (dispatchBegin s).pcount = 0 := rfl
@[simp] theorem dispatchBegin_cur (s : State) : (dispatchBegin s).cur = 0 := rfl
@[simp] theorem dispatchBegin_epoch (s : State) : (dispatchBegin s).epoch = s.epoch := rfl
@[simp] theorem dispatchBegin_port (s : State) : (dispatchBegin s).port = s.port := rfl
@[simp] theorem dispatchBegin_out (s : State) : (dispatchBegin s).out = s.out := rfl

@[simp] theorem dispatchEnd_cfg (s : State) : (dispatchEnd s).cfg = s.cfg := rfl
@[simp] theorem dispatchEnd_act (s : State) : (dispatchEnd s).act = .idle := rfl
@[simp] theorem dispatchEnd_st (s : State) : (dispatchEnd s).st = s.st := rfl
@[simp] theorem dispatchEnd_tid (s : State) : (dispatchEnd s).tid = s.tid := rfl
@[simp] theorem dispatchEnd_len (s : State) : (dispatchEnd s).len = s.len := rfl
@[simp] theorem dispatchEnd_rem (s : State) : (dispatchEnd s).rem = s.rem := rfl
@[simp] theorem dispatchEnd_c0 (s : State) : (dispatchEnd s).c0 = s.c0 := rfl
@[simp] theorem dispatchEnd_c1 (s : State) : (dispatchEnd s).c1 = s.c1 := rfl
@[simp] theorem dispatchEnd_wp (s : State) : (dispatchEnd s).wp = s.wp := rfl
@[simp] theorem dispatchEnd_buf (s : State) : (dispatchEnd s).buf = s.buf := rfl
@[simp] theorem dispatchEnd_cntDone (s : State) : (dispatchEnd s).cntDone = s.cntDone := rfl
@[simp] theorem dispatchEnd_cntFail (s : State) : (dispatchEnd s).cntFail = s.cntFail := rfl
@[simp] theorem dispatchEnd_last (s : State) : (dispatchEnd s).last = s.last := rfl
@[simp] theorem dispatchEnd_record (s : State) : (dispatchEnd s).record = s.record := rfl
@[simp] theorem dispatchEnd_present (s : State) : (dispatchEnd s).present = s.present := rfl
@[simp] theorem dispatchEnd_pcount (s : State) : (dispatchEnd s).pcount = s.pcount := rfl
@[simp] theorem dispatchEnd_cur (s : State) : (dispatchEnd s).cur = 0 := rfl
@[simp] theorem dispatchEnd_epoch (s : State) : (dispatchEnd s).epoch = s.epoch := rfl
@[simp] theorem dispatchEnd_port (s : State) : (dispatchEnd s).port = s.port := rfl
@[simp] theorem dispatchEnd_out (s : State) : (dispatchEnd s).out = s.out ++ [.complete s.tid s.record s.present] := rfl

@[simp] theorem resetTo_cfg (c : Cfg) (s : State) : (resetTo c s).cfg = c := rfl
@[simp] theorem resetTo_act (c : Cfg) (s : State) : (resetTo c s).act = .idle := rfl
@[simp] theorem resetTo_st (c : Cfg) (s : State) : (resetTo c s).st = .header1 := rfl
@[simp] theorem resetTo_tid (c : Cfg) (s : State) : (resetTo c s).tid = 0 := rfl
@[simp] theorem resetTo_len (c : Cfg) (s : State) : (resetTo c s).len = 0 := rfl
@[simp] theorem resetTo_rem (c : Cfg) (s : State) : (resetTo c s).rem = 0 := rfl
@[simp] theorem resetTo_c0 (c : Cfg) (s : State) : (resetTo c s).c0 = 0 := rfl
@[simp] theorem resetTo_c1 (c : Cfg) (s : State) : (resetTo c s).c1 = 0 := rfl
@[simp] theorem resetTo_wp (c : Cfg) (s : State) : (resetTo c s).wp = 0 := rfl
@[simp] theorem resetTo_buf (c : Cfg) (s : State) : (resetTo c s).buf = [] := rfl
@[simp] theorem resetTo_cntDone (c : Cfg) (s : State) : (resetTo c s).cntDone = 0 := rfl
@[simp] theorem resetTo_cntFail (c : Cfg) (s : State) : (resetTo c s).cntFail = 0 := rfl
@[simp] theorem resetTo_last (c : Cfg) (s : State) : (resetTo c s).last = .running := rfl
@[simp] theorem resetTo_record (c : Cfg) (s : State) : (resetTo c s).record = SensorRecord.zero := rfl
@[simp] theorem resetTo_present (c : Cfg) (s : State) : (resetTo c s).present = [] := rfl
@[simp] theorem resetTo_pcount (c : Cfg) (s : State) : (resetTo c s).pcount = 0 := rfl
@[simp] theorem resetTo_cur (c : Cfg) (s : State) : (resetTo c s).cur = 0 := rfl
@[simp] theorem resetTo_epoch (c : Cfg) (s : State) : (resetTo c s).epoch = s.epoch + 1 := rfl
@[simp] theorem resetTo_port (c : Cfg) (s : State) : (resetTo c s).port = s.port := rfl
@[simp] theorem resetTo_out (c : Cfg) (s : State) : (resetTo c s).out = s.out := rfl

end Sys2Proof.Machine
end

