-- ==== Sys2Proof/Laws/Ops.lean ====
section
/-! SUPPORT. Laws of the shared operations: sequencing, the buffer (read after write, canonical form), the store, and the
guard. -/

namespace Sys2Proof.Machine

/-! ## Sequencing -/

@[simp] theorem andThen_next {α β : Type} (a : α) (f : α → Res β) : andThen (.next a) f = f a := rfl
@[simp] theorem andThen_fault {α β : Type} (x : Fault) (f : α → Res β) :
    andThen (.fault x : Res α) f = .fault x := rfl
@[simp] theorem andThen_refused {α β : Type} (x : Refusal) (f : α → Res β) :
    andThen (.refused x : Res α) f = .refused x := rfl

theorem andThen_eq_next {α β : Type} {r : Res α} {f : α → Res β} {b : β} :
    andThen r f = .next b ↔ ∃ a, r = .next a ∧ f a = .next b := by
  cases r <;> simp [andThen]

theorem andThen_assoc {α β γ : Type} (r : Res α) (f : α → Res β) (g : β → Res γ) :
    andThen (andThen r f) g = andThen r fun a => andThen (f a) g := by
  cases r <;> rfl

/-! ## The buffer -/

@[simp] theorem read_nil (a : Nat) : Memory.read [] a = none := rfl

theorem read_write (m : Memory) (a : Nat) (v : Byte) (x : Nat) :
    Memory.read (Memory.write m a v) x = if x = a then some v else Memory.read m x := by
  induction m with
  | nil => by_cases h : x = a <;> simp [Memory.write, Memory.read, h, Ne.symm]
  | cons p m ih =>
    obtain ⟨k, w⟩ := p
    simp only [Memory.write]
    split
    · by_cases h : x = a
      · subst h; simp [Memory.read]
      · simp [Memory.read, h, Ne.symm h]
    · split
      · subst_vars
        by_cases h : x = k
        · subst h; simp [Memory.read]
        · simp [Memory.read, h, Ne.symm h]
      · rename_i h1 h2
        simp only [Memory.read, ih]
        by_cases hk : k = x
        · subst hk; simp [Ne.symm h2]
        · simp [hk]

@[simp] theorem read_write_same (m : Memory) (a : Nat) (v : Byte) :
    Memory.read (Memory.write m a v) a = some v := by simp [read_write]

theorem read_write_ne {m : Memory} {a x : Nat} {v : Byte} (h : x ≠ a) :
    Memory.read (Memory.write m a v) x = Memory.read m x := by simp [read_write, h]

theorem mem_write {m : Memory} {a : Nat} {v : Byte} {p : Host.Cell} (h : p ∈ Memory.write m a v) :
    p = (a, v) ∨ p ∈ m := by
  induction m with
  | nil => simpa [Memory.write] using h
  | cons q m ih =>
    simp only [Memory.write] at h
    split at h
    · simpa using h
    · split at h
      · rcases List.mem_cons.1 h with h | h
        · exact .inl h
        · exact .inr (List.mem_cons_of_mem _ h)
      · rcases List.mem_cons.1 h with h | h
        · exact .inr (h ▸ List.mem_cons_self)
        · rcases ih h with h | h
          · exact .inl h
          · exact .inr (List.mem_cons_of_mem _ h)

theorem wf_nil : Memory.wf [] = true := rfl

theorem wf_iff {m : Memory} : Memory.wf m = true ↔ m.Pairwise fun x y => x.1 < y.1 := by
  simp [Memory.wf]

/-- A write keeps the canonical form. -/
theorem wf_write {m : Memory} (h : Memory.wf m = true) (a : Nat) (v : Byte) :
    Memory.wf (Memory.write m a v) = true := by
  rw [wf_iff] at *
  induction m with
  | nil => simp [Memory.write]
  | cons q m ih =>
    obtain ⟨k, w⟩ := q
    rw [List.pairwise_cons] at h
    simp only [Memory.write]
    split
    · rename_i hk
      refine List.pairwise_cons.2 ⟨fun p hp => ?_, List.pairwise_cons.2 h⟩
      rcases List.mem_cons.1 hp with rfl | hp
      · exact hk
      · exact lt_trans hk (h.1 p hp)
    · split
      · subst_vars; exact List.pairwise_cons.2 h
      · rename_i h1 h2
        refine List.pairwise_cons.2 ⟨fun p hp => ?_, ih h.2⟩
        rcases mem_write hp with rfl | hp
        · show k < a
          omega
        · exact h.1 p hp

/-- Writing a list of bytes keeps the canonical form. -/
theorem wf_writeAll {m : Memory} (h : Memory.wf m = true) (a : Nat) (bs : List Byte) :
    Memory.wf (Memory.writeAll m a bs) = true := by
  induction bs generalizing m a with
  | nil => exact h
  | cons b bs ih => exact ih (wf_write h a b) (a + 1)

/-- Reading after writing a list of bytes. -/
theorem read_writeAll (m : Memory) (a : Nat) (bs : List Byte) (x : Nat) :
    Memory.read (Memory.writeAll m a bs) x = if a ≤ x ∧ x < a + bs.length then bs[x - a]? else Memory.read m x := by
  induction bs generalizing m a with
  | nil => simp [Memory.writeAll]
  | cons b bs ih =>
    rw [Memory.writeAll, ih, read_write]
    by_cases h1 : x = a
    · subst h1; simp
    · by_cases h2 : a + 1 ≤ x ∧ x < a + 1 + bs.length
      · rw [if_pos h2, if_pos (by simp; omega), show x - a = (x - (a + 1)) + 1 by omega, List.getElem?_cons_succ]
      · rw [if_neg h2, if_neg h1, if_neg (by simp; omega)]

theorem writeAll_append (m : Memory) (a : Nat) (as bs : List Byte) :
    Memory.writeAll (Memory.writeAll m a as) (a + as.length) bs = Memory.writeAll m a (as ++ bs) := by
  induction as generalizing m a with
  | nil => rfl
  | cons x as ih =>
    simp only [Memory.writeAll, List.cons_append, List.length_cons]
    rw [← ih, Nat.add_comm as.length 1, Nat.add_assoc]

/-! ## The store -/

theorem store_of_lt {b : Byte} {s : State} (h : s.wp < s.cfg.cap) : store b s = .next (stored b s) := by
  simp [store, h]

theorem store_eq_next {b : Byte} {s t : State} :
    store b s = .next t ↔ s.wp < s.cfg.cap ∧ t = stored b s := by
  unfold store
  split <;> simp_all [eq_comm]

/-! ## The guard and the answer -/

theorem whenIdle_of_idle {s : State} (h : s.act = .idle) (r : Res State) : whenIdle s r = r := by
  simp [whenIdle, h]

theorem whenIdle_eq_next {s t : State} {r : Res State} :
    whenIdle s r = .next t ↔ s.act = .idle ∧ r = .next t := by
  unfold whenIdle
  split <;> simp_all

@[simp] theorem answer_next (t : State) : answer (.next t) = .next (reportStatus t) := rfl

theorem answer_eq_next {r : Res State} {t : State} :
    answer r = .next t ↔ ∃ u, r = .next u ∧ t = reportStatus u := by
  unfold answer
  rw [andThen_eq_next]
  constructor
  · rintro ⟨u, h, hu⟩
    exact ⟨u, h, (Host.Outcome.next.inj hu).symm⟩
  · rintro ⟨u, h, rfl⟩
    exact ⟨u, h, rfl⟩

/-! ## The trace counters -/

theorem satInc_le (c : Cfg) (x : Nat) : satInc c x ≤ maxCount c := Nat.min_le_right _ _

theorem le_satInc {c : Cfg} {x : Nat} (h : x ≤ maxCount c) : x ≤ satInc c x := by
  unfold satInc
  omega

/-! ## State codes -/

@[simp] theorem ofCode_code (f : FState) : FState.ofCode f.code = f := by
  cases f with
  | invalid low => revert low; decide
  | _ => rfl

@[simp] theorem code_ofCode (c : BitVec 4) : (FState.ofCode c).code = c := by
  revert c; decide

end Sys2Proof.Machine
end

