-- ==== Sys2Proof/Laws/Bytes.lean ====
section
/-! SUPPORT. Laws of the little-endian integers and of the identifier table (spec/42_dispatcher.md R136,
spec/30_encoding.md R66, R72). -/

namespace Sys2Proof

/-! ## Little-endian integers -/

@[simp] theorem leBytes_length (n x : Nat) : (leBytes n x).length = n := by
  induction n generalizing x with
  | zero => rfl
  | succ n ih => simp [leBytes, ih]

theorem leu_lt (bs : List Byte) : leu bs < 256 ^ bs.length := by
  induction bs with
  | nil => simp [leu]
  | cons b bs ih =>
    have := b.isLt
    simp only [leu, List.length_cons, pow_succ]
    omega

/-- The integer of the `n` low bytes of `x`. -/
theorem leu_leBytes (n x : Nat) : leu (leBytes n x) = x % 256 ^ n := by
  induction n generalizing x with
  | zero => simp [leBytes, leu, Nat.mod_one]
  | succ n ih =>
    rw [leBytes, leu, ih, BitVec.toNat_ofNat, show (2 : Nat) ^ 8 = 256 from rfl, pow_succ, mul_comm (256 ^ n) 256,
      Nat.mod_mul]

/-- The bytes of the integer of a list of bytes. -/
theorem leBytes_leu (bs : List Byte) : leBytes bs.length (leu bs) = bs := by
  induction bs with
  | nil => rfl
  | cons b bs ih =>
    have hb := b.isLt
    simp only [List.length_cons, leBytes, leu]
    congr 1
    · apply BitVec.eq_of_toNat_eq
      simp only [BitVec.toNat_ofNat]
      omega
    · rw [show (b.toNat + 256 * leu bs) / 256 = leu bs by omega, ih]

theorem leu_append (as bs : List Byte) : leu (as ++ bs) = leu as + 256 ^ as.length * leu bs := by
  induction as with
  | nil => simp [leu]
  | cons a as ih =>
    simp only [List.cons_append, leu, ih, List.length_cons, pow_succ]
    ring

/-! ## Data fields -/

/-- A word read where its own bytes stand. -/
theorem leWord_append {w o n : Nat} (pre : List Byte) (v : BitVec w) (post : List Byte) (ho : pre.length = o)
    (hn : w / 8 = n) (hw : 2 ^ w = 256 ^ n) : leWord w o (pre ++ (leBytes n v.toNat ++ post)) = v := by
  subst ho hn
  unfold leWord
  rw [List.drop_left, List.take_left' (leBytes_length _ _), leu_leBytes, ← hw]
  apply BitVec.eq_of_toNat_eq
  have := v.isLt
  simp [Nat.mod_eq_of_lt this]

/-- The word at an offset of the data holds the unsigned and the signed integer of its bytes (R136). -/
theorem leWord_value {w n : Nat} (d : List Byte) (o : Nat) (hn : w / 8 = n) (hw : 2 ^ w = 256 ^ n)
    (hl : o + n ≤ d.length) :
    (leWord w o d).toNat = leu ((d.drop o).take n) ∧ (leWord w o d).toInt = les ((d.drop o).take n) := by
  have hl' : ((d.drop o).take n).length = n := by rw [List.length_take, List.length_drop]; omega
  have hlt := leu_lt ((d.drop o).take n)
  rw [hl', ← hw] at hlt
  have h1 : (leWord w o d).toNat = leu ((d.drop o).take n) := by
    unfold leWord
    rw [hn, BitVec.toNat_ofNat, Nat.mod_eq_of_lt hlt]
  refine ⟨h1, ?_⟩
  have hz : (256 : Int) ^ n = ((2 ^ w : Nat) : Int) := by rw [hw]; simp
  rw [BitVec.toInt_eq_toNat_cond, h1, les, hl', hz, ← hw]

@[simp] theorem bytes32_length (v : BitVec 32) : (bytes32 v).length = 4 := leBytes_length _ _
@[simp] theorem bytes64_length (v : BitVec 64) : (bytes64 v).length = 8 := leBytes_length _ _

theorem leWord16 (v : BitVec 16) : leWord 16 0 (leBytes 2 v.toNat) = v := by
  simpa using leWord_append [] v [] rfl rfl rfl

theorem leWord32_at {o : Nat} (pre : List Byte) (v : BitVec 32) (post : List Byte) (ho : pre.length = o) :
    leWord 32 o (pre ++ (bytes32 v ++ post)) = v := leWord_append pre v post ho rfl rfl

theorem leWord64_at {o : Nat} (pre : List Byte) (v : BitVec 64) (post : List Byte) (ho : pre.length = o) :
    leWord 64 o (pre ++ (bytes64 v ++ post)) = v := leWord_append pre v post ho rfl rfl

theorem leWord32 (v : BitVec 32) : leWord 32 0 (bytes32 v) = v := by
  simpa using leWord32_at [] v [] rfl

@[simp] theorem bytesLanes3_length (v : Lanes3) : (bytesLanes3 v).length = 12 := by simp [bytesLanes3]
@[simp] theorem bytesLanes4_length (v : Lanes4) : (bytesLanes4 v).length = 16 := by simp [bytesLanes4]

/-- Three words, in order, from their own bytes. -/
theorem leWord32_three (x y z : BitVec 32) :
    leWord 32 0 (bytes32 x ++ (bytes32 y ++ bytes32 z)) = x ∧
    leWord 32 4 (bytes32 x ++ (bytes32 y ++ bytes32 z)) = y ∧
    leWord 32 8 (bytes32 x ++ (bytes32 y ++ bytes32 z)) = z := by
  refine ⟨?_, ?_, ?_⟩
  · exact leWord32_at [] x _ rfl
  · exact leWord32_at (bytes32 x) y _ (by simp)
  · have := leWord32_at (o := 8) (bytes32 x ++ bytes32 y) z [] (by simp)
    simpa [List.append_assoc] using this

theorem lanes3_bytes (v : Lanes3) : lanes3 (bytesLanes3 v) = v := by
  obtain ⟨h0, h1, h2⟩ := leWord32_three v.l0 v.l1 v.l2
  simp only [lanes3, bytesLanes3, h0, h1, h2]

theorem lanes4_bytes (v : Lanes4) : lanes4 (bytesLanes4 v) = v := by
  have h0 := leWord32_at (o := 0) [] v.l0 (bytes32 v.l1 ++ (bytes32 v.l2 ++ bytes32 v.l3)) rfl
  have h1 := leWord32_at (o := 4) (bytes32 v.l0) v.l1 (bytes32 v.l2 ++ bytes32 v.l3) (by simp)
  have h2 := leWord32_at (o := 8) (bytes32 v.l0 ++ bytes32 v.l1) v.l2 (bytes32 v.l3) (by simp)
  have h3 := leWord32_at (o := 12) (bytes32 v.l0 ++ (bytes32 v.l1 ++ bytes32 v.l2)) v.l3 [] (by simp)
  simp only [List.nil_append, List.append_assoc, List.append_nil] at h0 h1 h2 h3
  simp only [lanes4, bytesLanes4, h0, h1, h2, h3]

/-! ## The identifier table -/

theorem Kind.mem_all (k : Kind) : k ∈ Kind.all := by cases k <;> decide

theorem Kind.expLen_pos (c : Cfg) (k : Kind) : 2 ≤ k.expLen c := by
  cases k <;> simp only [Kind.expLen, Kind.format, Format.dataLength] <;> omega

theorem Kind.expLen_le (c : Cfg) (k : Kind) : k.expLen c ≤ 24 := by
  cases k <;> cases h : c.hpAlt <;> simp [Kind.expLen, Kind.format, Format.dataLength, HpAlt.bytes, h]

theorem Cfg.lookup_idOf {c : Cfg} {id : Byte} {k : Kind} (h : c.lookup id = some k) : c.idOf k = some id := by
  simpa using List.find?_some h

theorem nodup_filterMap_inj {α β : Type} {f : α → Option β} {l : List α} (h : (l.filterMap f).Nodup)
    (hl : l.Nodup) {a b : α} (ha : a ∈ l) (hb : b ∈ l) {x : β} (fa : f a = some x) (fb : f b = some x) : a = b := by
  induction l with
  | nil => cases ha
  | cons y l ih =>
    rw [List.nodup_cons] at hl
    rcases List.mem_cons.1 ha with rfl | ha' <;> rcases List.mem_cons.1 hb with rfl | hb'
    · rfl
    · rw [List.filterMap_cons_some fa, List.nodup_cons] at h
      exact absurd (List.mem_filterMap.2 ⟨b, hb', fb⟩) h.1
    · rw [List.filterMap_cons_some fb, List.nodup_cons] at h
      exact absurd (List.mem_filterMap.2 ⟨a, ha', fa⟩) h.1
    · refine ih ?_ hl.2 ha' hb'
      cases hy : f y with
      | none => rwa [List.filterMap_cons_none hy] at h
      | some z =>
        rw [List.filterMap_cons_some hy, List.nodup_cons] at h
        exact h.2

theorem Cfg.wf_nodup {c : Cfg} (h : c.wf = true) : c.activeIds.Nodup := by
  simp only [Cfg.wf, Bool.and_eq_true, decide_eq_true_eq] at h
  exact h.1.2

theorem Cfg.wf_cap {c : Cfg} (h : c.wf = true) : CAP_MIN ≤ c.cap := by
  simp only [Cfg.wf, Bool.and_eq_true, decide_eq_true_eq] at h
  exact h.1.1

/-- In a well-formed configuration the id of an active row finds that row. -/
theorem Cfg.lookup_of_idOf {c : Cfg} (h : c.wf = true) {k : Kind} {id : Byte} (hk : c.idOf k = some id) :
    c.lookup id = some k := by
  cases hl : c.lookup id with
  | none =>
    have := List.find?_eq_none.1 hl k (Kind.mem_all k)
    simp [hk] at this
  | some k' =>
    exact congrArg some
      (nodup_filterMap_inj (Cfg.wf_nodup h) (by decide) (Kind.mem_all k') (Kind.mem_all k) (Cfg.lookup_idOf hl) hk)

/-! ## Recognition -/

/-- What recognition means (R135), with the table as a relation. -/
theorem recognise_eq_some {c : Cfg} {m : List Byte} {k : Kind} (h : recognise c m = some k) :
    ∃ id sl data, m = id :: sl :: data ∧ c.lookup id = some k ∧ c.idOf k = some id ∧
      sl = BitVec.ofNat 8 (k.expLen c) ∧ k.expLen c ≤ data.length := by
  match m, h with
  | id :: sl :: data, h =>
    simp only [recognise] at h
    cases hl : c.lookup id with
    | none => simp [hl] at h
    | some k' =>
      rw [hl] at h
      simp only [Option.ite_none_right_eq_some] at h
      obtain ⟨⟨h1, h2⟩, h3⟩ := h
      cases h3
      refine ⟨id, sl, data, rfl, hl, Cfg.lookup_idOf hl, ?_, ?_⟩
      · apply BitVec.eq_of_toNat_eq
        have := Kind.expLen_le c k
        rw [h1, BitVec.toNat_ofNat, Nat.mod_eq_of_lt (by omega)]
      · cases ho : c.overrun
        simpa [Overrun.fits, ho] using h2

theorem expLen_toNat (c : Cfg) (k : Kind) : (BitVec.ofNat 8 (k.expLen c)).toNat = k.expLen c := by
  have := Kind.expLen_le c k
  rw [BitVec.toNat_ofNat, Nat.mod_eq_of_lt (by omega)]

/-- A row's header with enough data behind it is recognised. -/
theorem recognise_header {c : Cfg} {k : Kind} {id : Byte} (hl : c.lookup id = some k) {data : List Byte}
    (hd : k.expLen c ≤ data.length) : recognise c (id :: BitVec.ofNat 8 (k.expLen c) :: data) = some k := by
  cases ho : c.overrun
  simp only [recognise, hl, expLen_toNat, Overrun.fits, hd, decide_true, and_self, if_true]

theorem decodeSub_recognised {c : Cfg} {k : Kind} {m : List Byte} (h : recognise c m = some k) :
    decodeSub c m = .ok (k.build c ((m.drop 2).take (k.expLen c)), m.drop (2 + k.expLen c)) := by
  match m, h with
  | b :: rest, h => simp [decodeSub, h]

theorem decodeSub_noise {c : Cfg} {b : Byte} {rest : List Byte} (h : recognise c (b :: rest) = none) :
    decodeSub c (b :: rest) = .ok (.noise b, rest) := by
  simp [decodeSub, h]

/-- A sub-record's own bytes decode to its row, whatever follows. -/
theorem decodeSub_encodeSub {c : Cfg} (h : c.wf = true) {k : Kind} {id : Byte} (hk : c.idOf k = some id)
    {data : List Byte} (hd : data.length = k.expLen c) (rest : List Byte) :
    decodeSub c (encodeSub c k data ++ rest) = .ok (k.build c data, rest) := by
  have hr : recognise c (encodeSub c k data ++ rest) = some k := by
    simp only [encodeSub, hk, Option.getD_some, List.cons_append]
    exact recognise_header (Cfg.lookup_of_idOf h hk) (by simp [hd])
  rw [decodeSub_recognised hr]
  simp only [encodeSub, List.cons_append, ← hd]
  rw [show ∀ (a b : Byte) (l : List Byte), (a :: b :: l).drop 2 = l from fun _ _ _ => rfl]
  simp [List.take_left', Nat.add_comm 2]

/-- Every nonempty message decodes at its head, and to at least one byte. -/
theorem decodeSub_total (c : Cfg) (b : Byte) (m : List Byte) :
    (recognise c (b :: m) = none ∧ decodeSub c (b :: m) = .ok (.noise b, m)) ∨
    ∃ k id data, recognise c (b :: m) = some k ∧ c.idOf k = some id ∧ b = id ∧
      m = BitVec.ofNat 8 (k.expLen c) :: data ∧ k.expLen c ≤ data.length ∧
      decodeSub c (b :: m) = .ok (k.build c (data.take (k.expLen c)), data.drop (k.expLen c)) := by
  cases hr : recognise c (b :: m) with
  | none => exact .inl ⟨rfl, decodeSub_noise hr⟩
  | some k =>
    obtain ⟨id, sl, data, hm, -, hid, hsl, hlen⟩ := recognise_eq_some hr
    cases hm
    refine .inr ⟨k, b, data, rfl, hid, rfl, by rw [hsl], hlen, ?_⟩
    rw [decodeSub_recognised hr]
    simp [Nat.add_comm 2]

end Sys2Proof
end

