-- ==== Sys2Proof/Laws/Dispatcher.lean ====
section
/-! SUPPORT. Laws of the dispatcher (spec/42_dispatcher.md): what one iteration of the walk can do, the walk's end and its
induction principle, and what a dispatch does. -/

namespace Sys2Proof.Machine

/-! ## The message view -/

@[simp] theorem bytesAt_length (s : State) (a n : Nat) : (s.bytesAt a n).length = n := by
  simp [State.bytesAt]

@[simp] theorem message_length (s : State) : s.message.length = s.len.toNat := by
  simp [State.message]

@[simp] theorem messageFrom_length (s : State) : s.messageFrom.length = s.len.toNat - s.cur.toNat := by
  simp [State.messageFrom]

/-- Two states with the same buffer and length have the same message. -/
theorem message_congr {s u : State} (hb : u.buf = s.buf) (he : u.epoch = s.epoch) (hl : u.len = s.len) :
    u.message = s.message := by
  simp only [State.message, State.bytesAt, hl]
  refine List.map_congr_left fun x _ => ?_
  simp [State.byteAt, hb, he]

/-- The bytes that stand in the buffer are the bytes the view gives. -/
theorem bytesAt_of_read {s : State} {bs : List Byte} {a : Nat}
    (h : ∀ i, i < bs.length → Memory.read s.buf (a + i) = bs[i]?) : s.bytesAt a bs.length = bs := by
  apply List.ext_getElem
  · simp
  · intro i h1 h2
    simp [State.bytesAt, State.byteAt, h i h2, h2]

/-! ## One sub-record -/

/-- The record after a sub-record operation. -/
def recordWith (i : Instr) (r : SensorRecord) : SensorRecord :=
  match i with
  | .temp v => { r with temp := v }
  | .acc v => { r with acc := v }
  | .gyro v => { r with gyro := v }
  | .facc v => { r with facc := v }
  | .dvel v => { r with dvel := v }
  | .vel v => { r with vel := v }
  | .magn v => { r with magn := v }
  | .magr v => { r with magr := v }
  | .eul v => { r with euler := v }
  | .quat v => { r with quat := v }
  | .dquat v => { r with dquat := v }
  | .loc lat lon alt => { r with lat := sext64 lat, lon := sext64 lon, alt := sext64 alt, locPrec := .standard }
  | .loch lat lon alt => { r with lat := lat, lon := lon, alt := altitude64 alt, locPrec := .high }
  | .tss v => { r with tsSample := v }
  | .tsd v => { r with tsReady := v }
  | .temp2 v => { r with temp2 := v }
  | .acc2 v => { r with acc2 := v }
  | .gyro2 v => { r with gyro2 := v }
  | .noise _ | .h1 _ | .h2 _ | .tidl _ | .tidh _ | .len _ | .msg _ | .crc1 _ | .crc2 _ | .badst _ _ | .frame _ _ _
  | .reset _ | .feed _ | .scan _ | .rdtrace | .rdrec | .dispatch | .upd _ | .clr => r

theorem rowOf_build (c : Cfg) (k : Kind) (d : List Byte) : rowOf (k.build c d) = some k := by
  cases k <;> rfl

/-- `exec` and the walk give a sub-record the same meaning. -/
theorem runSub_eq_exec {i : Instr} {k : Kind} (h : rowOf i = some k) (s : State) : runSub i s = exec i s := by
  cases i <;> first | rfl | simp [rowOf] at h

theorem runSub_noise (b : Byte) (s : State) : runSub (.noise b) s = .next (advance 1 s) := rfl

/-- A sub-record operation is `subRecord` of its row. -/
theorem exec_row {i : Instr} {k : Kind} (h : rowOf i = some k) (s : State) :
    exec i s = subRecord k (recordWith i s.record) s := by
  cases i <;> simp only [rowOf, Option.some.injEq, reduceCtorEq] at h <;> subst h <;> rfl

theorem subRecord_of_idOf {k : Kind} {r : SensorRecord} {s : State} {id : Byte} (h : s.cfg.idOf k = some id) :
    subRecord k r s = .next (decoded id (k.expLen s.cfg) r s) := by
  simp [subRecord, h]

/-! ## One iteration -/

/-- What the dispatcher fetches where the walk goes on, and what running it does. -/
theorem walkStep_cases {s : State} (h : walkGoesOn s = true) :
    (∃ b, fetchSub s = .ok (.noise b) ∧ walkStep s = .next (advance 1 s)) ∨
    ∃ k id i, fetchSub s = .ok i ∧ rowOf i = some k ∧ s.cfg.idOf k = some id ∧
      s.cur.toNat + (2 + k.expLen s.cfg) ≤ s.len.toNat ∧
      walkStep s = .next (decoded id (k.expLen s.cfg) (recordWith i s.record) s) := by
  have hlen : s.messageFrom.length = s.len.toNat - s.cur.toNat := messageFrom_length s
  have hgo : s.cur.toNat < s.len.toNat := by simpa [walkGoesOn] using h
  match hm : s.messageFrom with
  | [] => simp [hm] at hlen; omega
  | b :: m =>
    rw [hm] at hlen
    simp only [List.length_cons] at hlen
    rcases decodeSub_total s.cfg b m with ⟨-, hd⟩ | ⟨k, id, data, -, hid, -, hm', hl, hd⟩
    · left
      have hf : fetchSub s = .ok (.noise b) := by simp [fetchSub, hm, hd, Except.map]
      exact ⟨b, hf, by simp [walkStep, hf, runSub_noise]⟩
    · right
      have hf : fetchSub s = .ok (k.build s.cfg (data.take (k.expLen s.cfg))) := by
        simp [fetchSub, hm, hd, Except.map]
      have hr := rowOf_build s.cfg k (data.take (k.expLen s.cfg))
      refine ⟨k, id, _, hf, hr, hid, ?_, ?_⟩
      · have : m.length = data.length + 1 := by simp [hm']
        omega
      · simp only [walkStep, hf]
        rw [runSub_eq_exec hr, exec_row hr, subRecord_of_idOf hid]

theorem advance_cur_toNat {s : State} {n : Nat} (h : s.cur.toNat + n ≤ s.len.toNat) :
    (s.cur + BitVec.ofNat 8 n).toNat = s.cur.toNat + n := by
  have := s.len.isLt
  rw [BitVec.toNat_add, BitVec.toNat_ofNat]
  omega

/-- The rest of the message after the cursor has moved on by `n`. -/
theorem messageFrom_advance {s u : State} {n : Nat} (hn : s.cur.toNat + n ≤ s.len.toNat) (hb : u.buf = s.buf)
    (he : u.epoch = s.epoch) (hl : u.len = s.len) (hc : u.cur = s.cur + BitVec.ofNat 8 n) :
    u.messageFrom = s.messageFrom.drop n := by
  simp only [State.messageFrom, hc, advance_cur_toNat hn, List.drop_drop, message_congr hb he hl]

theorem messageFrom_dispatchBegin (s : State) : (dispatchBegin s).messageFrom = s.message := by
  simp only [State.messageFrom, dispatchBegin_cur, message_congr (s := s) (u := dispatchBegin s) rfl rfl rfl]
  rfl

/-- One iteration always answers; it moves the cursor on, not past the end, and touches only the record, the present list,
its count and the cursor. -/
theorem walkStep_next {s : State} (h : walkGoesOn s = true) :
    ∃ t, walkStep s = .next t ∧ s.cur.toNat < t.cur.toNat ∧ t.cur.toNat ≤ s.len.toNat ∧
      t = { s with record := t.record, present := t.present, pcount := t.pcount, cur := t.cur } := by
  have hgo : s.cur.toNat < s.len.toNat := by simpa [walkGoesOn] using h
  rcases walkStep_cases h with ⟨b, -, hs⟩ | ⟨k, id, i, -, -, -, hfit, hs⟩
  · refine ⟨_, hs, ?_, ?_, rfl⟩ <;> rw [advance_cur, advance_cur_toNat (by omega)] <;> omega
  · refine ⟨_, hs, ?_, ?_, rfl⟩ <;> rw [decoded_cur, advance_cur_toNat hfit] <;> omega

/-! ## The walk -/

/-- The walk answers, ends with the cursor at the end of the message (R133), and keeps whatever every iteration keeps. -/
theorem walk_spec (P : State → Prop)
    (hP : ∀ u v, P u → walkGoesOn u = true → walkStep u = .next v → P v) :
    ∀ (n : Nat) (s : State), s.len.toNat ≤ s.cur.toNat + n → s.cur.toNat ≤ s.len.toNat → P s →
      ∃ t, walk n s = .next t ∧ P t ∧ t.cur = s.len ∧
        t = { s with record := t.record, present := t.present, pcount := t.pcount, cur := t.cur } := by
  intro n
  induction n with
  | zero =>
    intro s hn hc hs
    exact ⟨s, rfl, hs, BitVec.eq_of_toNat_eq (by omega), rfl⟩
  | succ n ih =>
    intro s hn hc hs
    by_cases hg : walkGoesOn s = true
    · obtain ⟨u, hu, h1, h2, hf⟩ := walkStep_next hg
      have hl : u.len = s.len := by rw [hf]
      obtain ⟨t, ht, hPt, hcur, hft⟩ := ih u (by rw [hl]; omega) (by rw [hl]; omega) (hP s u hs hg hu)
      refine ⟨t, ?_, hPt, hl ▸ hcur, ?_⟩
      · simp [walk, hg, hu, ht]
      · rw [hft, hf]
    · have hge : ¬ s.cur.toNat < s.len.toNat := by simpa [walkGoesOn] using hg
      refine ⟨s, ?_, hs, BitVec.eq_of_toNat_eq (by omega), rfl⟩
      simp [walk, hg]

/-- The walk of a dispatch. -/
theorem walk_dispatch (P : State → Prop) (s : State) (h0 : P (dispatchBegin s))
    (hP : ∀ u v, P u → walkGoesOn u = true → walkStep u = .next v → P v) :
    ∃ t, walk s.len.toNat (dispatchBegin s) = .next t ∧ P t ∧ t.cur = s.len ∧
      t = { s with act := .walking, record := t.record, present := t.present, pcount := t.pcount, cur := t.cur } := by
  obtain ⟨t, ht, hPt, hc, hf⟩ := walk_spec P hP s.len.toNat (dispatchBegin s) (by simp) (by simp) h0
  exact ⟨t, ht, hPt, hc, hf⟩

/-- What a dispatch can do: everything but the record, the present list, its count, the (dead) cursor and the outputs is as
before, and the event carries what is then in the registers (R130, R138). -/
theorem runDispatch_next (P : State → Prop) {s : State} (hcap : HDR_BYTES + s.len.toNat ≤ s.cfg.cap)
    (h0 : P (dispatchBegin s)) (hP : ∀ u v, P u → walkGoesOn u = true → walkStep u = .next v → P v) :
    ∃ t w, runDispatch s = .next t ∧ P w ∧ t = dispatchEnd w ∧ walk s.len.toNat (dispatchBegin s) = .next w ∧
      t = { s with act := .idle, cur := 0, record := w.record, present := w.present, pcount := w.pcount
                   out := s.out ++ [.complete s.tid w.record w.present] } := by
  obtain ⟨w, hw, hPw, -, hf⟩ := walk_dispatch P s h0 hP
  refine ⟨dispatchEnd w, w, ?_, hPw, rfl, hw, ?_⟩
  · simp [runDispatch, hcap, hw]
  · rw [hf]
    rfl

theorem runDispatch_eq_next {s t : State} (h : runDispatch s = .next t) :
    HDR_BYTES + s.len.toNat ≤ s.cfg.cap := by
  unfold runDispatch at h
  split at h
  · assumption
  · cases h

/-! ## The operations of a message -/

/-- Bounds of the parse do not matter once they cover the message. -/
theorem parse_bound (c : Cfg) :
    ∀ (n n' : Nat) (m : List Byte), m.length ≤ n → m.length ≤ n' → parse c n m = parse c n' m := by
  intro n
  induction n with
  | zero =>
    intro n' m h _
    obtain rfl := List.length_eq_zero_iff.1 (Nat.le_zero.1 h)
    cases n' <;> rfl
  | succ n ih =>
    intro n' m h h'
    match m, n' with
    | [], 0 => rfl
    | [], n' + 1 => rfl
    | b :: m, n' + 1 =>
      simp only [List.length_cons] at h h'
      rcases decodeSub_total c b m with ⟨-, hd⟩ | ⟨k, id, data, -, -, -, hm, hl, hd⟩
      · simp only [parse, hd]
        rw [ih n' m (by omega) (by omega)]
      · simp only [parse, hd]
        subst hm
        simp only [List.length_cons] at h h'
        rw [ih n' _ (by simp; omega) (by simp; omega)]

/-- Every operation of a message is a noise byte or a sub-record of an active row. -/
theorem mem_parse {c : Cfg} {i : Instr} : ∀ {n : Nat} {m : List Byte}, i ∈ parse c n m →
    (∃ b, i = .noise b) ∨ ∃ k id, rowOf i = some k ∧ c.idOf k = some id := by
  intro n
  induction n with
  | zero => intro m hi; cases hi
  | succ n ih =>
    intro m hi
    match m with
    | [] => simp [parse, decodeSub] at hi
    | b :: m =>
      rcases decodeSub_total c b m with ⟨-, hd⟩ | ⟨k, id, data, -, hid, -, hm, hl, hd⟩
      · simp only [parse, hd, List.mem_cons] at hi
        rcases hi with rfl | hi
        · exact .inl ⟨_, rfl⟩
        · exact ih hi
      · simp only [parse, hd, List.mem_cons] at hi
        rcases hi with rfl | hi
        · exact .inr ⟨k, id, rowOf_build _ _ _, hid⟩
        · exact ih hi

end Sys2Proof.Machine
end

