-- ==== Sys2Proof/Laws/Framer.lean ====
section
/-! SUPPORT. Laws of the byte-feed step (spec/41_framer.md): the three things it can do, and that it keeps the invariant of
spec/10_state.md R34. -/

namespace Sys2Proof.Machine

/-! ## What a byte-feed step can do -/

/-- The offset at which a byte-feed step stores, if it stores (R42): `WP`, or 0 where a header match has just cleared it. -/
def storeOffset (s : State) : Nat := if s.st = .header1 then 0 else s.wp

/-- A byte-feed step that neither completes a frame nor raises: status `Running`, and nothing but the framer's registers
and the buffer has changed. -/
structure Quiet (b : Byte) (s t : State) : Prop where
  last : t.last = .running
  frame : t = { s with st := t.st, tid := t.tid, len := t.len, rem := t.rem, c0 := t.c0, c1 := t.c1, wp := t.wp
                       buf := t.buf, last := .running }
  buf : (t.buf = s.buf ∧ t.wp = s.wp) ∨
    (storeOffset s < s.cfg.cap ∧ t.buf = Memory.write s.buf (storeOffset s) b ∧ t.wp = storeOffset s + 1)

/-- A completing step: the byte is stored, the dispatch runs, the frame is counted (R108). -/
structure Completed (b : Byte) (s t : State) : Prop where
  st : s.st = .crc2
  byte : b = s.c1
  room : s.wp < s.cfg.cap
  run : ∃ u, runDispatch (stored b s) = .next u ∧ t = completeFrame u

/-- A byte-feed step is quiet, or raises an error status, or completes a frame (R110). -/
theorem byteStep_cases {b : Byte} {s t : State} (h : byteStep b s = .next t) :
    Quiet b s t ∨ (∃ x : Status, x.isError = true ∧ t = raise x s) ∨ Completed b s t := by
  unfold byteStep at h
  split at h <;> rename_i hst
  · unfold byteH1 at h
    split at h
    · rename_i hb
      obtain ⟨u, hu, hv⟩ := andThen_eq_next.1 h
      obtain ⟨hw, rfl⟩ := store_eq_next.1 hu
      cases hv
      exact .inl ⟨rfl, rfl, .inr ⟨by simpa [storeOffset, hst] using hw, by simp [storeOffset, hst], by simp [storeOffset, hst]⟩⟩
    · cases h
      exact .inl ⟨rfl, rfl, .inl ⟨rfl, rfl⟩⟩
  · unfold byteH2 at h
    split at h
    · obtain ⟨u, hu, hv⟩ := andThen_eq_next.1 h
      obtain ⟨hw, rfl⟩ := store_eq_next.1 hu
      cases hv
      exact .inl ⟨rfl, rfl, .inr ⟨by simpa [storeOffset, hst] using hw, by simp [storeOffset, hst], by simp [storeOffset, hst]⟩⟩
    · cases h
      exact .inl ⟨rfl, rfl, .inl ⟨rfl, rfl⟩⟩
  · obtain ⟨u, hu, hv⟩ := andThen_eq_next.1 h
    obtain ⟨hw, rfl⟩ := store_eq_next.1 hu
    cases hv
    exact .inl ⟨rfl, rfl, .inr ⟨by simpa [storeOffset, hst] using hw, by simp [storeOffset, hst], by simp [storeOffset, hst]⟩⟩
  · obtain ⟨u, hu, hv⟩ := andThen_eq_next.1 h
    obtain ⟨hw, rfl⟩ := store_eq_next.1 hu
    cases hv
    exact .inl ⟨rfl, rfl, .inr ⟨by simpa [storeOffset, hst] using hw, by simp [storeOffset, hst], by simp [storeOffset, hst]⟩⟩
  · unfold byteLen at h
    split at h
    · obtain ⟨u, hu, hv⟩ := andThen_eq_next.1 h
      obtain ⟨hw, rfl⟩ := store_eq_next.1 hu
      cases hv
      exact .inl ⟨rfl, rfl, .inr ⟨by simpa [storeOffset, hst] using hw, by simp [storeOffset, hst], by simp [storeOffset, hst]⟩⟩
    · cases h
      exact .inr (.inl ⟨_, rfl, rfl⟩)
  · obtain ⟨u, hu, hv⟩ := andThen_eq_next.1 h
    obtain ⟨hw, rfl⟩ := store_eq_next.1 hu
    cases hv
    exact .inl ⟨rfl, rfl, .inr ⟨by simpa [storeOffset, hst] using hw, by simp [storeOffset, hst], by simp [storeOffset, hst]⟩⟩
  · unfold byteCrc1 at h
    split at h
    · obtain ⟨u, hu, hv⟩ := andThen_eq_next.1 h
      obtain ⟨hw, rfl⟩ := store_eq_next.1 hu
      cases hv
      exact .inl ⟨rfl, rfl, .inr ⟨by simpa [storeOffset, hst] using hw, by simp [storeOffset, hst], by simp [storeOffset, hst]⟩⟩
    · cases h
      exact .inr (.inl ⟨_, rfl, rfl⟩)
  · unfold byteCrc2 at h
    split at h
    · rename_i hb
      obtain ⟨u, hu, hv⟩ := andThen_eq_next.1 h
      obtain ⟨hw, rfl⟩ := store_eq_next.1 hu
      obtain ⟨v, hrun, hx⟩ := andThen_eq_next.1 hv
      cases hx
      exact .inr (.inr ⟨hst, hb, hw, v, hrun, rfl⟩)
    · cases h
      exact .inr (.inl ⟨_, rfl, rfl⟩)
  · cases h
    exact .inr (.inl ⟨_, rfl, rfl⟩)

/-! ## The invariant -/

/-- The part of the invariant that no byte operation but a completing one touches. -/
structure Standing (s : State) : Prop where
  cfgOk : s.cfg.wf = true
  idle : s.act = .idle
  doneBound : s.cntDone ≤ maxCount s.cfg
  failBound : s.cntFail ≤ maxCount s.cfg
  presentCount : s.pcount.toNat = s.present.length
  presentBound : s.present.length ≤ PCAP
  oneSensor : s.cfg.dual = false →
    s.record.temp2 = 0 ∧ s.record.acc2 = ⟨0, 0, 0⟩ ∧ s.record.gyro2 = ⟨0, 0, 0⟩
  noLocation : s.record.locPrec = .none → s.record.lat = 0 ∧ s.record.lon = 0 ∧ s.record.alt = 0

/-- The part of the invariant about the frame in progress. -/
structure Framing (s : State) : Prop where
  bufWf : Memory.wf s.buf = true
  bufBound : ∀ p ∈ s.buf, p.1 < CAP_MIN
  written : ∀ a, a < s.wp → (Memory.read s.buf a).isSome = true
  wpBound : s.wp ≤ 206
  framer : FramerOk s
  header : HeaderStored s

theorem Inv.standing {s : State} (h : Inv s) : Standing s :=
  ⟨h.cfgOk, h.idle, h.doneBound, h.failBound, h.presentCount, h.presentBound, h.oneSensor, h.noLocation⟩

theorem Inv.framing {s : State} (h : Inv s) : Framing s :=
  ⟨h.bufWf, h.bufBound, h.written, h.wpBound, h.framer, h.header⟩

theorem Standing.inv {s : State} (h : Standing s) (f : Framing s) : Inv s where
  cfgOk := h.cfgOk
  idle := h.idle
  bufWf := f.bufWf
  bufBound := f.bufBound
  written := f.written
  wpBound := f.wpBound
  framer := f.framer
  header := f.header
  doneBound := h.doneBound
  failBound := h.failBound
  presentCount := h.presentCount
  presentBound := h.presentBound
  oneSensor := h.oneSensor
  noLocation := h.noLocation

theorem Inv.cap {s : State} (h : Inv s) : 206 ≤ s.cfg.cap := Cfg.wf_cap h.cfgOk

theorem legalLength_iff {b : Byte} : legalLength b = true ↔ 4 ≤ b.toNat ∧ b.toNat < 200 := by
  unfold legalLength LEN_MIN LEN_LIM
  rw [Bool.and_eq_true, decide_eq_true_eq, decide_eq_true_eq]

/-- The buffer part of the framing after a store. -/
theorem stored_buffer {m : Memory} {wp : Nat} {b : Byte} (h1 : Memory.wf m = true) (h2 : ∀ p ∈ m, p.1 < CAP_MIN)
    (h3 : ∀ a, a < wp → (Memory.read m a).isSome = true) (h4 : wp < 206) :
    Memory.wf (Memory.write m wp b) = true ∧ (∀ p ∈ Memory.write m wp b, p.1 < CAP_MIN) ∧
    (∀ a, a < wp + 1 → (Memory.read (Memory.write m wp b) a).isSome = true) := by
  refine ⟨wf_write h1 _ _, fun p hp => ?_, fun a ha => ?_⟩
  · rcases mem_write hp with rfl | hp
    · exact h4
    · exact h2 p hp
  · rw [read_write]
    split
    · rfl
    · exact h3 a (by omega)

theorem cks_snoc (l : List Byte) (b : Byte) : cks (l ++ [b]) = updPair (cks l) b := by
  simp [cks, List.foldl_append]

theorem bytesAt_succ (s : State) (a n : Nat) : s.bytesAt a (n + 1) = s.bytesAt a n ++ [s.byteAt (a + n)] := by
  simp [State.bytesAt, List.range'_concat]

/-- Bytes below the stored offset are as before. -/
theorem bytesAt_write {s t : State} {b : Byte} {w a n : Nat} (hb : t.buf = Memory.write s.buf w b)
    (he : t.epoch = s.epoch) (h : a + n ≤ w) : t.bytesAt a n = s.bytesAt a n := by
  simp only [State.bytesAt]
  refine List.map_congr_left fun x hx => ?_
  have : x < a + n := by simpa using (List.mem_range'_1.1 hx).2
  simp only [State.byteAt, hb, he]
  rw [read_write_ne (by omega)]

/-- One more byte stored and summed. -/
theorem sums_snoc {s t : State} {b : Byte} {n : Nat} (h : SumsOver s n)
    (hb : t.buf = Memory.write s.buf (2 + n) b) (he : t.epoch = s.epoch)
    (h0 : t.c0 = s.c0 + b) (h1 : t.c1 = s.c1 + (s.c0 + b)) : SumsOver t (n + 1) := by
  unfold SumsOver at *
  rw [bytesAt_succ, cks_snoc, bytesAt_write hb he (le_refl _), ← h, h0, h1]
  simp [State.byteAt, hb, updPair]

theorem sums_same {s t : State} {b : Byte} {n w : Nat} (h : SumsOver s n) (hb : t.buf = Memory.write s.buf w b)
    (hw : 2 + n ≤ w) (he : t.epoch = s.epoch) (h0 : t.c0 = s.c0) (h1 : t.c1 = s.c1) : SumsOver t n := by
  unfold SumsOver at *
  rw [bytesAt_write hb he hw, h0, h1, h]

theorem sums_start {s t : State} {b : Byte} (h0 : s.c0 = 0) (h1 : s.c1 = 0)
    (hb : t.buf = Memory.write s.buf 2 b) (he : t.epoch = s.epoch)
    (ht0 : t.c0 = s.c0 + b) (ht1 : t.c1 = s.c1 + (s.c0 + b)) : SumsOver t 1 :=
  sums_snoc (n := 0) (by simp [SumsOver, h0, h1, State.bytesAt, cks]) (by simpa using hb) he ht0 ht1

/-- Raising an error status keeps the invariant. -/
theorem raise_inv {s : State} (h : Inv s) (x : Status) : Inv (raise x s) where
  cfgOk := h.cfgOk
  idle := h.idle
  bufWf := h.bufWf
  bufBound := h.bufBound
  written := h.written
  wpBound := h.wpBound
  framer := h.wpBound
  header := h.header
  doneBound := h.doneBound
  failBound := by
    simp only [raise_cntFail, raise_cfg]
    split
    · exact satInc_le _ _
    · exact h.failBound
  presentCount := h.presentCount
  presentBound := h.presentBound
  oneSensor := h.oneSensor
  noLocation := h.noLocation

/-- A quiet step leaves the standing part alone. -/
theorem Quiet.standing {b : Byte} {s t : State} (q : Quiet b s t) (h : Standing s) : Standing t := by
  rw [q.frame]
  exact ⟨h.cfgOk, h.idle, h.doneBound, h.failBound, h.presentCount, h.presentBound, h.oneSensor, h.noLocation⟩

end Sys2Proof.Machine
end

