-- ==== Sys2Proof/Laws/Invariant.lean ====
section
/-! SUPPORT. A byte-feed step always answers from a good state and keeps it good (spec/10_state.md R34,
spec/41_framer.md R100). -/

namespace Sys2Proof.Machine

/-! ## One lemma per byte operation -/

theorem read_write_zero_le {m : Memory} {w x : Nat} {b : Byte} (h : x < w) :
    Memory.read (Memory.write m w b) x = Memory.read m x := read_write_ne (by omega)

theorem byteH1_inv {b : Byte} {s : State} (h : Inv s) : ∃ t, byteH1 b s = .next t ∧ (s.st = .header1 → Framing t) := by
  have hcap := h.cap
  unfold byteH1
  split
  · rename_i hb
    rw [store_of_lt (show (clearFrame s).wp < (clearFrame s).cfg.cap by simp; omega)]
    refine ⟨_, rfl, fun _ => ?_⟩
    obtain ⟨h1, h2, h3⟩ := stored_buffer (wp := 0) (b := b) h.bufWf h.bufBound (fun a ha => by omega) (by omega)
    exact ⟨h1, h2, h3, by simp, ⟨by simp, ⟨by simp, by simp⟩, by simp, by simp⟩,
      ⟨fun _ => by simp [hb], fun hh => by simp at hh, fun hh => by simp at hh, fun hh => by simp at hh,
        fun hh => by simp at hh⟩⟩
  · refine ⟨_, rfl, fun hst => ⟨h.bufWf, h.bufBound, h.written, h.wpBound, ?_, h.header⟩⟩
    simpa [FramerOk, hst] using h.wpBound

theorem byteH2_inv {b : Byte} {s : State} (h : Inv s) (hst : s.st = .header2) :
    ∃ t, byteH2 b s = .next t ∧ Framing t := by
  have hcap := h.cap
  have hf := h.framer
  simp only [FramerOk, hst] at hf
  obtain ⟨hwp, ⟨hr, hl⟩, h0, h1⟩ := hf
  unfold byteH2
  split
  · rename_i hb
    rw [store_of_lt (by omega)]
    refine ⟨_, rfl, ?_⟩
    obtain ⟨g1, g2, g3⟩ := stored_buffer (b := b) h.bufWf h.bufBound h.written (by omega)
    refine ⟨g1, g2, g3, by simp; omega, ⟨by simp [hwp], ⟨by simp [hr], by simp [hl]⟩, by simp [h0], by simp [h1]⟩, ?_⟩
    refine ⟨fun _ => ?_, fun _ => by simp [hwp, hb], fun hh => ?_, fun hh => ?_, fun hh => ?_⟩
    · simpa [hwp, read_write_ne] using h.header.1 (by omega)
    all_goals simp [hwp] at hh
  · exact ⟨_, rfl, h.bufWf, h.bufBound, h.written, h.wpBound, h.wpBound, h.header⟩

theorem byteTidl_inv {b : Byte} {s : State} (h : Inv s) (hst : s.st = .tidLow) :
    ∃ t, byteTidl b s = .next t ∧ Framing t := by
  have hcap := h.cap
  have hf := h.framer
  simp only [FramerOk, hst] at hf
  obtain ⟨hwp, ⟨hr, hl⟩, h0, h1⟩ := hf
  unfold byteTidl
  rw [store_of_lt (by omega)]
  refine ⟨_, rfl, ?_⟩
  obtain ⟨g1, g2, g3⟩ := stored_buffer (b := b) h.bufWf h.bufBound h.written (by omega)
  refine ⟨g1, g2, g3, by simp; omega, ⟨by simp [hwp], ⟨by simp [hr], by simp [hl]⟩, ?_⟩, ?_⟩
  · exact sums_start h0 h1 (by simp [hwp]) rfl rfl rfl
  · refine ⟨fun _ => ?_, fun _ => ?_, fun _ => ?_, fun hh => ?_, fun hh => ?_⟩
    · simpa [hwp, read_write_ne] using h.header.1 (by omega)
    · simpa [hwp, read_write_ne] using h.header.2.1 (by omega)
    · simp only [retire_buf, goto_buf, upd_buf, stored_buf, hwp, read_write_same, retire_tid, goto_tid, upd_tid]
      congr 1
      exact (BitVec.extractLsb'_append_eq_right).symm
    all_goals simp [hwp] at hh

theorem byteTidh_inv {b : Byte} {s : State} (h : Inv s) (hst : s.st = .tidHigh) :
    ∃ t, byteTidh b s = .next t ∧ Framing t := by
  have hcap := h.cap
  have hf := h.framer
  simp only [FramerOk, hst] at hf
  obtain ⟨hwp, ⟨hr, hl⟩, hs⟩ := hf
  unfold byteTidh
  rw [store_of_lt (by omega)]
  refine ⟨_, rfl, ?_⟩
  obtain ⟨g1, g2, g3⟩ := stored_buffer (b := b) h.bufWf h.bufBound h.written (by omega)
  refine ⟨g1, g2, g3, by simp; omega, ⟨by simp [hwp], ⟨by simp [hr], by simp [hl]⟩, ?_⟩, ?_⟩
  · exact sums_snoc hs (by simp [hwp]) rfl rfl rfl
  · refine ⟨fun _ => ?_, fun _ => ?_, fun _ => ?_, fun _ => ?_, fun hh => ?_⟩
    · simpa [hwp, read_write_ne] using h.header.1 (by omega)
    · simpa [hwp, read_write_ne] using h.header.2.1 (by omega)
    · simp only [retire_buf, goto_buf, upd_buf, stored_buf, hwp, retire_tid, goto_tid, upd_tid]
      rw [read_write_ne (by omega), h.header.2.2.1 (by omega)]
      congr 1
      exact (BitVec.extractLsb'_append_eq_right).symm
    · simp only [retire_buf, goto_buf, upd_buf, stored_buf, hwp, read_write_same, retire_tid, goto_tid, upd_tid]
      congr 1
      exact (BitVec.extractLsb'_append_eq_left).symm
    · simp [hwp] at hh

theorem byteLen_inv {b : Byte} {s : State} (h : Inv s) (hst : s.st = .length) :
    ∃ t, byteLen b s = .next t ∧ Framing t := by
  have hcap := h.cap
  have hf := h.framer
  simp only [FramerOk, hst] at hf
  obtain ⟨hwp, ⟨hr, hl⟩, hs⟩ := hf
  unfold byteLen
  split
  · rename_i hb
    rw [store_of_lt (by omega)]
    refine ⟨_, rfl, ?_⟩
    obtain ⟨g1, g2, g3⟩ := stored_buffer (b := b) h.bufWf h.bufBound h.written (by omega)
    have hb' := legalLength_iff.1 hb
    refine ⟨g1, g2, g3, by simp; omega, ⟨by simp [hwp], by simp; omega, by simp, by simp [hb], ?_⟩, ?_⟩
    · show SumsOver _ (s.wp + 1 - 2)
      rw [hwp]
      exact sums_snoc hs (by simp [hwp]) rfl rfl rfl
    · refine ⟨fun _ => ?_, fun _ => ?_, fun _ => ?_, fun _ => ?_, fun _ => by simp [hwp]⟩
      · simpa [hwp, read_write_ne] using h.header.1 (by omega)
      · simpa [hwp, read_write_ne] using h.header.2.1 (by omega)
      · simpa [hwp, read_write_ne] using h.header.2.2.1 (by omega)
      · simpa [hwp, read_write_ne] using h.header.2.2.2.1 (by omega)
  · exact ⟨_, rfl, (raise_inv h _).framing⟩

theorem header_kept {s t : State} {b : Byte} (h : HeaderStored s) (hw : 5 ≤ s.wp)
    (hb : t.buf = Memory.write s.buf s.wp b) (ht : t.tid = s.tid) (hl : t.len = s.len) : HeaderStored t := by
  have hr : ∀ x, x < 5 → Memory.read t.buf x = Memory.read s.buf x := fun x hx => by
    rw [hb, read_write_ne (by omega)]
  exact ⟨fun _ => by rw [hr _ (by omega)]; exact h.1 (by omega),
    fun _ => by rw [hr _ (by omega)]; exact h.2.1 (by omega),
    fun _ => by rw [hr _ (by omega), ht]; exact h.2.2.1 (by omega),
    fun _ => by rw [hr _ (by omega), ht]; exact h.2.2.2.1 (by omega),
    fun _ => by rw [hr _ (by omega), hl]; exact h.2.2.2.2 (by omega)⟩

theorem byteMsg_inv {b : Byte} {s : State} (h : Inv s) (hst : s.st = .message) :
    ∃ t, byteMsg b s = .next t ∧ Framing t := by
  have hcap := h.cap
  have hf := h.framer
  simp only [FramerOk, hst] at hf
  obtain ⟨hwp, hr1, hr2, hl, hs⟩ := hf
  have hl' := legalLength_iff.1 hl
  unfold byteMsg
  rw [store_of_lt (by omega)]
  refine ⟨_, rfl, ?_⟩
  obtain ⟨g1, g2, g3⟩ := stored_buffer (b := b) h.bufWf h.bufBound h.written (by omega)
  have hsub : (s.rem - 1).toNat = s.rem.toNat - 1 := by
    rw [BitVec.toNat_sub_of_le (by rw [BitVec.le_def]; simpa using hr1)]
    rfl
  refine ⟨g1, g2, g3, by simp; omega, ?_, header_kept h.header (by omega) rfl rfl rfl⟩
  have hsum : ∀ u : State, u.buf = Memory.write s.buf s.wp b → u.epoch = s.epoch → u.c0 = s.c0 + b →
      u.c1 = s.c1 + (s.c0 + b) → SumsOver u (s.wp + 1 - 2) := fun u e1 e2 e3 e4 => by
    rw [show s.wp + 1 - 2 = s.wp - 2 + 1 by omega]
    exact sums_snoc hs (by rw [e1, show 2 + (s.wp - 2) = s.wp by omega]) e2 e3 e4
  by_cases hz : s.rem - 1 = 0
  · rw [if_pos (show (stored b s).rem - 1 = 0 from hz)]
    have hz' : s.rem.toNat = 1 := by
      have := congrArg BitVec.toNat hz
      rw [hsub] at this
      simp at this
      omega
    refine ⟨by simp; omega, hz, by simpa using hl, ?_⟩
    have := hsum (retire .running (goto .crc1 (upd b { stored b s with rem := s.rem - 1 }))) rfl rfl rfl rfl
    rwa [show s.wp + 1 - 2 = 3 + s.len.toNat by omega] at this
  · rw [if_neg (show ¬(stored b s).rem - 1 = 0 from hz)]
    have hz' : s.rem.toNat ≠ 1 := fun e => hz (BitVec.eq_of_toNat_eq (by rw [hsub, e]; rfl))
    simp only [FramerOk, retire_st, goto_st, stored_st, hst]
    refine ⟨by simp; omega, by simp; omega, by simp; omega, by simpa using hl, ?_⟩
    exact hsum _ rfl rfl rfl rfl

theorem byteCrc1_inv {b : Byte} {s : State} (h : Inv s) (hst : s.st = .crc1) :
    ∃ t, byteCrc1 b s = .next t ∧ Framing t := by
  have hcap := h.cap
  have hf := h.framer
  simp only [FramerOk, hst] at hf
  obtain ⟨hwp, hr, hl, hs⟩ := hf
  have hl' := legalLength_iff.1 hl
  unfold byteCrc1
  split
  · rename_i hb
    rw [store_of_lt (by omega)]
    refine ⟨_, rfl, ?_⟩
    obtain ⟨g1, g2, g3⟩ := stored_buffer (b := b) h.bufWf h.bufBound h.written (by omega)
    refine ⟨g1, g2, g3, by simp; omega, ⟨show s.wp + 1 = 6 + s.len.toNat by omega, by simp [hr], by simpa using hl, ?_, ?_⟩,
      header_kept h.header (by omega) rfl rfl rfl⟩
    · show SumsOver _ (3 + s.len.toNat)
      exact sums_same hs (b := b) (w := s.wp) rfl (by omega) rfl rfl rfl
    · simp [← hwp, hb]
  · exact ⟨_, rfl, (raise_inv h _).framing⟩

/-! ## The dispatch keeps the invariant's facts about the record -/

/-- What every iteration of the walk keeps about the record and the present list: the count is the list's length, each
decoded sub-record took at least four message bytes, and R26, R27. -/
structure WalkOk (c : Cfg) (n : Byte) (s : State) : Prop where
  cfg : s.cfg = c
  len : s.len = n
  cur : s.cur.toNat ≤ n.toNat
  count : s.pcount.toNat = s.present.length
  size : 4 * s.present.length ≤ s.cur.toNat
  oneSensor : c.dual = false → s.record.temp2 = 0 ∧ s.record.acc2 = ⟨0, 0, 0⟩ ∧ s.record.gyro2 = ⟨0, 0, 0⟩
  noLocation : s.record.locPrec = .none → s.record.lat = 0 ∧ s.record.lon = 0 ∧ s.record.alt = 0

theorem walkOk_begin (s : State) : WalkOk s.cfg s.len (dispatchBegin s) :=
  ⟨rfl, rfl, by simp, by simp, by simp, fun _ => ⟨rfl, rfl, rfl⟩, fun _ => ⟨rfl, rfl, rfl⟩⟩

theorem recordWith_oneSensor {i : Instr} {k : Kind} {c : Cfg} {id : Byte} {r : SensorRecord} (hr : rowOf i = some k)
    (hid : c.idOf k = some id) (hd : c.dual = false) :
    (recordWith i r).temp2 = r.temp2 ∧ (recordWith i r).acc2 = r.acc2 ∧ (recordWith i r).gyro2 = r.gyro2 := by
  cases i <;> first
    | exact ⟨rfl, rfl, rfl⟩
    | (simp only [rowOf, Option.some.injEq] at hr; subst hr; simp [Cfg.idOf, hd] at hid)

theorem recordWith_noLocation {i : Instr} {r : SensorRecord} (h : (recordWith i r).locPrec = .none) :
    r.locPrec = .none ∧ (recordWith i r).lat = r.lat ∧ (recordWith i r).lon = r.lon ∧ (recordWith i r).alt = r.alt := by
  cases i <;> first
    | exact ⟨h, rfl, rfl, rfl⟩
    | (exact absurd h (by simp [recordWith]))

theorem walkOk_step {c : Cfg} {n : Byte} (u v : State) (h : WalkOk c n u) (hg : walkGoesOn u = true)
    (hv : walkStep u = .next v) : WalkOk c n v := by
  have hlt : u.cur.toNat < u.len.toNat := by simpa [walkGoesOn] using hg
  have hlen := h.len
  have hb := n.isLt
  rcases walkStep_cases hg with ⟨b, -, hs⟩ | ⟨k, id, i, -, hr, hid, hfit, hs⟩
  · obtain rfl := Host.Outcome.next.inj (hs.symm.trans hv)
    have hc : (advance 1 u).cur.toNat = u.cur.toNat + 1 := by
      rw [advance_cur, advance_cur_toNat (by omega)]
    exact ⟨h.cfg, h.len, by rw [hc, ← hlen]; omega, h.count, by rw [hc]; simpa using Nat.le_succ_of_le h.size,
      h.oneSensor, h.noLocation⟩
  · obtain rfl := Host.Outcome.next.inj (hs.symm.trans hv)
    have hc : (decoded id (k.expLen u.cfg) (recordWith i u.record) u).cur.toNat = u.cur.toNat + (2 + k.expLen u.cfg) := by
      rw [decoded_cur, advance_cur_toNat hfit]
    have hp := Kind.expLen_pos u.cfg k
    have hsz := h.size
    refine ⟨h.cfg, h.len, by rw [hc, ← hlen]; omega, ?_, by rw [hc]; simp; omega, fun hd => ?_, fun hn => ?_⟩
    · have hc := h.count
      have hlt := u.pcount.isLt
      simp only [decoded_pcount, decoded_present, List.length_append, List.length_singleton, BitVec.toNat_add]
      rw [hc, show (1 : BitVec 7).toNat = 1 from rfl, Nat.mod_eq_of_lt]
      have : u.cur.toNat < 256 := u.cur.isLt
      omega
    · rw [h.cfg] at hid
      obtain ⟨e1, e2, e3⟩ := recordWith_oneSensor (r := u.record) hr hid hd
      simp only [decoded_record, e1, e2, e3]
      exact h.oneSensor hd
    · obtain ⟨e0, e1, e2, e3⟩ := recordWith_noLocation hn
      simp only [decoded_record, e1, e2, e3]
      exact h.noLocation e0

theorem byteCrc2_inv {b : Byte} {s : State} (h : Inv s) (hst : s.st = .crc2) :
    ∃ t, byteCrc2 b s = .next t ∧ Inv t := by
  have hcap := h.cap
  have hf := h.framer
  simp only [FramerOk, hst] at hf
  obtain ⟨hwp, hr, hl, hs, -⟩ := hf
  have hl' := legalLength_iff.1 hl
  unfold byteCrc2
  split
  · rename_i hb
    rw [store_of_lt (by omega)]
    obtain ⟨g1, g2, g3⟩ := stored_buffer (b := b) h.bufWf h.bufBound h.written (by omega)
    obtain ⟨t, w, ht, hw, -, -, hfr⟩ := runDispatch_next (WalkOk s.cfg s.len) (s := stored b s)
      (by simp [HDR_BYTES]; omega) (walkOk_begin (stored b s)) walkOk_step
    refine ⟨completeFrame t, by simp [ht], ?_⟩
    rw [hfr]
    refine Standing.inv ⟨h.cfgOk, rfl, satInc_le _ _, h.failBound, hw.count, ?_, hw.oneSensor, hw.noLocation⟩
      ⟨g1, g2, g3, ?_, ?_, header_kept h.header (by omega) rfl rfl rfl⟩
    · have := hw.size
      have := hw.cur
      simp only [PCAP, completeFrame_present]
      omega
    · show s.wp + 1 ≤ 206
      omega
    · show s.wp + 1 ≤ 206
      omega
  · exact ⟨_, rfl, raise_inv h _⟩

/-! ## Every byte-feed step -/

/-- A byte-feed step from a good state answers a good state (R100, R34). -/
theorem byteStep_inv {s : State} (h : Inv s) (b : Byte) : ∃ t, byteStep b s = .next t ∧ Inv t := by
  have key : ∀ r, byteStep b s = r → (∃ t, r = .next t ∧ Framing t) → s.st ≠ .crc2 →
      ∃ t, byteStep b s = .next t ∧ Inv t := by
    rintro r hr ⟨t, rfl, hf⟩ hne
    refine ⟨t, hr, ?_⟩
    rcases byteStep_cases hr with q | ⟨x, -, rfl⟩ | c
    · exact (q.standing h.standing).inv hf
    · exact raise_inv h x
    · exact absurd c.st hne
  match hst : s.st with
  | .header1 =>
    obtain ⟨t, ht, hf⟩ := byteH1_inv (b := b) h
    exact key _ (by simp [byteStep, hst]) ⟨t, ht, hf hst⟩ (by simp [hst])
  | .header2 => exact key _ (by simp [byteStep, hst]) (byteH2_inv (b := b) h hst) (by simp [hst])
  | .tidLow => exact key _ (by simp [byteStep, hst]) (byteTidl_inv (b := b) h hst) (by simp [hst])
  | .tidHigh => exact key _ (by simp [byteStep, hst]) (byteTidh_inv (b := b) h hst) (by simp [hst])
  | .length => exact key _ (by simp [byteStep, hst]) (byteLen_inv (b := b) h hst) (by simp [hst])
  | .message => exact key _ (by simp [byteStep, hst]) (byteMsg_inv (b := b) h hst) (by simp [hst])
  | .crc1 => exact key _ (by simp [byteStep, hst]) (byteCrc1_inv (b := b) h hst) (by simp [hst])
  | .crc2 =>
    obtain ⟨t, ht, hi⟩ := byteCrc2_inv (b := b) h hst
    exact ⟨t, by simpa [byteStep, hst] using ht, hi⟩
  | .invalid low => exact absurd h.framer (by simp [FramerOk, hst])

end Sys2Proof.Machine
end

