-- ==== Sys2Proof/Laws/Scanner.lean ====
section
/-! SUPPORT. What a byte-feed step, and the scanner over it, can do from a good state: they always answer, stay good, and
leave the configuration, the port and the counter of resets alone (spec/44_scanner.md R180, spec/60_exceptions.md R229);
and where the search for candidates ends up (R183). -/

namespace Sys2Proof.Machine

theorem events_append (as bs : List Output) : events (as ++ bs) = events as + events bs := by
  induction as with
  | nil => simp [events]
  | cons o as ih => cases o <;> simp [events, ih]; omega

/-- The invariant does not look at the port and the outputs. -/
theorem Inv.withOutputs {s t : State} (h : Inv s) (e : t = { s with port := t.port, out := t.out }) : Inv t := by
  rw [e]
  exact ⟨h.cfgOk, h.idle, h.bufWf, h.bufBound, h.written, h.wpBound, h.framer, h.header, h.doneBound, h.failBound,
    h.presentCount, h.presentBound, h.oneSensor, h.noLocation⟩

/-- What feeding bytes silently leaves alone: the configuration, the port, the count of resets; the trace counters do not go
down, the outputs gain events only, and without one the record is as it was. -/
structure Kept (s t : State) : Prop where
  cfg : t.cfg = s.cfg
  port : t.port = s.port
  epoch : t.epoch = s.epoch
  done : s.cntDone ≤ t.cntDone
  fail : s.cntFail ≤ t.cntFail
  quiet : events t.out = events s.out →
    t.record = s.record ∧ t.present = s.present ∧ t.pcount = s.pcount ∧ t.cntDone = s.cntDone
  mono : events s.out ≤ events t.out
  outs : ∃ evs : List (BitVec 16 × SensorRecord × List Byte),
    t.out = s.out ++ evs.map fun e => .complete e.1 e.2.1 e.2.2

theorem Kept.refl (s : State) : Kept s s :=
  ⟨rfl, rfl, rfl, le_refl _, le_refl _, fun _ => ⟨rfl, rfl, rfl, rfl⟩, le_refl _, [], by simp⟩

theorem Kept.trans {s t u : State} (h : Kept s t) (k : Kept t u) : Kept s u := by
  obtain ⟨e1, h1⟩ := h.outs
  obtain ⟨e2, h2⟩ := k.outs
  refine ⟨k.cfg.trans h.cfg, k.port.trans h.port, k.epoch.trans h.epoch, h.done.trans k.done, h.fail.trans k.fail,
    fun he => ?_, h.mono.trans k.mono, e1 ++ e2, by simp [h1, h2]⟩
  have hm := h.mono
  have km := k.mono
  obtain ⟨a1, a2, a3, a4⟩ := h.quiet (by omega)
  obtain ⟨b1, b2, b3, b4⟩ := k.quiet (by omega)
  exact ⟨b1.trans a1, b2.trans a2, b3.trans a3, b4.trans a4⟩

theorem byteStep_kept {s t : State} {b : Byte} (h : Inv s) (hs : byteStep b s = .next t) : Kept s t := by
  rcases byteStep_cases hs with q | ⟨x, -, rfl⟩ | c
  · rw [q.frame]
    exact ⟨rfl, rfl, rfl, le_refl _, le_refl _, fun _ => ⟨rfl, rfl, rfl, rfl⟩, le_refl _, [], by simp⟩
  · refine ⟨rfl, rfl, rfl, le_refl _, ?_, fun _ => ⟨rfl, rfl, rfl, rfl⟩, le_refl _, [], by simp⟩
    simp only [raise_cntFail]
    split
    · exact le_satInc h.failBound
    · exact le_refl _
  · obtain ⟨u, hu, rfl⟩ := c.run
    obtain ⟨t', w, h1, -, -, -, h2⟩ :=
      runDispatch_next (fun _ => True) (runDispatch_eq_next hu) trivial (fun _ _ _ _ _ => trivial)
    rw [hu] at h1
    cases h1
    rw [h2]
    refine ⟨rfl, rfl, rfl, le_satInc h.doneBound, le_refl _, fun he => ?_, ?_, [(s.tid, w.record, w.present)], rfl⟩
    · simp [completeFrame, retire, events_append, events] at he
    · simp [completeFrame, retire, events_append]

/-- Phase 1 of the scanner (R182). -/
theorem scanContinue_next (src : List Byte) : ∀ (n pos : Nat) (s : State), Inv s →
    ∃ p, scanContinue src n pos s = .next p ∧ Inv p.state ∧ Kept s p.state := by
  intro n
  induction n with
  | zero => intro pos s h; exact ⟨_, rfl, h, .refl s⟩
  | succ n ih =>
    intro pos s h
    rw [scanContinue]
    split
    · exact ⟨_, rfl, h, .refl s⟩
    · split
      · exact ⟨_, rfl, h, .refl s⟩
      · rename_i b _
        obtain ⟨t, ht, hi⟩ := byteStep_inv h b
        rw [ht, andThen_next]
        obtain ⟨p, hp, hpi, hk⟩ := ih _ t hi
        exact ⟨p, hp, hpi, (byteStep_kept h ht).trans hk⟩

/-- The trial of a candidate (R184). -/
theorem scanTry_next (src : List Byte) : ∀ (n q : Nat) (s : State), Inv s →
    ∃ r, scanTry src n q s = .next r ∧ Inv r.state ∧ Kept s r.state := by
  intro n
  induction n with
  | zero => intro q s h; exact ⟨_, rfl, h, .refl s⟩
  | succ n ih =>
    intro q s h
    rw [scanTry]
    split
    · exact ⟨_, rfl, h, .refl s⟩
    · rename_i b _
      obtain ⟨t, ht, hi⟩ := byteStep_inv h b
      rw [ht, andThen_next]
      have hk := byteStep_kept h ht
      split
      · exact ⟨_, rfl, hi, hk⟩
      · split
        · exact ⟨_, rfl, hi, hk⟩
        · obtain ⟨r, hr, hri, hrk⟩ := ih _ t hi
          exact ⟨r, hr, hri, hk.trans hrk⟩

/-- Phase 2 of the scanner (R183 to R187). -/
theorem scanSearch_next (src : List Byte) : ∀ (n pos : Nat) (s : State), Inv s →
    ∃ t, scanSearch src n pos s = .next t ∧ Inv t ∧ Kept s t := by
  intro n
  induction n with
  | zero => intro pos s h; exact ⟨_, rfl, h, .refl s⟩
  | succ n ih =>
    intro pos s h
    rw [scanSearch]
    split
    · exact ⟨_, rfl, h, .refl s⟩
    · rename_i cand _
      obtain ⟨r, hr, hi, hk⟩ := scanTry_next src src.length cand s h
      rw [hr, andThen_next]
      split
      · obtain ⟨t, ht, hti, htk⟩ := ih r.q r.state hi
        exact ⟨t, ht, hti, hk.trans htk⟩
      · obtain ⟨t, ht, hti, htk⟩ := ih (cand + 2) r.state hi
        exact ⟨t, ht, hti, hk.trans htk⟩
      · exact ⟨_, rfl, hi, hk⟩

/-- The whole scan (R180). -/
theorem runScan_next (src : List Byte) {s : State} (h : Inv s) : ∃ t, runScan src s = .next t ∧ Inv t ∧ Kept s t := by
  obtain ⟨p, hp, hi, hk⟩ := scanContinue_next src (src.length + 1) 0 s h
  rw [runScan, hp, andThen_next]
  split
  · obtain ⟨t, ht, hti, htk⟩ := scanSearch_next src (src.length + 1) p.pos p.state hi
    exact ⟨t, ht, hti, hk.trans htk⟩
  · exact ⟨_, rfl, hi, hk⟩

/-- The header test, spelt out (R183). -/
theorem candidate_iff (c : Cfg) (src : List Byte) (p : Nat) : candidate c src p = true ↔
    p + 4 < src.length ∧ src[p]? = some MAGIC1 ∧ src[p + 1]? = some MAGIC2 ∧
      ∃ l, src[p + 4]? = some l ∧ 4 ≤ l.toNat ∧ l.toNat < 200 := by
  unfold candidate
  cases c.scanTail
  simp only [tailAllows, Bool.and_eq_true, decide_eq_true_eq, beq_iff_eq, and_assoc]
  refine and_congr Iff.rfl (and_congr Iff.rfl (and_congr Iff.rfl ?_))
  cases src[p + 4]? with
  | none => simp [Option.elim]
  | some l => simp [Option.elim, legalLength_iff]

/-- The header test in a buffer that starts `d` bytes later. -/
theorem candidate_drop (c : Cfg) (src : List Byte) (d p : Nat) :
    candidate c (src.drop d) p = candidate c src (d + p) := by
  rw [Bool.eq_iff_iff, candidate_iff, candidate_iff]
  simp only [List.getElem?_drop, List.length_drop, ← Nat.add_assoc]
  exact and_congr (by omega) Iff.rfl

/-- The next candidate in a buffer that starts `d` bytes later. -/
theorem nextCandidate_drop (c : Cfg) (src : List Byte) (d pos : Nat) :
    nextCandidate c src (d + pos) = (nextCandidate c (src.drop d) pos).map (d + ·) := by
  unfold nextCandidate
  rw [List.length_drop, show src.length - (d + pos) = src.length - d - pos by omega, ← List.map_add_range',
    List.find?_map]
  congr 2
  funext p
  simp [candidate_drop]

/-- The trial of a candidate uses at least one byte where it ends. -/
theorem scanTry_moves (src : List Byte) : ∀ (n q : Nat) (s : State) (r : Trial), scanTry src n q s = .next r →
    q ≤ r.q ∧ (r.verdict ≠ .unfinished → q < r.q) := by
  intro n
  induction n with
  | zero => intro q s r h; cases h; simp
  | succ n ih =>
    intro q s r h
    rw [scanTry] at h
    split at h
    · cases h; simp
    · obtain ⟨t, -, h⟩ := andThen_eq_next.1 h
      split at h
      · cases h; simp
      · split at h
        · cases h; simp
        · have := ih _ _ _ h
          exact ⟨by omega, fun _ => by omega⟩

end Sys2Proof.Machine
end

