-- ==== Sys2Proof/Laws/HostOps.lean ====
section
/-! SUPPORT. What the host operations that feed nothing can do (spec/45_host_operations.md R200, R203, R204), and what
feeding a list of bytes can do. -/

namespace Sys2Proof.Machine

/-- `RESET` answers exactly between operations or before the first reset, for a configuration it accepts. -/
theorem execReset_eq_next {c : Cfg} {s t : State} :
    execReset c s = .next t ↔ s.act ≠ .walking ∧ c.wf = true ∧ t = resetTo c s := by
  unfold execReset
  cases s.act <;> cases c.wf <;> simp [eq_comm]

/-- A reset with a configuration it accepts leaves a good state. -/
theorem resetTo_inv {c : Cfg} (hc : c.wf = true) (s : State) : Inv (resetTo c s) where
  cfgOk := hc
  idle := rfl
  bufWf := rfl
  bufBound := by simp
  written := by simp
  wpBound := by simp
  framer := by simp [FramerOk]
  header := by refine ⟨?_, ?_, ?_, ?_, ?_⟩ <;> simp
  doneBound := by simp
  failBound := by simp
  presentCount := rfl
  presentBound := by simp
  oneSensor := fun _ => ⟨rfl, rfl, rfl⟩
  noLocation := fun _ => ⟨rfl, rfl, rfl⟩

theorem feedAll_cons {b : Byte} {bs : List Byte} {s t : State} (h : byteStep b s = .next t) :
    feedAll (b :: bs) s = feedAll bs (reportStatus t) := by
  simp [feedAll, h]

theorem feedAll_append (as bs : List Byte) (s : State) :
    feedAll (as ++ bs) s = andThen (feedAll as s) (feedAll bs) := by
  induction as generalizing s with
  | nil => rfl
  | cons a as ih =>
    simp only [List.cons_append, feedAll, andThen_assoc]
    congr 1
    funext t
    exact ih t

/-- Feeding bytes silently from a good state always answers, and stays good. -/
theorem feedSilent_next : ∀ (bs : List Byte) {s : State}, Inv s → ∃ t, feedSilent bs s = .next t ∧ Inv t ∧ Kept s t := by
  intro bs
  induction bs with
  | nil => intro s h; exact ⟨s, rfl, h, .refl s⟩
  | cons b bs ih =>
    intro s h
    obtain ⟨u, hu, hi⟩ := byteStep_inv h b
    obtain ⟨t, h1, h2, h3⟩ := ih hi
    exact ⟨t, by simp [feedSilent, hu, h1], h2, (byteStep_kept h hu).trans h3⟩

/-- Feeding bytes from a good state always answers, and stays good. -/
theorem feedAll_next : ∀ (bs : List Byte) {s : State}, Inv s → ∃ t, feedAll bs s = .next t ∧ Inv t ∧ t.cfg = s.cfg ∧
    s.cntDone ≤ t.cntDone ∧ s.cntFail ≤ t.cntFail ∧ events s.out ≤ events t.out ∧
    (events t.out = events s.out →
      t.record = s.record ∧ t.present = s.present ∧ t.pcount = s.pcount ∧ t.cntDone = s.cntDone) := by
  intro bs
  induction bs with
  | nil => intro s h; exact ⟨s, rfl, h, rfl, le_refl _, le_refl _, le_refl _, fun _ => ⟨rfl, rfl, rfl, rfl⟩⟩
  | cons b bs ih =>
    intro s h
    obtain ⟨u, hu, hi⟩ := byteStep_inv h b
    have hk := byteStep_kept h hu
    obtain ⟨t, h1, h2, h3, h4, h5, h6, h7⟩ := ih (s := reportStatus u) (hi.withOutputs rfl)
    have hev : events (reportStatus u).out = events u.out := by simp [reportStatus, emit, events_append, events]
    have hm := hk.mono
    refine ⟨t, by rw [feedAll_cons hu, h1], h2, h3.trans hk.cfg, hk.done.trans h4, hk.fail.trans h5, by omega, fun e => ?_⟩
    obtain ⟨a1, a2, a3, a4⟩ := hk.quiet (by omega)
    obtain ⟨b1, b2, b3, b4⟩ := h7 (by omega)
    exact ⟨b1.trans a1, b2.trans a2, b3.trans a3, b4.trans a4⟩

end Sys2Proof.Machine
end

