-- ==== Sys2Proof/Laws/Observe.lean ====
section
/-! SUPPORT. What the observation of a run can be (spec/00_scope.md R9): it goes with the run step by step, and its readable
state is that of the state the run ends in. -/

namespace Sys2Proof.Machine

@[simp] theorem Observation.after_outputs (os : List Output) (o : Observation) : (o.after os).outputs = os ++ o.outputs := rfl
@[simp] theorem Observation.after_final (os : List Output) (o : Observation) : (o.after os).final = o.final := rfl
@[simp] theorem observe_zero (s : State) : observe 0 s = ⟨[], s.readable⟩ := rfl

/-- A step that answers puts its outputs in front. -/
theorem observe_succ {s t : State} (h : step s = .next t) (n : Nat) : observe (n + 1) s = (observe n t).after t.out := by
  simp only [observe, h]

/-- One step of a run that answers. -/
theorem run_succ_eq_next {n : Nat} {s t : State} :
    Host.Core.run Sys2Proof.core (n + 1) s = .next t ↔
      ∃ u, step s = .next u ∧ Host.Core.run Sys2Proof.core n u = .next t := by
  cases h : step s <;>
    (have h' : Sys2Proof.core.step s = _ := h
     simp only [Host.Core.run, h'])
  case next u => exact ⟨fun e => ⟨u, rfl, e⟩, fun ⟨v, hv, e⟩ => by cases hv; exact e⟩
  all_goals simp

/-- An observation ends with the readable state of the state that the run ends in (R9). -/
theorem observe_final {n : Nat} {s t : State} (h : Host.Core.run Sys2Proof.core n s = .next t) :
    (observe n s).final = t.readable := by
  induction n generalizing s with
  | zero => cases h; rfl
  | succ n ih =>
    obtain ⟨u, hu, hr⟩ := run_succ_eq_next.1 h
    rw [observe_succ hu, Observation.after_final, ih hr]

/-- The observation of a run continued is the two observations, one after the other. -/
theorem observe_add {n : Nat} {s t : State} (h : Host.Core.run Sys2Proof.core n s = .next t) (m : Nat) :
    observe (n + m) s = (observe m t).after (observe n s).outputs := by
  induction n generalizing s with
  | zero => cases h; simp [Observation.after]
  | succ n ih =>
    obtain ⟨u, hu, hr⟩ := run_succ_eq_next.1 h
    rw [Nat.succ_add, observe_succ hu, observe_succ hu, ih hr]
    simp [Observation.after]

end Sys2Proof.Machine
end

