-- ==== Sys2Proof/Laws/PerInstr.lean ====
section
/-! SUPPORT. One statement about every instruction as syntax: its code has the format its row of spec/opcode_table.json has
(spec/30_encoding.md R83), and a sub-record's code is its header and as many data bytes as its row expects (R64, R65). -/

namespace Sys2Proof.Laws

open Sys2Proof.Machine (rowOf)

/-- The row formats of R83. -/
inductive RowFormat where
  | fsm | frame | sr | host | int
deriving DecidableEq, Repr

/-- The format of a code. -/
def formatOfCode : Code → RowFormat
  | .fsm _ _ => .fsm
  | .wire _ => .frame
  | .message _ => .sr
  | .host _ => .host
  | .internal _ => .int

/-- The format column of the opcode table. -/
def formatOfRow : Instr → RowFormat
  | .h1 _ | .h2 _ | .tidl _ | .tidh _ | .len _ | .msg _ | .crc1 _ | .crc2 _ | .badst _ _ => .fsm
  | .frame _ _ _ => .frame
  | .temp _ | .acc _ | .gyro _ | .facc _ | .dvel _ | .vel _ | .magn _ | .magr _ | .eul _ | .quat _ | .dquat _
  | .loc _ _ _ | .loch _ _ _ | .tss _ | .tsd _ | .temp2 _ | .acc2 _ | .gyro2 _ | .noise _ => .sr
  | .reset _ | .feed _ | .scan _ | .rdtrace | .rdrec => .host
  | .dispatch | .upd _ | .clr => .int

/-- The code of a well-formed instruction has its row's format; a sub-record's is its id byte, the expected length and that
many data bytes. -/
def EncodedForm.Statement (i : Instr) : Prop :=
  ∀ c : Cfg, i.wf c = true → formatOfCode (encode c i) = formatOfRow i ∧
    ∀ k, rowOf i = some k → ∃ id data, c.idOf k = some id ∧
      encode c i = .message (id :: BitVec.ofNat 8 (k.expLen c) :: data) ∧ data.length = k.expLen c

/-- An instruction that is no sub-record. -/
theorem encodedForm_other {i : Instr} (hr : rowOf i = none)
    (hf : ∀ c, formatOfCode (encode c i) = formatOfRow i) : EncodedForm.Statement i :=
  fun c _ => ⟨hf c, fun k hk => by rw [hr] at hk; cases hk⟩

/-- A sub-record, from its data bytes. -/
theorem encodedForm_sub {i : Instr} {k : Kind} (data : List Byte) (hr : rowOf i = some k) (hs : formatOfRow i = .sr)
    (he : ∀ c, encode c i = .message (encodeSub c k data))
    (hw : ∀ c, i.wf c = true → (c.idOf k).isSome = true ∧ data.length = k.expLen c) : EncodedForm.Statement i := by
  intro c h
  refine ⟨by rw [he, hs]; rfl, fun k' hk => ?_⟩
  rw [hr] at hk
  cases hk
  obtain ⟨h1, h2⟩ := hw c h
  obtain ⟨id, hid⟩ := Option.isSome_iff_exists.1 h1
  exact ⟨id, data, hid, by rw [he, encodeSub, hid]; rfl, h2⟩

theorem EncodedForm.h1 (b : Byte) : EncodedForm.Statement (.h1 b) := encodedForm_other rfl fun _ => rfl
theorem EncodedForm.h2 (b : Byte) : EncodedForm.Statement (.h2 b) := encodedForm_other rfl fun _ => rfl
theorem EncodedForm.tidl (b : Byte) : EncodedForm.Statement (.tidl b) := encodedForm_other rfl fun _ => rfl
theorem EncodedForm.tidh (b : Byte) : EncodedForm.Statement (.tidh b) := encodedForm_other rfl fun _ => rfl
theorem EncodedForm.len (b : Byte) : EncodedForm.Statement (.len b) := encodedForm_other rfl fun _ => rfl
theorem EncodedForm.msg (b : Byte) : EncodedForm.Statement (.msg b) := encodedForm_other rfl fun _ => rfl
theorem EncodedForm.crc1 (b : Byte) : EncodedForm.Statement (.crc1 b) := encodedForm_other rfl fun _ => rfl
theorem EncodedForm.crc2 (b : Byte) : EncodedForm.Statement (.crc2 b) := encodedForm_other rfl fun _ => rfl
theorem EncodedForm.badst (low : BitVec 3) (b : Byte) : EncodedForm.Statement (.badst low b) := encodedForm_other rfl fun _ => rfl
theorem EncodedForm.frame (tid : BitVec 16) (len : Byte) (body : List Byte) : EncodedForm.Statement (.frame tid len body) := encodedForm_other rfl fun _ => rfl
theorem EncodedForm.temp (v : BitVec 16) : EncodedForm.Statement (.temp v) :=
  encodedForm_sub (leBytes 2 v.toNat) rfl rfl (fun _ => rfl) (fun _ _ => ⟨rfl, by simp [Kind.expLen, Kind.format, Format.dataLength]⟩)
theorem EncodedForm.acc (v : Lanes3) : EncodedForm.Statement (.acc v) :=
  encodedForm_sub (bytesLanes3 v) rfl rfl (fun _ => rfl) (fun _ _ => ⟨rfl, by simp [Kind.expLen, Kind.format, Format.dataLength]⟩)
theorem EncodedForm.gyro (v : Lanes3) : EncodedForm.Statement (.gyro v) :=
  encodedForm_sub (bytesLanes3 v) rfl rfl (fun _ => rfl) (fun _ _ => ⟨rfl, by simp [Kind.expLen, Kind.format, Format.dataLength]⟩)
theorem EncodedForm.facc (v : Lanes3) : EncodedForm.Statement (.facc v) :=
  encodedForm_sub (bytesLanes3 v) rfl rfl (fun _ => rfl) (fun _ _ => ⟨rfl, by simp [Kind.expLen, Kind.format, Format.dataLength]⟩)
theorem EncodedForm.dvel (v : Lanes3) : EncodedForm.Statement (.dvel v) :=
  encodedForm_sub (bytesLanes3 v) rfl rfl (fun _ => rfl) (fun _ _ => ⟨rfl, by simp [Kind.expLen, Kind.format, Format.dataLength]⟩)
theorem EncodedForm.vel (v : Lanes3) : EncodedForm.Statement (.vel v) :=
  encodedForm_sub (bytesLanes3 v) rfl rfl (fun _ => rfl) (fun _ _ => ⟨rfl, by simp [Kind.expLen, Kind.format, Format.dataLength]⟩)
theorem EncodedForm.magn (v : Lanes3) : EncodedForm.Statement (.magn v) :=
  encodedForm_sub (bytesLanes3 v) rfl rfl (fun _ => rfl) (fun _ _ => ⟨rfl, by simp [Kind.expLen, Kind.format, Format.dataLength]⟩)
theorem EncodedForm.magr (v : Lanes3) : EncodedForm.Statement (.magr v) :=
  encodedForm_sub (bytesLanes3 v) rfl rfl (fun _ => rfl) (fun _ _ => ⟨rfl, by simp [Kind.expLen, Kind.format, Format.dataLength]⟩)
theorem EncodedForm.eul (v : Lanes3) : EncodedForm.Statement (.eul v) :=
  encodedForm_sub (bytesLanes3 v) rfl rfl (fun _ => rfl) (fun _ _ => ⟨rfl, by simp [Kind.expLen, Kind.format, Format.dataLength]⟩)
theorem EncodedForm.quat (v : Lanes4) : EncodedForm.Statement (.quat v) :=
  encodedForm_sub (bytesLanes4 v) rfl rfl (fun _ => rfl) (fun _ _ => ⟨rfl, by simp [Kind.expLen, Kind.format, Format.dataLength]⟩)
theorem EncodedForm.dquat (v : Lanes4) : EncodedForm.Statement (.dquat v) :=
  encodedForm_sub (bytesLanes4 v) rfl rfl (fun _ => rfl) (fun _ _ => ⟨rfl, by simp [Kind.expLen, Kind.format, Format.dataLength]⟩)
theorem EncodedForm.loc (lat lon alt : BitVec 32) : EncodedForm.Statement (.loc lat lon alt) :=
  encodedForm_sub (bytes32 lat ++ (bytes32 lon ++ bytes32 alt)) rfl rfl (fun _ => rfl) (fun _ _ => ⟨rfl, by simp [Kind.expLen, Kind.format, Format.dataLength]⟩)
theorem EncodedForm.loch (lat lon : BitVec 64) (alt : Altitude) : EncodedForm.Statement (.loch lat lon alt) :=
  encodedForm_sub (bytes64 lat ++ (bytes64 lon ++ bytesAltitude alt)) rfl rfl (fun _ => rfl) (by
    refine fun c h => ⟨rfl, ?_⟩
    have h : alt.fits c = true := h
    cases alt <;> simp only [Altitude.fits, beq_iff_eq] at h <;>
      simp [Kind.expLen, Kind.format, Format.dataLength, HpAlt.bytes, bytesAltitude, h])
theorem EncodedForm.tss (v : BitVec 32) : EncodedForm.Statement (.tss v) :=
  encodedForm_sub (bytes32 v) rfl rfl (fun _ => rfl) (fun _ _ => ⟨rfl, by simp [Kind.expLen, Kind.format, Format.dataLength]⟩)
theorem EncodedForm.tsd (v : BitVec 32) : EncodedForm.Statement (.tsd v) :=
  encodedForm_sub (bytes32 v) rfl rfl (fun _ => rfl) (fun _ _ => ⟨rfl, by simp [Kind.expLen, Kind.format, Format.dataLength]⟩)
theorem EncodedForm.temp2 (v : BitVec 16) : EncodedForm.Statement (.temp2 v) :=
  encodedForm_sub (leBytes 2 v.toNat) rfl rfl (fun _ => rfl) (fun _ h => ⟨h, by simp [Kind.expLen, Kind.format, Format.dataLength]⟩)
theorem EncodedForm.acc2 (v : Lanes3) : EncodedForm.Statement (.acc2 v) :=
  encodedForm_sub (bytesLanes3 v) rfl rfl (fun _ => rfl) (fun _ h => ⟨h, by simp [Kind.expLen, Kind.format, Format.dataLength]⟩)
theorem EncodedForm.gyro2 (v : Lanes3) : EncodedForm.Statement (.gyro2 v) :=
  encodedForm_sub (bytesLanes3 v) rfl rfl (fun _ => rfl) (fun _ h => ⟨h, by simp [Kind.expLen, Kind.format, Format.dataLength]⟩)
theorem EncodedForm.noise (b : Byte) : EncodedForm.Statement (.noise b) := encodedForm_other rfl fun _ => rfl
theorem EncodedForm.reset (c : Cfg) : EncodedForm.Statement (.reset c) := encodedForm_other rfl fun _ => rfl
theorem EncodedForm.feed (b : Byte) : EncodedForm.Statement (.feed b) := encodedForm_other rfl fun _ => rfl
theorem EncodedForm.scan (src : List Byte) : EncodedForm.Statement (.scan src) := encodedForm_other rfl fun _ => rfl
theorem EncodedForm.rdtrace : EncodedForm.Statement (.rdtrace) := encodedForm_other rfl fun _ => rfl
theorem EncodedForm.rdrec : EncodedForm.Statement (.rdrec) := encodedForm_other rfl fun _ => rfl
theorem EncodedForm.dispatch : EncodedForm.Statement (.dispatch) := encodedForm_other rfl fun _ => rfl
theorem EncodedForm.upd (b : Byte) : EncodedForm.Statement (.upd b) := encodedForm_other rfl fun _ => rfl
theorem EncodedForm.clr : EncodedForm.Statement (.clr) := encodedForm_other rfl fun _ => rfl

end Sys2Proof.Laws
end

