-- ==== Sys2Proof/Tests/Slice0.lean ====
section
/-! SUPPORT. Tests. Expected values are those of spec/95_test_vectors.md (the vector is named beside the test) or worked out by
hand from the rule named; the witnesses at the end show that the hypotheses of the statements can be met. -/

namespace Sys2Proof.Tests

open Sys2Proof.Machine

/-! ## Helpers -/

/-- The outcome is a next state with a property. -/
def holds (r : Res State) (p : State → Bool) : Bool :=
  match r with
  | .next t => p t
  | .fault _ => false
  | .refused _ => false

/-- The outcome is this refusal. -/
def refuses (r : Res State) (x : Refusal) : Bool :=
  match r with
  | .next _ => false
  | .fault _ => false
  | .refused y => x == y

/-- The frame of S7. -/
def s7 : List Byte := [0x59, 0x53, 0x01, 0x00, 0x0E, 0x10, 0x0C, 0x40, 0x42, 0x0F, 0x00, 0x00, 0x00, 0x00, 0x00, 0xC0, 0x76, 0x6A, 0xFF, 0x5B, 0x00]

/-- The state inside the frame of S7 (its table, one row per byte). -/
def s7At (st : FState) (rem c0 c1 : Byte) (wp : Nat) : State :=
  { State.reset with
    st := st, tid := 1, len := 14, rem := rem, c0 := c0, c1 := c1, wp := wp, buf := Memory.writeAll [] 0 (s7.take wp) }

/-- The configuration of V41. -/
def dualCfg : Cfg := { dual := true, idTemp2 := some 0x02, idAcc2 := some 0x18, idGyro2 := some 0x28 }

/-- A dispatch in progress over a message of `n` bytes, under a configuration. -/
def walkingOver (c : Cfg) (m : List Byte) : State :=
  { State.reset with cfg := c, act := .walking, len := BitVec.ofNat 8 m.length, buf := Memory.writeAll [] 5 m }

/-! ## Well-formedness: an ill-formed term for each check, refused -/

theorem test_cfg_default_wf : Cfg.default.wf = true := by decide
theorem test_cfg_cap_205_refused : Cfg.wf { cap := 205 } = false := by decide
theorem test_cfg_cap_206_accepted : Cfg.wf { cap := 206 } = true := by decide
theorem test_cfg_double_id_refused : Cfg.wf { ids := { temp := 0x10 } } = false := by decide
theorem test_cfg_dual_without_ids_refused : Cfg.wf { dual := true } = false := by decide
theorem test_cfg_dual_with_ids_accepted : dualCfg.wf = true := by decide
theorem test_cfg_dual_id_taken_refused : Cfg.wf { dualCfg with idAcc2 := some 0x10 } = false := by decide
theorem test_wf_frame_body_short : (Instr.frame 1 4 [0, 0, 0, 0, 4]).wf Cfg.default = false := by decide
theorem test_wf_frame_bad_length_has_no_body : (Instr.frame 1 3 [0]).wf Cfg.default = false := by decide
theorem test_wf_loch_altitude_width : (Instr.loch 0 0 (.w4 0)).wf Cfg.default = false := by decide
theorem test_wf_temp2_needs_dual : (Instr.temp2 0).wf Cfg.default = false := by decide
theorem test_wf_acc2_needs_dual : (Instr.acc2 ⟨0, 0, 0⟩).wf Cfg.default = false := by decide
theorem test_wf_gyro2_needs_dual : (Instr.gyro2 ⟨0, 0, 0⟩).wf Cfg.default = false := by decide
theorem test_wf_reset_bad_config : (Instr.reset { cap := 0 }).wf Cfg.default = false := by decide

/-! ## Decoding: words and bytes written out from the encodings of spec/30_encoding.md -/

theorem test_decode_h1 : decode Cfg.default (.fsm 0b0000 0xA5) = .ok (.h1 0xA5) := by decide
theorem test_decode_h2 : decode Cfg.default (.fsm 0b0001 0xA5) = .ok (.h2 0xA5) := by decide
theorem test_decode_tidl : decode Cfg.default (.fsm 0b0010 0xA5) = .ok (.tidl 0xA5) := by decide
theorem test_decode_tidh : decode Cfg.default (.fsm 0b0011 0xA5) = .ok (.tidh 0xA5) := by decide
theorem test_decode_len : decode Cfg.default (.fsm 0b0100 0xA5) = .ok (.len 0xA5) := by decide
theorem test_decode_msg : decode Cfg.default (.fsm 0b0101 0xA5) = .ok (.msg 0xA5) := by decide
theorem test_decode_crc1 : decode Cfg.default (.fsm 0b0110 0xA5) = .ok (.crc1 0xA5) := by decide
theorem test_decode_crc2 : decode Cfg.default (.fsm 0b0111 0xA5) = .ok (.crc2 0xA5) := by decide
theorem test_decode_badst_first : decode Cfg.default (.fsm 0b1000 0xA5) = .ok (.badst 0 0xA5) := by decide
theorem test_decode_badst_last : decode Cfg.default (.fsm 0b1111 0xA5) = .ok (.badst 7 0xA5) := by decide
/-- V8: the shortest frame. -/
theorem test_decode_frame : decode Cfg.default (.wire [0x59, 0x53, 0x34, 0x12, 0x04, 0, 0, 0, 0, 0x04, 0x14]) =
    .ok (.frame 0x1234 4 [0, 0, 0, 0, 0x04, 0x14]) := by decide
theorem test_decode_frame_truncated : decode Cfg.default (.wire [0x59, 0x53, 0x34, 0x12, 0x04, 0, 0, 0, 0, 0x04]) =
    .error .truncatedFrame := by decide
theorem test_decode_not_a_frame : decode Cfg.default (.wire [0x53, 0x59, 0x34, 0x12, 0x00]) = .error .notAFrame := by decide
theorem test_decode_trailing : decode Cfg.default (.wire [0x59, 0x53, 0, 0, 0x03, 0x59]) = .error .trailingBytes := by decide
theorem test_decode_empty_message : decode Cfg.default (.message []) = .error .endOfMessage := by decide
/-- V40.TEMP. -/
theorem test_decode_temp : decode Cfg.default (.message
    [0x01, 0x02, 0xE6, 0x09]) = .ok (.temp 2534) := by decide
/-- V40.ACC. -/
theorem test_decode_acc : decode Cfg.default (.message
    [0x10, 0x0C, 0x40, 0x42, 0x0F, 0x00, 0x00, 0x00, 0x00, 0x00, 0xC0, 0x76, 0x6A, 0xFF]) = .ok (.acc ⟨1000000, 0, -9800000⟩) := by decide
/-- V40.GYRO. -/
theorem test_decode_gyro : decode Cfg.default (.message
    [0x20, 0x0C, 0x01, 0x00, 0x00, 0x00, 0xFF, 0xFF, 0xFF, 0xFF, 0xFF, 0xFF, 0xFF, 0x7F]) = .ok (.gyro ⟨1, -1, 2147483647⟩) := by decide
/-- V40.FACC. -/
theorem test_decode_facc : decode Cfg.default (.message
    [0x11, 0x0C, 0xA0, 0x1C, 0xE9, 0xFF, 0x90, 0xD0, 0x03, 0x00, 0x00, 0x00, 0x00, 0x00]) = .ok (.facc ⟨-1500000, 250000, 0⟩) := by decide
/-- V40.DVEL. -/
theorem test_decode_dvel : decode Cfg.default (.message
    [0x12, 0x0C, 0x64, 0x00, 0x00, 0x00, 0x9C, 0xFF, 0xFF, 0xFF, 0x05, 0x00, 0x00, 0x00]) = .ok (.dvel ⟨100, -100, 5⟩) := by decide
/-- V40.VEL. -/
theorem test_decode_vel : decode Cfg.default (.message
    [0x70, 0x0C, 0xC0, 0xC6, 0x2D, 0x00, 0x00, 0xF7, 0xC2, 0xFF, 0x00, 0x00, 0x00, 0x00]) = .ok (.vel ⟨3000000, -4000000, 0⟩) := by decide
/-- V40.MAGN. -/
theorem test_decode_magn : decode Cfg.default (.message
    [0x30, 0x0C, 0xC0, 0x27, 0x09, 0x00, 0x00, 0xCB, 0xF3, 0xFF, 0x00, 0x00, 0x00, 0x00]) = .ok (.magn ⟨600000, -800000, 0⟩) := by decide
/-- V40.MAGR. -/
theorem test_decode_magr : decode Cfg.default (.message
    [0x31, 0x0C, 0x39, 0x30, 0x00, 0x00, 0x80, 0xE5, 0xF9, 0xFF, 0xFA, 0x00, 0x00, 0x00]) = .ok (.magr ⟨12345, -400000, 250⟩) := by decide
/-- V40.EUL. -/
theorem test_decode_eul : decode Cfg.default (.message
    [0x40, 0x0C, 0x80, 0x4A, 0x5D, 0x05, 0xA0, 0xB9, 0x49, 0xFD, 0xFF, 0x94, 0xBA, 0x0A]) = .ok (.eul ⟨90000000, -45500000, 179999999⟩) := by decide
/-- V40.QUAT. -/
theorem test_decode_quat : decode Cfg.default (.message
    [0x41, 0x10, 0x40, 0x42, 0x0F, 0x00, 0x00, 0x00, 0x00, 0x00, 0x00, 0x00, 0x00, 0x00, 0x00, 0x00, 0x00, 0x00]) = .ok (.quat ⟨1000000, 0, 0, 0⟩) := by decide
/-- V40.DQUAT. -/
theorem test_decode_dquat : decode Cfg.default (.message
    [0x42, 0x10, 0x3F, 0x42, 0x0F, 0x00, 0xFF, 0xFF, 0xFF, 0xFF, 0x02, 0x00, 0x00, 0x00, 0xFD, 0xFF, 0xFF, 0xFF]) = .ok (.dquat ⟨999999, -1, 2, -3⟩) := by decide
/-- V40.LOC. -/
theorem test_decode_loc : decode Cfg.default (.message
    [0x60, 0x0C, 0xA1, 0xB0, 0xB9, 0x12, 0x80, 0x22, 0x1F, 0x48, 0x39, 0x30, 0x00, 0x00]) = .ok (.loc 314159265 1210000000 12345) := by decide
/-- V40.LOCH. -/
theorem test_decode_loch : decode Cfg.default (.message
    [0x68, 0x18, 0x4E, 0xF6, 0x59, 0x25, 0x49, 0x00, 0x00, 0x00, 0x00, 0x3C, 0x61, 0x46, 0xE6, 0xFE, 0xFF, 0xFF, 0x39, 0x30, 0x00, 0x00, 0x00, 0x00, 0x00, 0x00]) = .ok (.loch 314159265358 (-1210000000000) (.w8 12345)) := by decide
/-- V40.TSS. -/
theorem test_decode_tss : decode Cfg.default (.message
    [0x51, 0x04, 0x40, 0x42, 0x0F, 0x00]) = .ok (.tss 1000000) := by decide
/-- V40.TSD. -/
theorem test_decode_tsd : decode Cfg.default (.message
    [0x52, 0x04, 0x78, 0x56, 0x34, 0x12]) = .ok (.tsd 0x12345678) := by decide
/-- V41. -/
theorem test_decode_temp2 : decode dualCfg (.message
    [0x02, 0x02, 0xE6, 0x09]) = .ok (.temp2 2534) := by decide
/-- V41. -/
theorem test_decode_acc2 : decode dualCfg (.message
    [0x18, 0x0C, 0x40, 0x42, 0x0F, 0x00, 0x00, 0x00, 0x00, 0x00, 0xC0, 0x76, 0x6A, 0xFF]) = .ok (.acc2 ⟨1000000, 0, -9800000⟩) := by decide
/-- V41. -/
theorem test_decode_gyro2 : decode dualCfg (.message
    [0x28, 0x0C, 0x01, 0x00, 0x00, 0x00, 0xFF, 0xFF, 0xFF, 0xFF, 0xFF, 0xFF, 0xFF, 0x7F]) = .ok (.gyro2 ⟨1, -1, 2147483647⟩) := by decide
/-- V42: the high-precision location with a four-byte altitude. -/
theorem test_decode_loch_four : decode { hpAlt := .four } (.message
    [0x68, 0x14, 0xFF, 0xFF, 0xFF, 0xFF, 0xFF, 0xFF, 0xFF, 0xFF, 0x00, 0x00, 0x00, 0x00, 0x00, 0x00, 0x00, 0x80, 0xFB, 0xFF, 0xFF, 0xFF]) =
    .ok (.loch (-1) (-9223372036854775808) (.w4 (-5))) := by decide
/-- V27, V24: a known id without a length byte, and one with a wrong length byte, are noise. -/
theorem test_decode_noise : decode Cfg.default (.message [0x01]) = .ok (.noise 0x01) ∧
    (decodeSub Cfg.default [0x10, 0x04, 0x51, 0x04]).toOption = some (.noise 0x10, [0x04, 0x51, 0x04]) := by decide
theorem test_decode_host_and_internal :
    decode Cfg.default (.host (.feed 0x59)) = .ok (.feed 0x59) ∧ decode Cfg.default (.host .rdtrace) = .ok .rdtrace ∧
    decode Cfg.default (.host .rdrec) = .ok .rdrec ∧ decode Cfg.default (.host (.scan [1])) = .ok (.scan [1]) ∧
    decode Cfg.default (.host (.reset dualCfg)) = .ok (.reset dualCfg) ∧
    decode Cfg.default (.internal .dispatch) = .ok .dispatch ∧
    decode Cfg.default (.internal (.upd 7)) = .ok (.upd 7) ∧ decode Cfg.default (.internal .clr) = .ok .clr := by decide
/-- The table words of the rows, as spec/opcode_table.json writes them. -/
theorem test_table_word_loch : decodeTableWord 16 0x1868 = some (.loch 0 0 (.w8 0)) := by decide
theorem test_table_word_frame_with_length : decodeTableWord 40 0x0400015359 = some (.frame 1 4 [0, 0, 0, 0, 0, 0]) := by decide
theorem test_table_word_crc2 : decodeTableWord 8 0x7 = some (.crc2 0) := by decide

/-! ## The word at the fetch, run from reset -/

theorem test_fetch_h1 : holds (step (State.reset.withFetchWord 8 0x0)) (fun t => t.out == [.status .running]) = true := by decide
theorem test_fetch_badst : holds (step (State.reset.withFetchWord 8 0xF))
    (fun t => t.st == .header1 && t.out == [.status .internalError]) = true := by decide
theorem test_fetch_frame : holds (step (State.reset.withFetchWord 16 0x5359))
    (fun t => t.st == .header1 && t.last == .lengthError && t.out.length == 5) = true := by decide
theorem test_fetch_tss : holds (step (State.reset.withFetchWord 48 0x000F42400451))
    (fun t => t.record.tsSample == 1000000 && t.present == [0x51] && t.cur == 6) = true := by decide

/-! ## Byte operations: rows of the table of S7, and the vectors of 2.2 -/

theorem test_h1_accepts : holds (exec (.h1 0x59) State.reset)
    (fun t => t.st == .header2 && t.wp == 1 && t.out == [.status .running] && t.buf == [(0, 0x59)]) = true := by decide
/-- V15. -/
theorem test_h1_ignores : holds (exec (.h1 0x53) (s7At .header1 0 0x5B 0x00 21))
    (fun t => t.st == .header1 && t.wp == 21 && t.tid == 1) = true := by decide
theorem test_h2_accepts : holds (exec (.h2 0x53) (s7At .header2 0 0 0 1)) (fun t => t.st == .tidLow && t.wp == 2) = true := by decide
/-- V13. -/
theorem test_h2_mismatch : holds (exec (.h2 0x59) (s7At .header2 0 0 0 1))
    (fun t => t.st == .header1 && t.wp == 1 && t.last == .running) = true := by decide
theorem test_tidl : holds (exec (.tidl 0x34) { s7At .tidLow 0 0 0 2 with tid := 0 })
    (fun t => t.st == .tidHigh && t.tid == 0x0034 && t.c0 == 0x34 && t.c1 == 0x34 && t.wp == 3) = true := by decide
/-- V20. -/
theorem test_tidh : holds (exec (.tidh 0x12) { s7At .tidHigh 0 0x34 0x34 3 with tid := 0x0034 })
    (fun t => t.st == .length && t.tid == 0x1234 && t.c0 == 0x46 && t.c1 == 0x7A && t.wp == 4) = true := by decide
/-- S7, index 4. -/
theorem test_len_accepts : holds (exec (.len 0x0E) { s7At .length 0 1 2 4 with len := 0 })
    (fun t => t.st == .message && t.len == 14 && t.rem == 14 && t.c0 == 0x0F && t.c1 == 0x11 && t.wp == 5) = true := by decide
/-- V10a, V10b, V10e, V10f, and V10c, V10d. -/
theorem test_len_bounds : [0, 3, 200, 255].all (fun b => holds (exec (.len b) (s7At .length 0 1 2 4))
    (fun t => t.st == .header1 && t.last == .lengthError && t.wp == 4 && t.c0 == 1 && t.cntFail == 0)) = true ∧
    [4, 199].all (fun b => holds (exec (.len b) (s7At .length 0 1 2 4)) (fun t => t.st == .message && t.rem == b)) = true := by decide
/-- S7, index 15. -/
theorem test_msg : holds (exec (.msg 0xC0) (s7At .message 4 0xBC 0xDB 15))
    (fun t => t.st == .message && t.rem == 3 && t.c0 == 0x7C && t.c1 == 0x57 && t.wp == 16) = true := by decide
/-- S7, index 18. -/
theorem test_msg_last : holds (exec (.msg 0xFF) (s7At .message 1 0x5C 0xA5 18))
    (fun t => t.st == .crc1 && t.rem == 0 && t.c0 == 0x5B && t.c1 == 0x00 && t.wp == 19) = true := by decide
/-- S7, index 19. -/
theorem test_crc1_match : holds (exec (.crc1 0x5B) (s7At .crc1 0 0x5B 0 19))
    (fun t => t.st == .crc2 && t.wp == 20 && t.last == .running && t.cntFail == 0) = true := by decide
/-- V11. -/
theorem test_crc1_mismatch : holds (exec (.crc1 0x5A) (s7At .crc1 0 0x5B 0 19))
    (fun t => t.st == .header1 && t.wp == 19 && t.cntFail == 1 && t.out == [.status .checksumError]) = true := by decide
/-- S7, index 20. -/
theorem test_crc2_match : holds (exec (.crc2 0x00) (s7At .crc2 0 0x5B 0 20))
    (fun t => t.st == .header1 && t.wp == 21 && t.cntDone == 1 && t.cntFail == 0 && t.cur == 0 && t.act == .idle &&
      t.out == [.complete 1 { acc := ⟨1000000, 0, -9800000⟩ } [0x10], .status .done]) = true := by decide
/-- V12. -/
theorem test_crc2_mismatch : holds (exec (.crc2 0x01) (s7At .crc2 0 0x5B 0 20))
    (fun t => t.st == .header1 && t.wp == 20 && t.cntFail == 1 && t.last == .checksumError &&
      t.record == SensorRecord.zero) = true := by decide
/-- V18. -/
theorem test_badst : holds (exec (.badst 1 0x59) { State.reset with st := .invalid 1, tid := 0x1234, cntDone := 5 })
    (fun t => t.st == .header1 && t.tid == 0x1234 && t.cntDone == 5 && t.cntFail == 0 && t.last == .internalError &&
      t.wp == 0) = true := by decide

/-! ## Frames and the checksum -/

/-- V8. -/
theorem test_frame_shortest : holds (exec (.frame 0 4 [0, 0, 0, 0, 0x04, 0x14]) State.reset)
    (fun t => t.wp == 11 && t.c0 == 0x04 && t.c1 == 0x14 && t.cntDone == 1 && t.present == [] &&
      t.out == List.replicate 10 (.status .running) ++ [.complete 0 SensorRecord.zero [], .status .done]) = true := by decide
/-- V7: the third stream. -/
theorem test_frame_crc1_mismatch : holds (exec (.frame 1 4 [0x10, 0x21, 0x2F, 0x40, 0xA5, 0x5B]) State.reset)
    (fun t => t.last == .checksumError && t.cntDone == 0 && t.cntFail == 1) = true := by decide
/-- R91's example. -/
theorem test_upd : holds (exec (.upd 0xC0) { State.reset with c0 := 0xBC, c1 := 0xDB })
    (fun t => t.c0 == 0x7C && t.c1 == 0x57) = true := by decide
theorem test_clr : holds (exec .clr { State.reset with c0 := 0xBC, c1 := 0xDB }) (fun t => t.c0 == 0 && t.c1 == 0) = true := by decide
/-- V1, V3, V5, V6. -/
theorem test_cks : cks [] = (0, 0) ∧ cks [0xFF, 0x01] = (0x00, 0xFF) ∧ cks [0x80, 0x80] = (0x00, 0x80) ∧
    cks (covered 1 0x0E ((s7.drop 5).take 14)) = (0x5B, 0x00) := by decide
/-- R82: the frame notation gives the bytes of S7. -/
theorem test_assembler : encode Cfg.default (validFrame 1 (messageBytes Cfg.default [.sub (.acc ⟨1000000, 0, -9800000⟩)])) =
    .wire s7 := by decide
/-- V22: the counter saturates at `2^CNTW - 1`. -/
theorem test_saturation : satInc { cntw := 2 } 2 = 3 ∧ satInc { cntw := 2 } 3 = 3 := by decide

/-! ## Sub-records: V40 and V41, one operation each -/

/-- V40.TEMP. -/
theorem test_temp : holds (exec (.temp 2534) { State.reset with cfg := Cfg.default, cur := 5, present := [0xAA], pcount := 1 })
    (fun t => t.record == { temp := 2534 } && t.present == [0xAA, 0x01] && t.pcount == 2 && t.cur == 9) = true := by decide
/-- V40.ACC. -/
theorem test_acc : holds (exec (.acc ⟨1000000, 0, -9800000⟩) { State.reset with cfg := Cfg.default, cur := 5, present := [0xAA], pcount := 1 })
    (fun t => t.record == { acc := ⟨1000000, 0, -9800000⟩ } && t.present == [0xAA, 0x10] && t.pcount == 2 && t.cur == 19) = true := by decide
/-- V40.GYRO. -/
theorem test_gyro : holds (exec (.gyro ⟨1, -1, 2147483647⟩) { State.reset with cfg := Cfg.default, cur := 5, present := [0xAA], pcount := 1 })
    (fun t => t.record == { gyro := ⟨1, -1, 2147483647⟩ } && t.present == [0xAA, 0x20] && t.pcount == 2 && t.cur == 19) = true := by decide
/-- V40.FACC. -/
theorem test_facc : holds (exec (.facc ⟨-1500000, 250000, 0⟩) { State.reset with cfg := Cfg.default, cur := 5, present := [0xAA], pcount := 1 })
    (fun t => t.record == { facc := ⟨-1500000, 250000, 0⟩ } && t.present == [0xAA, 0x11] && t.pcount == 2 && t.cur == 19) = true := by decide
/-- V40.DVEL. -/
theorem test_dvel : holds (exec (.dvel ⟨100, -100, 5⟩) { State.reset with cfg := Cfg.default, cur := 5, present := [0xAA], pcount := 1 })
    (fun t => t.record == { dvel := ⟨100, -100, 5⟩ } && t.present == [0xAA, 0x12] && t.pcount == 2 && t.cur == 19) = true := by decide
/-- V40.VEL. -/
theorem test_vel : holds (exec (.vel ⟨3000000, -4000000, 0⟩) { State.reset with cfg := Cfg.default, cur := 5, present := [0xAA], pcount := 1 })
    (fun t => t.record == { vel := ⟨3000000, -4000000, 0⟩ } && t.present == [0xAA, 0x70] && t.pcount == 2 && t.cur == 19) = true := by decide
/-- V40.MAGN. -/
theorem test_magn : holds (exec (.magn ⟨600000, -800000, 0⟩) { State.reset with cfg := Cfg.default, cur := 5, present := [0xAA], pcount := 1 })
    (fun t => t.record == { magn := ⟨600000, -800000, 0⟩ } && t.present == [0xAA, 0x30] && t.pcount == 2 && t.cur == 19) = true := by decide
/-- V40.MAGR. -/
theorem test_magr : holds (exec (.magr ⟨12345, -400000, 250⟩) { State.reset with cfg := Cfg.default, cur := 5, present := [0xAA], pcount := 1 })
    (fun t => t.record == { magr := ⟨12345, -400000, 250⟩ } && t.present == [0xAA, 0x31] && t.pcount == 2 && t.cur == 19) = true := by decide
/-- V40.EUL. -/
theorem test_eul : holds (exec (.eul ⟨90000000, -45500000, 179999999⟩) { State.reset with cfg := Cfg.default, cur := 5, present := [0xAA], pcount := 1 })
    (fun t => t.record == { euler := ⟨90000000, -45500000, 179999999⟩ } && t.present == [0xAA, 0x40] && t.pcount == 2 && t.cur == 19) = true := by decide
/-- V40.QUAT. -/
theorem test_quat : holds (exec (.quat ⟨1000000, 0, 0, 0⟩) { State.reset with cfg := Cfg.default, cur := 5, present := [0xAA], pcount := 1 })
    (fun t => t.record == { quat := ⟨1000000, 0, 0, 0⟩ } && t.present == [0xAA, 0x41] && t.pcount == 2 && t.cur == 23) = true := by decide
/-- V40.DQUAT. -/
theorem test_dquat : holds (exec (.dquat ⟨999999, -1, 2, -3⟩) { State.reset with cfg := Cfg.default, cur := 5, present := [0xAA], pcount := 1 })
    (fun t => t.record == { dquat := ⟨999999, -1, 2, -3⟩ } && t.present == [0xAA, 0x42] && t.pcount == 2 && t.cur == 23) = true := by decide
/-- V40.LOC. -/
theorem test_loc : holds (exec (.loc 314159265 1210000000 12345) { State.reset with cfg := Cfg.default, cur := 5, present := [0xAA], pcount := 1 })
    (fun t => t.record == { lat := 314159265, lon := 1210000000, alt := 12345, locPrec := .standard } && t.present == [0xAA, 0x60] && t.pcount == 2 && t.cur == 19) = true := by decide
/-- V40.LOCH. -/
theorem test_loch : holds (exec (.loch 314159265358 (-1210000000000) (.w8 12345)) { State.reset with cfg := Cfg.default, cur := 5, present := [0xAA], pcount := 1 })
    (fun t => t.record == { lat := 314159265358, lon := -1210000000000, alt := 12345, locPrec := .high } && t.present == [0xAA, 0x68] && t.pcount == 2 && t.cur == 31) = true := by decide
/-- V40.TSS. -/
theorem test_tss : holds (exec (.tss 1000000) { State.reset with cfg := Cfg.default, cur := 5, present := [0xAA], pcount := 1 })
    (fun t => t.record == { tsSample := 1000000 } && t.present == [0xAA, 0x51] && t.pcount == 2 && t.cur == 11) = true := by decide
/-- V40.TSD. -/
theorem test_tsd : holds (exec (.tsd 0x12345678) { State.reset with cfg := Cfg.default, cur := 5, present := [0xAA], pcount := 1 })
    (fun t => t.record == { tsReady := 305419896 } && t.present == [0xAA, 0x52] && t.pcount == 2 && t.cur == 11) = true := by decide
/-- V41. -/
theorem test_temp2 : holds (exec (.temp2 2534) { State.reset with cfg := dualCfg, cur := 5, present := [0xAA], pcount := 1 })
    (fun t => t.record == { temp2 := 2534 } && t.present == [0xAA, 0x02] && t.pcount == 2 && t.cur == 9) = true := by decide
/-- V41. -/
theorem test_acc2 : holds (exec (.acc2 ⟨1000000, 0, -9800000⟩) { State.reset with cfg := dualCfg, cur := 5, present := [0xAA], pcount := 1 })
    (fun t => t.record == { acc2 := ⟨1000000, 0, -9800000⟩ } && t.present == [0xAA, 0x18] && t.pcount == 2 && t.cur == 19) = true := by decide
/-- V41. -/
theorem test_gyro2 : holds (exec (.gyro2 ⟨1, -1, 2147483647⟩) { State.reset with cfg := dualCfg, cur := 5, present := [0xAA], pcount := 1 })
    (fun t => t.record == { gyro2 := ⟨1, -1, 2147483647⟩ } && t.present == [0xAA, 0x28] && t.pcount == 2 && t.cur == 19) = true := by decide
/-- R26: the standard location is sign-extended. -/
theorem test_loc_negative : holds (exec (.loc (-1) (-2) (-3)) State.reset)
    (fun t => t.record.lat == -1 && t.record.lon == -2 && t.record.alt == -3) = true := by decide
/-- V43: a four-byte altitude is sign-extended. -/
theorem test_loch_four : holds (exec (.loch 0 0 (.w4 (-5))) { State.reset with cfg := { hpAlt := .four } })
    (fun t => t.record.alt == -5 && t.cur == 22) = true := by decide
theorem test_noise : holds (exec (.noise 0xEE) { State.reset with cur := 4 }) (fun t => t.cur == 5 && t.present == []) = true := by decide
theorem test_temp2_inactive : refuses (exec (.temp2 1) State.reset) (.inactiveRow .temp2) = true := by decide

/-! ## The dispatcher -/

/-- V26: a match inside the data of an unknown sub-record. -/
theorem test_dispatch_misaligned : holds (exec .dispatch { walkingOver Cfg.default
    [0x01, 0x02, 0xE6, 0x09, 0xEE, 0x04, 0x10, 0x0C, 0x00, 0x00, 0x10, 0x0C, 0x40, 0x42, 0x0F, 0x00, 0x00, 0x00, 0x00, 0x00,
     0xC0, 0x76, 0x6A, 0xFF] with act := .idle })
    (fun t => t.out == [.complete 0 { temp := 2534, acc := ⟨202375168, 1000000, 0⟩ } [0x01, 0x10]] && t.act == .idle) = true := by decide
/-- V28: a sub-record one byte short, and a match inside its data. -/
theorem test_dispatch_short : holds (exec .dispatch { walkingOver Cfg.default
    [0x01, 0x02, 0x64, 0x00, 0x10, 0x0C, 1, 2, 3, 4, 5, 6, 7, 8, 9, 0x0A, 0x0B] with
    act := .idle, record := { vel := ⟨1, 2, 3⟩ }, present := [0x70], pcount := 1 })
    (fun t => t.record == { temp := 1027 } && t.present == [0x01, 0x01] && t.pcount == 2) = true := by decide
theorem test_step_walks : holds (step (walkingOver Cfg.default [0xEE, 0x01, 0x02, 0xE6, 0x09])) (fun t => t.cur == 1) = true ∧
    holds (step { walkingOver Cfg.default [0xEE, 0x01, 0x02, 0xE6, 0x09] with cur := 1 })
      (fun t => t.cur == 5 && t.record.temp == 2534) = true ∧
    holds (step { walkingOver Cfg.default [0xEE, 0x01, 0x02, 0xE6, 0x09] with cur := 5 })
      (fun t => t.act == .idle && t.cntDone == 1 && t.last == .done && t.out.length == 2) = true := by decide

/-! ## The scanner -/

/-- V38: a plausible false match that overlaps a real frame. -/
theorem test_scan_false_match : holds (exec (.scan ([0x59, 0x53, 0xAA, 0xBB, 0x06] ++ s7)) State.reset)
    (fun t => t.cntDone == 1 && t.cntFail == 1 && t.out == [.complete 1 { acc := ⟨1000000, 0, -9800000⟩ } [0x10]]) = true := by decide +kernel
/-- V34: the tail of a buffer. -/
theorem test_scan_tail : exec (.scan [0x00, 0x11, 0x59, 0x53, 0x01, 0x00]) State.reset = .next State.reset ∧
    holds (exec (.scan [0x00, 0x11, 0x59, 0x53, 0x01, 0x00, 0x0E]) State.reset)
      (fun t => t.st == .message && t.tid == 1 && t.rem == 14 && t.c0 == 0x0F && t.c1 == 0x11 && t.wp == 5) = true := by
  exact ⟨rfl, by decide⟩

/-! ## Host operations -/

theorem test_reset : holds (exec (.reset dualCfg) (s7At .crc2 0 0x5B 0 20))
    (fun t => t.cfg == dualCfg && t.st == .header1 && t.wp == 0 && t.tid == 0 && t.buf == [] && t.epoch == 1) = true := by decide
theorem test_reset_refused : refuses (exec (.reset { cap := 205 }) State.reset) .badConfig = true := by decide
theorem test_feed : holds (exec (.feed 0x59) State.reset) (fun t => t.st == .header2) = true := by decide
theorem test_feed_before_reset : refuses (exec (.feed 0x59) { State.reset with act := .preReset }) .beforeReset = true := by decide
theorem test_rdtrace : holds (exec .rdtrace { State.reset with cntDone := 1, cntFail := 2, last := .done })
    (fun t => t.out == [.trace 1 2 .done]) = true := by decide
theorem test_rdrec : holds (exec .rdrec { State.reset with tid := 7, present := [0x10], pcount := 1, record := { temp := 5 } })
    (fun t => t.out == [.record { temp := 5 } [0x10] 1 7]) = true := by decide
theorem test_step_takes_the_port : holds (step { State.reset with port := [.feed 0x59, .rdtrace], out := [.status .done] })
    (fun t => t.st == .header2 && t.port == [.rdtrace] && t.out == [.status .running]) = true := by decide

/-! ## Observation -/

/-- A frame that scanning abandons shows in the readable state alone (R9, R180). -/
theorem test_observe_sees_the_counters :
    observePort { State.reset with port := [.scan [0x59, 0x53, 0, 0, 4, 0, 0, 0, 0, 5]] } =
      ⟨[], ⟨0, 1, .checksumError, SensorRecord.zero, [], 0, 0⟩⟩ := by decide
/-- Statuses and reads in input order, and the registers at the end. -/
theorem test_observe_in_input_order : observePort { State.reset with port := [.feed 0x59, .rdtrace, .feed 0x41] } =
    ⟨[.status .running, .trace 0 0 .running, .status .running], ⟨0, 0, .running, SensorRecord.zero, [], 0, 0⟩⟩ := by decide

/-! ## Witnesses: the hypotheses of each statement can be met, clause by clause -/

/-- A good state in `Header1`. -/
def good : State := resetTo Cfg.default State.reset

theorem good_inv : Inv good := resetTo_inv (by decide) _

/-- The good state with some bytes fed. -/
def goodAfter (bs : List Byte) : State :=
  match feedSilent bs good with
  | .next t => t
  | .fault _ => good
  | .refused _ => good

theorem goodAfter_inv (bs : List Byte) : Inv (goodAfter bs) := by
  obtain ⟨t, h, hi, -⟩ := feedSilent_next bs good_inv
  simp only [goodAfter, h]
  exact hi

theorem witness_ResetPutsEveryRegisterAtItsResetValue :
    Cfg.wf { cap := 206 } = true ∧ { State.reset with act := .preReset }.act ≠ .walking := by decide
theorem witness_ResetStateIsWhatResetLeaves : State.reset.act ≠ .walking := by decide
theorem witness_IllFormedConfiguration_cap : State.reset.act ≠ .walking ∧ ({ cap := 205 } : Cfg).cap < 206 := by decide
theorem witness_IllFormedConfiguration_ids :
    ∃ k k' id, k ≠ k' ∧ Cfg.idOf { ids := { temp := 0x10 } } k = some id ∧ Cfg.idOf { ids := { temp := 0x10 } } k' = some id :=
  ⟨.temp, .acc, 0x10, by decide, rfl, rfl⟩
theorem witness_IllFormedConfiguration_dual :
    { dualCfg with idGyro2 := none }.dual = true ∧ { dualCfg with idGyro2 := none }.idGyro2 = none := by decide
theorem witness_OnlyResetChangesTheConfiguration : step State.reset = .next State.reset := rfl
theorem witness_OnlyResetChangesTheConfiguration_reset :
    holds (step { State.reset with port := [.reset dualCfg] }) (fun t => t.cfg == dualCfg) = true := by decide
theorem witness_DecodeOfEncode : dualCfg.wf = true ∧ (Instr.temp2 0x8000).wf dualCfg = true ∧
    (Instr.frame 0xFFFF 199 (List.replicate 201 0xFF)).wf dualCfg = true ∧ (Instr.frame 1 200 []).wf dualCfg = true ∧
    (Instr.loch 0 0 (.w8 (-1))).wf dualCfg = true ∧ (Instr.loch 0 0 (.w4 (-1))).wf { hpAlt := .four } = true := by decide +kernel
theorem witness_DecodedBytesEncodeBack_message :
    decodeSub Cfg.default [0x01, 0x02, 0xE6, 0x09, 0xEE] = .ok (.temp 2534, [0xEE]) := by decide
theorem witness_DecodedBytesEncodeBack_frame :
    decodeFrame [0x59, 0x53, 0, 0, 3, 0x59] = .ok (.frame 0 3 [], [0x59]) := by decide
theorem witness_Recognition_row : Cfg.default.wf = true ∧ Cfg.default.idOf .temp = some 0x01 ∧
    (0x02 : Byte).toNat = Kind.temp.expLen Cfg.default ∧ Kind.temp.expLen Cfg.default ≤ ([0xE6, 0x09] : List Byte).length := by decide
theorem witness_Recognition_none : ∀ k, ¬(Cfg.default.idOf k = some 0x01 ∧ (0x02 : Byte).toNat = k.expLen Cfg.default ∧
    k.expLen Cfg.default ≤ ([0xE6] : List Byte).length) := by
  intro k
  cases k <;> decide
theorem witness_LittleEndian : ([0x80] : List Byte).length = 1 ∧ ([0xFF, 0x7F] : List Byte).length = 2 ∧
    ([0, 0, 0, 0x80] : List Byte).length = 4 ∧ ([0, 0, 0, 0, 0, 0, 0, 0x80] : List Byte).length = 8 := by decide
theorem witness_Step_port : { State.reset with port := [.feed 1] }.act ≠ .walking ∧
    { State.reset with port := [.feed 1] }.port = [.feed 1] ∧ State.reset.port = [] := by decide
theorem witness_Step_walking : (walkingOver Cfg.default [0xEE]).act = .walking ∧
    (walkingOver Cfg.default [0xEE]).cur.toNat < (walkingOver Cfg.default [0xEE]).len.toNat ∧
    decodeSub Cfg.default (walkingOver Cfg.default [0xEE]).messageFrom = .ok (.noise 0xEE, []) := by decide
theorem witness_Step_end : { walkingOver Cfg.default [0xEE] with cur := 1 }.act = .walking ∧
    { walkingOver Cfg.default [0xEE] with cur := 1 }.len.toNat ≤ { walkingOver Cfg.default [0xEE] with cur := 1 }.cur.toNat := by decide
theorem witness_FeedAlwaysCompletes : Inv good ∧ Inv (goodAfter s7) ∧ Inv (goodAfter (s7.take 20)) :=
  ⟨good_inv, goodAfter_inv _, goodAfter_inv _⟩
theorem witness_Overlap : (walkingOver Cfg.default [0xEE]).act = .walking ∧
    { State.reset with act := .preReset }.act = .preReset ∧ ∀ c, HostOp.feed 1 ≠ .reset c :=
  ⟨rfl, rfl, fun _ h => by cases h⟩
theorem witness_H1 : State.reset.act = .idle ∧ 0 < State.reset.cfg.cap ∧ (0x58 : Byte) ≠ 0x59 := by decide
theorem witness_H2 : (s7At .header2 0 0 0 1).act = .idle ∧ (s7At .header2 0 0 0 1).wp < (s7At .header2 0 0 0 1).cfg.cap ∧
    (0x59 : Byte) ≠ 0x53 ∧ State.reset.act = .idle ∧ State.reset.st = .header1 ∧ 0 < State.reset.cfg.cap := by decide
theorem witness_Tid : (s7At .tidHigh 0 0xFF 0xFF 3).act = .idle ∧
    (s7At .tidHigh 0 0xFF 0xFF 3).wp < (s7At .tidHigh 0 0xFF 0xFF 3).cfg.cap := by decide
theorem witness_Len : (s7At .length 0 1 2 4).act = .idle ∧ (s7At .length 0 1 2 4).wp < (s7At .length 0 1 2 4).cfg.cap ∧
    (4 ≤ (4 : Byte).toNat ∧ (4 : Byte).toNat < 200) ∧ (4 ≤ (199 : Byte).toNat ∧ (199 : Byte).toNat < 200) ∧
    ¬(4 ≤ (3 : Byte).toNat ∧ (3 : Byte).toNat < 200) ∧ ¬(4 ≤ (200 : Byte).toNat ∧ (200 : Byte).toNat < 200) := by decide
theorem witness_Msg : (s7At .message 1 0x5C 0xA5 18).act = .idle ∧ (s7At .message 1 0x5C 0xA5 18).wp < 264 ∧
    (s7At .message 1 0x5C 0xA5 18).st = .message ∧ 1 ≤ (s7At .message 1 0x5C 0xA5 18).rem.toNat ∧
    1 ≤ (s7At .message 2 0xF2 0x49 17).rem.toNat := by decide
theorem witness_Crc1 : (s7At .crc1 0 0x5B 0 19).act = .idle ∧ (s7At .crc1 0 0x5B 0 19).wp < (s7At .crc1 0 0x5B 0 19).cfg.cap ∧
    0x5B = (s7At .crc1 0 0x5B 0 19).c0 ∧ 0x5A ≠ (s7At .crc1 0 0x5B 0 19).c0 := by decide
/-- The longest message in the smallest buffer. -/
theorem witness_Crc2 : ∃ s : State, s.act = .idle ∧ (0 : Byte) = s.c1 ∧ (1 : Byte) ≠ s.c1 ∧ s.wp < s.cfg.cap ∧
    5 + s.len.toNat ≤ s.cfg.cap ∧ s.len = 199 ∧ s.cfg.cap = 206 ∧ s.wp = 205 :=
  ⟨{ State.reset with cfg := { cap := 206 }, len := 199, wp := 205 }, by decide⟩
theorem witness_Badst : { State.reset with st := .invalid 7 }.act = .idle := rfl
theorem witness_OneChangedByte : (0x40 : Byte) ≠ 0x41 := by decide
theorem witness_CorruptedMessageByte : Inv good ∧ good.st = .header1 ∧ (0x40 : Byte) ≠ 0x41 ∧
    4 ≤ ([0, 0, 0] ++ (0x40 : Byte) :: []).length ∧ ([0, 0, 0] ++ (0x40 : Byte) :: []).length < 200 ∧
    (List.replicate 198 0 ++ (0x40 : Byte) :: []).length < 200 := ⟨good_inv, by decide +kernel⟩
theorem witness_EveryActiveSubRecordRuns : rowOf (.acc ⟨1, 2, 3⟩) = some .acc ∧ State.reset.cfg.idOf .acc = some 0x10 ∧
    rowOf (.gyro2 ⟨1, 2, 3⟩) = some .gyro2 ∧ dualCfg.idOf .gyro2 = some 0x28 := by decide
theorem witness_InactiveRow : State.reset.cfg.dual = false := rfl
theorem witness_ThreeLaneRows : State.reset.cfg.wf = true ∧ (List.replicate 12 (0x80 : Byte)).length = 12 := by decide
theorem witness_FourLaneRows : State.reset.cfg.wf = true ∧ (List.replicate 16 (0x80 : Byte)).length = 16 := by decide
theorem witness_ScalarRows : State.reset.cfg.wf = true ∧ ([0, 0x80] : List Byte).length = 2 ∧
    ([0, 0, 0, 0x80] : List Byte).length = 4 := by decide
theorem witness_Loc : State.reset.cfg.wf = true ∧ (List.replicate 12 (0xFF : Byte)).length = 12 := by decide
theorem witness_Loch : State.reset.cfg.wf = true ∧ (List.replicate 24 (0xFF : Byte)).length = 16 + State.reset.cfg.hpAlt.bytes ∧
    Cfg.wf { hpAlt := .four } = true ∧
    (List.replicate 20 (0xFF : Byte)).length = 16 + ({ hpAlt := .four } : Cfg).hpAlt.bytes ∧
    (0x14 : Byte).toNat ≠ 16 + Cfg.default.hpAlt.bytes := by decide
theorem witness_SecondSensor : dualCfg.wf = true ∧ dualCfg.dual = true ∧ dualCfg.idTemp2 = some 0x02 ∧
    dualCfg.idAcc2 = some 0x18 ∧ dualCfg.idGyro2 = some 0x28 ∧ Cfg.default.dual = false ∧
    decodeSub Cfg.default [0x02, 0x02] = .ok (.noise 0x02, [0x02]) := by decide
theorem witness_Dispatch : ∃ s : State, s.act = .idle ∧ 5 + s.len.toNat ≤ s.cfg.cap ∧ 5 + s.len.toNat = 206 :=
  ⟨{ State.reset with cfg := { cap := 206 }, len := 201 }, by decide⟩
theorem witness_OneSubRecordMessage : ∃ s : State, s.act = .idle ∧ s.cfg.wf = true ∧ 5 + s.len.toNat ≤ s.cfg.cap ∧
    rowOf (.temp 2534) = some .temp ∧ (Instr.temp 2534).wf s.cfg = true ∧ s.cfg.idOf .temp = some 0x01 ∧
    encode s.cfg (.temp 2534) = .message s.message :=
  ⟨{ walkingOver Cfg.default [0x01, 0x02, 0xE6, 0x09] with act := .idle }, by decide⟩
theorem witness_AtomicDispatch : (s7At .crc2 0 0x5B 0 20).act = .idle ∧ (s7At .crc2 0 0x5B 0 20).out = [] ∧
    0 = (s7At .crc2 0 0x5B 0 20).c1 ∧ (s7At .crc2 0 0x5B 0 20).wp < (s7At .crc2 0 0x5B 0 20).cfg.cap ∧
    5 + (s7At .crc2 0 0x5B 0 20).len.toNat ≤ (s7At .crc2 0 0x5B 0 20).cfg.cap := by decide
theorem witness_PhysicalValues : ({ locPrec := .standard, lat := 314159265 } : SensorRecord).locPrec = .standard ∧
    ({ locPrec := .high, lat := 314159265358 } : SensorRecord).locPrec = .high ∧
    SensorRecord.zero.locPrec = .none ∧ SensorRecord.zero.lat = 0 ∧ SensorRecord.zero.lon = 0 ∧
    SensorRecord.zero.alt = 0 := by decide
theorem witness_Reads : State.reset.act = .idle := rfl
theorem witness_FrameIsItsBytesFed : Inv good ∧ Inv (goodAfter (s7.take 10)) := ⟨good_inv, goodAfter_inv _⟩
/-- For `ValidFrameCompletes`, `FrameStandsAtItsWireOffsets` and `ScanningAValidFrameCompletesIt`, at both bounds of the
length. -/
theorem witness_ValidFrame : Inv good ∧ good.st = .header1 ∧ 4 ≤ ([0, 0, 0, 0] : List Byte).length ∧
    (List.replicate 199 (0x59 : Byte)).length < 200 := ⟨good_inv, by decide +kernel⟩
/-- For the statements about every byte-feed step: an ordinary byte, an error, a completion. -/
theorem witness_Feed : holds (exec (.feed 0x59) State.reset) (fun t => t.last == .running) = true ∧
    holds (exec (.feed 0x5A) (s7At .crc1 0 0x5B 0 19)) (fun t => t.last.isError) = true ∧
    holds (exec (.feed 0x00) (s7At .crc2 0 0x5B 0 20)) (fun t => t.last == .done) = true := by decide
theorem witness_FeedWrites : ∃ t, exec (.feed 0x59) State.reset = .next t ∧ Memory.read t.buf 0 ≠ Memory.read State.reset.buf 0 :=
  ⟨_, rfl, by decide⟩
/-- The same framer registers, everything else different. -/
theorem witness_FramerIgnores : ∃ s s' t t' : State, s.st = s'.st ∧ s.rem = s'.rem ∧ s.c0 = s'.c0 ∧ s.c1 = s'.c1 ∧
    s.cntDone ≠ s'.cntDone ∧ exec (.feed 0x59) s = .next t ∧ exec (.feed 0x59) s' = .next t' :=
  ⟨State.reset, { State.reset with cntDone := 5, tid := 9, last := .done }, _, _, rfl, rfl, rfl, rfl, by decide, rfl, rfl⟩
theorem witness_FramerIsBack : Inv (goodAfter [0x59]) ∧ (goodAfter [0x59]).st ≠ .header1 ∧
    (0x53 :: List.replicate 204 (199 : Byte)).length = 205 := ⟨goodAfter_inv _, by decide +kernel⟩
theorem witness_NextCandidate_some : nextCandidate Cfg.default [0x59, 0x53, 0x59, 0x53, 0x01, 0x00, 0x0E] 0 = some 2 := by decide
theorem witness_NextCandidate_none : nextCandidate Cfg.default [0x00, 0x11, 0x59, 0x53, 0x01, 0x00] 0 = none := by decide
theorem witness_ScanAlwaysCompletes : Inv (goodAfter (s7.take 10)) := goodAfter_inv _
theorem witness_CandidateTrial : good.st = .header1 ∧ candidate good.cfg s7 0 = true ∧
    ∃ r, scanTry s7 s7.length 0 good = .next r ∧ r.verdict = .completed := ⟨rfl, by decide, _, rfl, by decide⟩
theorem witness_CandidateTrial_failed : ∃ src r, candidate good.cfg src 0 = true ∧
    scanTry src src.length 0 good = .next r ∧ r.verdict = .failed :=
  ⟨[0x59, 0x53, 0, 0, 4, 0, 0, 0, 0, 5], _, by decide, rfl, by decide⟩
theorem witness_CandidateTrial_unfinished : ∃ src r, candidate good.cfg src 0 = true ∧
    scanTry src src.length 0 good = .next r ∧ r.verdict = .unfinished :=
  ⟨[0x59, 0x53, 0, 0, 4], _, by decide, rfl, by decide⟩
/-- The trial of vector S7 has bytes before its last one. -/
theorem witness_CandidateTrial_before_the_end : ∃ r, scanTry s7 s7.length 0 good = .next r ∧ 0 < 1 ∧ 20 < r.q :=
  ⟨_, rfl, by decide⟩
theorem witness_ScanGoesOn : Inv good ∧ good.st = .header1 ∧ nextCandidate good.cfg (0 :: s7) 0 = some 1 ∧
    nextCandidate good.cfg [] 0 = none := ⟨good_inv, by decide⟩
/-- A frame in progress, ended by a mismatching checksum byte, and one ended by completion. -/
theorem witness_ScanContinues : Inv (goodAfter (s7.take 19)) ∧ (goodAfter (s7.take 19)).st = .crc1 ∧
    feedSilent [] (goodAfter (s7.take 19)) = .next (goodAfter (s7.take 19)) ∧
    (∀ n v, n ≤ ([] : List Byte).length → feedSilent (([] : List Byte).take n) (goodAfter (s7.take 19)) = .next v → v.st ≠ .header1) ∧
    holds (byteStep 0x5A (goodAfter (s7.take 19))) (fun t => t.last.isError) = true ∧
    holds (byteStep 0x00 (goodAfter (s7.take 20))) (fun t => t.st == .header1 && !t.last.isError) = true := by
  refine ⟨goodAfter_inv _, by decide, rfl, fun n v _ h => ?_, by decide, by decide⟩
  rw [List.take_nil] at h
  cases h
  decide
/-- For `EveryStepKeepsTheInvariant` and `NoStepFromAGoodStateHalts`. -/
theorem witness_EveryStep : Inv good ∧ ∃ t, step good = .next t := ⟨good_inv, _, rfl⟩
theorem witness_RecordChanges : Inv good ∧ (∃ t, step good = .next t ∧ events t.out = 0) ∧ ∀ c rest, good.port ≠ .reset c :: rest :=
  ⟨good_inv, ⟨_, rfl, by decide⟩, fun _ _ h => by cases h⟩

end Sys2Proof.Tests
end

section
/-! PROOFS for spec/00_scope.md: which configurations `RESET` refuses (O3), and what a step of the block does to the record
and the trace counters (O60). -/

namespace Sys2Proof

/-! ## What an accepted configuration has -/

/-- In a configuration `RESET` accepts, an id stands in one active row only (R47). -/
theorem Cfg.idOf_injective {c : Cfg} (h : c.wf = true) {k k' : Kind} {id : Byte} (hk : c.idOf k = some id)
    (hk' : c.idOf k' = some id) : k = k' :=
  Option.some.inj ((Cfg.lookup_of_idOf h hk).symm.trans (Cfg.lookup_of_idOf h hk'))

/-- In a configuration `RESET` accepts with `DUAL = true`, the three OPEN ids are given (R6, R73). -/
theorem Cfg.openIds_given {c : Cfg} (h : c.wf = true) (hd : c.dual = true) :
    c.idTemp2 ≠ none ∧ c.idAcc2 ≠ none ∧ c.idGyro2 ≠ none := by
  simp only [Cfg.wf, hd, Bool.not_true, Bool.false_or, Bool.and_eq_true] at h
  obtain ⟨-, ⟨ht, ha⟩, hg⟩ := h
  exact ⟨Option.isSome_iff_ne_none.1 ht, Option.isSome_iff_ne_none.1 ha, Option.isSome_iff_ne_none.1 hg⟩

namespace Machine

/-! ## A refused reset -/

theorem exec_reset (c : Cfg) (s : State) : exec (.reset c) s = execReset c s := rfl

/-- Outside a dispatch, `RESET` refuses every configuration that is not well-formed (R200). -/
theorem execReset_of_not_wf {c : Cfg} {s : State} (hs : s.act ≠ .walking) (hc : ¬ c.wf = true) :
    execReset c s = .refused .badConfig := by
  unfold execReset
  split
  case h_1 hw => exact absurd hw hs
  all_goals exact if_neg hc

/-- Settles O3: each of the three defects is something a well-formed configuration does not have. -/
theorem illFormedConfigurationIsRefused : Obligations.IllFormedConfigurationIsRefused := by
  intro c s hs hbad
  rw [exec_reset]
  refine execReset_of_not_wf hs fun hwf => ?_
  rcases hbad with hcap | ⟨k, k', id, hne, hk, hk'⟩ | ⟨hdual, hmissing⟩
  · exact Nat.not_le_of_lt hcap (Cfg.wf_cap hwf)
  · exact hne (Cfg.idOf_injective hwf hk hk')
  · obtain ⟨htemp, hacc, hgyro⟩ := Cfg.openIds_given hwf hdual
    rcases hmissing with h | h | h
    · exact htemp h
    · exact hacc h
    · exact hgyro h

/-! ## Steps that answer -/

/-- A step of the port that answers leaves the state as it is where the port is empty, and otherwise ran the operation at
its head. -/
theorem stepPort_eq_next {s t : State} (h : stepPort s = .next t) :
    (s.port = [] ∧ t = s) ∨ ∃ op rest, s.port = op :: rest ∧ exec op.instr { s with port := rest } = .next t := by
  unfold stepPort at h
  split at h
  · rename_i hp
    cases h
    exact .inl ⟨hp, rfl⟩
  · rename_i op rest hp
    exact .inr ⟨op, rest, hp, h⟩

/-- Between operations a step empties the outputs and looks at the port. -/
theorem step_of_idle {s : State} (h : s.act = .idle) : step s = stepPort { s with out := [] } := by
  simp only [step, h]

/-! ## The record and the trace counters -/

/-- From `s` to `t` the record registers and `CNT_DONE` are as they were unless a completion event was emitted, and neither
trace counter went down (R24, R229, R19). -/
structure EventGuarded (s t : State) : Prop where
  quiet : events t.out = events s.out →
    t.record = s.record ∧ t.present = s.present ∧ t.pcount = s.pcount ∧ t.cntDone = s.cntDone
  done : s.cntDone ≤ t.cntDone
  fail : s.cntFail ≤ t.cntFail

theorem EventGuarded.refl (s : State) : EventGuarded s s :=
  ⟨fun _ => ⟨rfl, rfl, rfl, rfl⟩, le_refl _, le_refl _⟩

theorem Kept.eventGuarded {s t : State} (h : Kept s t) : EventGuarded s t := ⟨h.quiet, h.done, h.fail⟩

/-- An output that is no completion event may be added. -/
theorem EventGuarded.emit {s t : State} {o : Output} (h : EventGuarded s t) (ho : events [o] = 0) :
    EventGuarded s (emit o t) where
  quiet he := h.quiet (by rwa [emit_out, events_append, ho] at he)
  done := h.done
  fail := h.fail

/-- Every host operation but `RESET`, from a good state. -/
theorem exec_hostOp_eventGuarded {op : HostOp} {s t : State} (hs : Inv s) (hop : ∀ c, op ≠ .reset c)
    (h : exec op.instr s = .next t) : EventGuarded s t := by
  cases op with
  | reset c => exact absurd rfl (hop c)
  | feed b =>
    obtain ⟨-, ha⟩ := whenIdle_eq_next.1 h
    obtain ⟨u, hu, rfl⟩ := answer_eq_next.1 ha
    exact (byteStep_kept hs hu).eventGuarded.emit rfl
  | scan src =>
    obtain ⟨-, hr⟩ := whenIdle_eq_next.1 h
    obtain ⟨u, hu, -, hk⟩ := runScan_next src hs
    cases hu.symm.trans hr
    exact hk.eventGuarded
  | rdtrace =>
    obtain ⟨-, hr⟩ := whenIdle_eq_next.1 h
    cases hr
    exact (EventGuarded.refl s).emit rfl
  | rdrec =>
    obtain ⟨-, hr⟩ := whenIdle_eq_next.1 h
    cases hr
    exact (EventGuarded.refl s).emit rfl
  | frame tid len body =>
    obtain ⟨-, hr⟩ := whenIdle_eq_next.1 h
    obtain ⟨u, hu, -, -, hdone, hfail, -, hquiet⟩ := feedAll_next (frameBytes tid len body) hs
    cases hu.symm.trans hr
    exact ⟨hquiet, hdone, hfail⟩

/-- A step from a good state that takes no `RESET`, seen from the state with its outputs emptied. -/
theorem step_eventGuarded {s t : State} (hs : Inv s) (h : step s = .next t)
    (hport : ∀ c rest, s.port ≠ .reset c :: rest) : EventGuarded { s with out := [] } t := by
  rw [step_of_idle hs.idle] at h
  rcases stepPort_eq_next h with ⟨-, rfl⟩ | ⟨op, rest, hp, hx⟩
  · exact .refl _
  · have hg : EventGuarded { s with port := rest, out := [] } t :=
      exec_hostOp_eventGuarded (hs.withOutputs rfl) (fun c hc => hport c rest (hc ▸ hp)) hx
    exact ⟨hg.quiet, hg.done, hg.fail⟩

/-- Settles O60: a step starts with no outputs, so that it emits no event is that the events stay as many. -/
theorem recordChangesOnlyWithAnEventAndCountersNeverGoDown :
    Obligations.RecordChangesOnlyWithAnEventAndCountersNeverGoDown := by
  intro s t hs h hport
  obtain ⟨hquiet, hdone, hfail⟩ := step_eventGuarded hs h hport
  exact ⟨hquiet, hdone, hfail⟩

end Machine
end Sys2Proof
end

section
/-! PROOFS for spec/10_state.md: what `RESET` leaves (O1, O2, O57), that every step keeps the invariant (O58) and none but a
`RESET` the configuration (O4), and what a byte-feed step counts and emits (O46, O47). -/

namespace Sys2Proof.Machine

/-! ## What `RESET` leaves -/

theorem cfg_default_wf : Cfg.default.wf = true := by decide

/-- Outside a dispatch, `RESET` takes every configuration that is well-formed (R200). -/
theorem execReset_of_wf {c : Cfg} {s : State} (hs : s.act ≠ .walking) (hc : c.wf = true) :
    execReset c s = .next (resetTo c s) :=
  execReset_eq_next.2 ⟨hs, hc, rfl⟩

/-- In `Header1` no sum over the buffer is asked for, so the invariant does not look at the count of resets, which only
names the bytes that nothing has written. -/
theorem Inv.withEpoch {s : State} (h : Inv s) (hst : s.st = .header1) (n : Nat) : Inv { s with epoch := n } where
  cfgOk := h.cfgOk
  idle := h.idle
  bufWf := h.bufWf
  bufBound := h.bufBound
  written := h.written
  wpBound := h.wpBound
  framer := by simpa only [FramerOk, hst] using h.wpBound
  header := h.header
  doneBound := h.doneBound
  failBound := h.failBound
  presentCount := h.presentCount
  presentBound := h.presentBound
  oneSensor := h.oneSensor
  noLocation := h.noLocation

/-- A buffer in which nothing is written reads as free values everywhere (R17). -/
theorem byteAt_of_buf_nil {s : State} (h : s.buf = []) (a : Nat) : s.byteAt a = Config.unwrittenByte s.epoch a := by
  simp only [State.byteAt, h, read_nil, Option.getD_none]

/-- Settles O1: the registers of `resetTo`, one by one. -/
theorem resetPutsEveryRegisterAtItsResetValue : Obligations.ResetPutsEveryRegisterAtItsResetValue := by
  intro c s hc hs
  exact ⟨resetTo c s, execReset_of_wf hs hc, rfl, rfl, rfl, rfl, rfl, rfl, rfl, rfl, rfl, rfl, rfl, rfl, rfl, rfl, rfl,
    rfl, rfl, rfl, rfl⟩

/-- Settles O2: the default configuration is accepted, and the buffer is empty afterwards. -/
theorem resetStateIsWhatResetLeaves : Obligations.ResetStateIsWhatResetLeaves := by
  intro s hs
  exact ⟨resetTo Cfg.default s, execReset_of_wf hs cfg_default_wf, rfl, byteAt_of_buf_nil rfl⟩

/-- Settles O57: the reset state is what `RESET` leaves, but for the count of resets. -/
theorem resetStateMeetsTheInvariant : Obligations.ResetStateMeetsTheInvariant :=
  (resetTo_inv cfg_default_wf State.reset).withEpoch rfl 0

/-! ## What every byte-feed step keeps, every host operation but `RESET` keeps -/

section Keeps

variable {P : State → Prop} (hbyte : ∀ b s t, P s → byteStep b s = .next t → P t)
include hbyte

theorem scanContinue_keeps (src : List Byte) : ∀ (n pos : Nat) (s : State) (p : ScanPoint), P s →
    scanContinue src n pos s = .next p → P p.state := by
  intro n
  induction n with
  | zero => intro pos s p hs h; cases h; exact hs
  | succ n ih =>
    intro pos s p hs h
    rw [scanContinue] at h
    split at h
    · cases h; exact hs
    · split at h
      · cases h; exact hs
      · obtain ⟨t, ht, h⟩ := andThen_eq_next.1 h
        exact ih _ t p (hbyte _ s t hs ht) h

theorem scanTry_keeps (src : List Byte) : ∀ (n q : Nat) (s : State) (r : Trial), P s →
    scanTry src n q s = .next r → P r.state := by
  intro n
  induction n with
  | zero => intro q s r hs h; cases h; exact hs
  | succ n ih =>
    intro q s r hs h
    rw [scanTry] at h
    split at h
    · cases h; exact hs
    · obtain ⟨t, ht, h⟩ := andThen_eq_next.1 h
      have hPt := hbyte _ s t hs ht
      split at h
      · cases h; exact hPt
      · split at h
        · cases h; exact hPt
        · exact ih _ t r hPt h

theorem scanSearch_keeps (src : List Byte) : ∀ (n pos : Nat) (s t : State), P s →
    scanSearch src n pos s = .next t → P t := by
  intro n
  induction n with
  | zero => intro pos s t hs h; cases h; exact hs
  | succ n ih =>
    intro pos s t hs h
    rw [scanSearch] at h
    split at h
    · cases h; exact hs
    · obtain ⟨r, hr, h⟩ := andThen_eq_next.1 h
      have hPr := scanTry_keeps hbyte src _ _ s r hs hr
      split at h
      · exact ih _ r.state t hPr h
      · exact ih _ r.state t hPr h
      · cases h; exact hPr

theorem runScan_keeps {src : List Byte} {s t : State} (hs : P s) (h : runScan src s = .next t) : P t := by
  obtain ⟨p, hp, h⟩ := andThen_eq_next.1 h
  have hPp := scanContinue_keeps hbyte src _ _ s p hs hp
  split at h
  · exact scanSearch_keeps hbyte src _ _ p.state t hPp h
  · cases h; exact hPp

variable (hemit : ∀ o s, P s → P (emit o s))
include hemit

theorem answer_byteStep_keeps {b : Byte} {s t : State} (hs : P s) (h : answer (byteStep b s) = .next t) : P t := by
  obtain ⟨u, hu, rfl⟩ := answer_eq_next.1 h
  exact hemit _ u (hbyte b s u hs hu)

theorem feedAll_keeps (bs : List Byte) : ∀ {s t : State}, P s → feedAll bs s = .next t → P t := by
  induction bs with
  | nil => intro s t hs h; cases h; exact hs
  | cons b bs ih =>
    intro s t hs h
    obtain ⟨u, hu, h⟩ := andThen_eq_next.1 h
    exact ih (answer_byteStep_keeps hbyte hemit hs hu) h

/-- A host operation that is no `RESET` is made of byte-feed steps and of outputs (R8, R180, R203, R204). -/
theorem exec_hostOp_keeps {op : HostOp} {s t : State} (hop : ∀ c, op ≠ .reset c) (hs : P s)
    (h : exec op.instr s = .next t) : P t := by
  cases op with
  | reset c => exact absurd rfl (hop c)
  | feed b => exact answer_byteStep_keeps hbyte hemit hs (whenIdle_eq_next.1 h).2
  | scan src => exact runScan_keeps hbyte hs (whenIdle_eq_next.1 h).2
  | rdtrace =>
    obtain ⟨-, hr⟩ := whenIdle_eq_next.1 h
    cases hr
    exact hemit _ s hs
  | rdrec =>
    obtain ⟨-, hr⟩ := whenIdle_eq_next.1 h
    cases hr
    exact hemit _ s hs
  | frame tid len body => exact feedAll_keeps hbyte hemit _ hs (whenIdle_eq_next.1 h).2

/-- What a step that looks at the port does to such a property of the state: it holds afterwards, or the step took a
`RESET`. -/
theorem stepPort_keeps (hport : ∀ s rest, P s → P { s with port := rest }) {s t : State} (hs : P s)
    (h : stepPort s = .next t) :
    P t ∨ ∃ c rest, s.port = .reset c :: rest ∧ c.wf = true ∧ t = resetTo c { s with port := rest } := by
  rcases stepPort_eq_next h with ⟨-, rfl⟩ | ⟨op, rest, hp, hx⟩
  · exact .inl hs
  · by_cases hop : ∃ c, op = .reset c
    · obtain ⟨c, rfl⟩ := hop
      obtain ⟨-, hc, ht⟩ := execReset_eq_next.1 hx
      exact .inr ⟨c, rest, hp, hc, ht⟩
    · exact .inl (exec_hostOp_keeps hbyte hemit (fun c hc => hop ⟨c, hc⟩) (hport s rest hs) hx)

end Keeps

/-! ## Every step keeps the invariant -/

/-- A byte-feed step that answers from a good state answers a good one. -/
theorem Inv.of_byteStep {b : Byte} {s t : State} (h : Inv s) (ht : byteStep b s = .next t) : Inv t := by
  obtain ⟨u, hu, hi⟩ := byteStep_inv h b
  cases hu.symm.trans ht
  exact hi

/-- Settles O58: the invariant is kept by byte-feed steps and looks neither at the port nor at the outputs, and a `RESET`
makes it hold. -/
theorem everyStepKeepsTheInvariant : Obligations.EveryStepKeepsTheInvariant := by
  intro s t hs h
  rw [step_of_idle hs.idle] at h
  rcases stepPort_keeps (P := Inv) (fun _ _ _ hi => hi.of_byteStep) (fun _ _ hi => hi.withOutputs rfl)
    (fun _ _ hi => hi.withOutputs rfl) (hs.withOutputs rfl) h with hi | ⟨c, rest, -, hc, rfl⟩
  · exact hi
  · exact resetTo_inv hc _

/-! ## The configuration -/

/-- Everything a completing step leaves: the byte stored, the frame decoded, announced and counted, the framer back in
`Header1` (R108, R138). -/
theorem Completed.frame {b : Byte} {s t : State} (h : Completed b s t) : ∃ r p n,
    t = { stored b s with
      act := .idle, st := .header1, cur := 0, record := r, present := p, pcount := n
      cntDone := satInc s.cfg s.cntDone, last := .done, out := s.out ++ [.complete s.tid r p] } := by
  obtain ⟨u, hu, rfl⟩ := h.run
  obtain ⟨v, w, hv, -, -, -, hframe⟩ :=
    runDispatch_next (fun _ => True) (runDispatch_eq_next hu) trivial (fun _ _ _ _ _ => trivial)
  cases hu.symm.trans hv
  exact ⟨w.record, w.present, w.pcount, by rw [hframe]; rfl⟩

theorem byteStep_cfg {b : Byte} {s t : State} (h : byteStep b s = .next t) : t.cfg = s.cfg := by
  rcases byteStep_cases h with hq | ⟨x, -, rfl⟩ | hc
  · rw [hq.frame]
  · rfl
  · obtain ⟨r, p, n, rfl⟩ := hc.frame
    rfl

/-- Inside a dispatch, a step where the message goes on is one iteration of the walk (log 4). -/
theorem stepWalking_of_walkGoesOn {s : State} (h : walkGoesOn s = true) : stepWalking s = walkStep s := by
  rcases walkStep_cases h with ⟨b, hf, hw⟩ | ⟨k, id, i, hf, hr, -, -, -⟩
  · rw [hw]
    simp only [stepWalking, h, hf, if_true]
    rfl
  · simp only [stepWalking, walkStep, h, hf, if_true, runSub_eq_exec hr]

/-- Inside a dispatch, a step where the message has ended completes the frame (R130, R108). -/
theorem stepWalking_of_end {s : State} (h : ¬ walkGoesOn s = true) :
    stepWalking s = .next (reportStatus (completeFrame (dispatchEnd s))) :=
  if_neg h

theorem stepWalking_cfg {s t : State} (h : stepWalking s = .next t) : t.cfg = s.cfg := by
  by_cases hg : walkGoesOn s = true
  · obtain ⟨u, hu, -, -, hframe⟩ := walkStep_next hg
    rw [stepWalking_of_walkGoesOn hg, hu] at h
    cases h
    rw [hframe]
  · rw [stepWalking_of_end hg] at h
    cases h
    rfl

theorem stepPort_cfg {s t : State} (h : stepPort s = .next t) :
    t.cfg = s.cfg ∨ ∃ c rest, s.port = .reset c :: rest ∧ t.cfg = c := by
  rcases stepPort_keeps (P := fun u => u.cfg = s.cfg) (fun _ _ _ hu hv => (byteStep_cfg hv).trans hu)
    (fun _ _ hu => hu) (fun _ _ hu => hu) rfl h with hc | ⟨c, rest, hp, -, rfl⟩
  · exact .inl hc
  · exact .inr ⟨c, rest, hp, rfl⟩

/-- A step that answers ran the dispatch in progress or looked at the port, from the outputs emptied (log 2, log 4). -/
theorem step_eq_next {s t : State} (h : step s = .next t) :
    stepWalking { s with out := [] } = .next t ∨ (s.act ≠ .walking ∧ stepPort { s with out := [] } = .next t) := by
  unfold step at h
  split at h
  case h_1 => exact .inl h
  case h_2 ha => exact .inr ⟨by simp [ha], h⟩
  case h_3 ha => exact .inr ⟨by simp [ha], h⟩

/-- Settles O4: inside a dispatch a step runs one iteration of the walk or ends the frame; outside, byte-feed steps keep the
configuration, and with them every host operation but `RESET`. -/
theorem onlyResetChangesTheConfiguration : Obligations.OnlyResetChangesTheConfiguration := by
  intro s t h
  rcases step_eq_next h with hw | ⟨ha, hp⟩
  · exact .inl (stepWalking_cfg (s := { s with out := [] }) hw)
  · exact (stepPort_cfg (s := { s with out := [] }) hp).imp_right fun hr => ⟨ha, hr⟩

/-! ## What a byte-feed step counts and emits -/

/-- `FEED` is a byte-feed step between operations, with its status returned (R201). -/
theorem exec_feed_eq_next {b : Byte} {s t : State} :
    exec (.feed b) s = .next t ↔ s.act = .idle ∧ ∃ u, byteStep b s = .next u ∧ t = reportStatus u :=
  whenIdle_eq_next.trans (and_congr Iff.rfl answer_eq_next)

/-- The error statuses are neither of the other two (R220). -/
theorem Status.ne_done_of_isError {x : Status} (h : x.isError = true) : x ≠ .done := by
  rintro rfl
  cases h

theorem byteStep_cntDone {b : Byte} {s t : State} (h : byteStep b s = .next t) :
    t.cntDone = if t.last = .done then satInc s.cfg s.cntDone else s.cntDone := by
  rcases byteStep_cases h with hq | ⟨x, hx, rfl⟩ | hc
  · rw [hq.frame]
    rfl
  · rw [raise_last, raise_cntDone, if_neg (Status.ne_done_of_isError hx)]
  · obtain ⟨r, p, n, rfl⟩ := hc.frame
    rfl

theorem byteStep_cntFail {b : Byte} {s t : State} (h : byteStep b s = .next t) :
    t.cntFail = if t.last = .checksumError then satInc s.cfg s.cntFail else s.cntFail := by
  rcases byteStep_cases h with hq | ⟨x, -, rfl⟩ | hc
  · rw [hq.frame]
    rfl
  · rw [raise_last, raise_cntFail]
  · obtain ⟨r, p, n, rfl⟩ := hc.frame
    rfl

/-- Settles O46: the two counters after a byte-feed step, as functions of its status. -/
theorem feedCountsDoneAndChecksumErrorsOnly : Obligations.FeedCountsDoneAndChecksumErrorsOnly := by
  intro b s t h
  obtain ⟨-, u, hu, rfl⟩ := exec_feed_eq_next.1 h
  have hdone := byteStep_cntDone hu
  have hfail := byteStep_cntFail hu
  exact ⟨hdone, hfail⟩

/-- A byte-feed step that ends with `Done` completed a frame (R110). -/
theorem completed_of_last_done {b : Byte} {s t : State} (h : byteStep b s = .next t) (hl : t.last = .done) :
    Completed b s t := by
  rcases byteStep_cases h with hq | ⟨x, hx, rfl⟩ | hc
  · cases hq.last.symm.trans hl
  · exact absurd hl (Status.ne_done_of_isError hx)
  · exact hc

/-- A byte-feed step that ends with another status emits nothing and leaves the record registers alone (R229). -/
theorem byteStep_of_last_ne_done {b : Byte} {s t : State} (h : byteStep b s = .next t) (hl : t.last ≠ .done) :
    t.out = s.out ∧ t.record = s.record ∧ t.present = s.present ∧ t.pcount = s.pcount := by
  rcases byteStep_cases h with hq | ⟨x, -, rfl⟩ | hc
  · rw [hq.frame]
    exact ⟨rfl, rfl, rfl, rfl⟩
  · exact ⟨rfl, rfl, rfl, rfl⟩
  · obtain ⟨r, p, n, rfl⟩ := hc.frame
    exact absurd rfl hl

/-- Settles O47: with `Done` a frame was completed, and its event stands before the status; with another status the step
put out nothing but that. -/
theorem feedEmitsOneEventExactlyOnDone : Obligations.FeedEmitsOneEventExactlyOnDone := by
  intro b s t h
  obtain ⟨-, u, hu, rfl⟩ := exec_feed_eq_next.1 h
  refine ⟨fun hl => ?_, fun hl => ?_⟩
  · obtain ⟨r, p, n, rfl⟩ := (completed_of_last_done hu hl).frame
    exact List.append_assoc _ _ _
  · obtain ⟨hout, hrecord, hpresent, hpcount⟩ := byteStep_of_last_ne_done hu hl
    exact ⟨by rw [reportStatus_out, hout]; rfl, hrecord, hpresent, hpcount⟩

end Sys2Proof.Machine
end

section
/-! PROOFS for spec/20_memory.md: what a step runs (O10) and what it refuses (O13), where a byte-feed step writes the buffer
(O45), where a valid frame stands in it (O44), and the dispatch taken one sub-record a step (O39). -/

namespace Sys2Proof.Machine

/-! ## What a step runs -/

theorem step_of_not_walking {s : State} (h : s.act ≠ .walking) : step s = stepPort { s with out := [] } := by
  unfold step
  split
  case h_1 hw => exact absurd hw h
  all_goals rfl

theorem step_of_walking {s : State} (h : s.act = .walking) : step s = stepWalking { s with out := [] } := by
  simp only [step, h]

theorem stepPort_nil {s : State} (h : s.port = []) : stepPort s = .next s := by
  simp only [stepPort, h]

theorem stepPort_cons {s : State} {op : HostOp} {rest : List HostOp} (h : s.port = op :: rest) :
    stepPort s = exec op.instr { s with port := rest } := by
  simp only [stepPort, h]

theorem walkGoesOn_iff {s : State} : walkGoesOn s = true ↔ s.cur.toNat < s.len.toNat := decide_eq_true_iff

/-- Inside a dispatch, a step where the message goes on runs what the message decodes to at the cursor (R132). -/
theorem stepWalking_of_decodeSub {s : State} {i : Instr} {rest : List Byte} (hgo : walkGoesOn s = true)
    (hd : decodeSub s.cfg s.messageFrom = .ok (i, rest)) : stepWalking s = exec i s := by
  have hf : fetchSub s = .ok i := by rw [fetchSub, hd]; rfl
  simp only [stepWalking, hgo, hf, if_true]

/-- Settles O10: a step looks at the port or runs the dispatch, from the state with its outputs emptied. -/
theorem stepRunsTheDecodedInstruction : Obligations.StepRunsTheDecodedInstruction := by
  refine ⟨fun s op rest ha hp => ?_, fun s ha hp => ?_, fun s i rest ha hcur hd => ?_, fun s ha hcur => ?_⟩
  · exact (step_of_not_walking ha).trans (stepPort_cons hp)
  · exact (step_of_not_walking ha).trans (stepPort_nil hp)
  · exact (step_of_walking ha).trans (stepWalking_of_decodeSub (walkGoesOn_iff.2 hcur) hd)
  · have hend : ¬ walkGoesOn { s with out := [] } = true := fun h => Nat.not_lt_of_le hcur (walkGoesOn_iff.1 h)
    exact ⟨_, (step_of_walking ha).trans (stepWalking_of_end hend), rfl⟩

/-! ## What is refused -/

theorem whenIdle_of_walking {s : State} (h : s.act = .walking) (r : Res State) : whenIdle s r = .refused .overlap := by
  simp only [whenIdle, h]

theorem whenIdle_of_preReset {s : State} (h : s.act = .preReset) (r : Res State) :
    whenIdle s r = .refused .beforeReset := by
  simp only [whenIdle, h]

theorem execReset_of_walking {s : State} (h : s.act = .walking) (c : Cfg) : execReset c s = .refused .overlap := by
  simp only [execReset, h]

/-- Every host operation but `RESET` needs the block between operations. -/
theorem exec_hostOp_eq_whenIdle (op : HostOp) (s : State) (hop : ∀ c, op ≠ .reset c) :
    ∃ r, exec op.instr s = whenIdle s r := by
  cases op with
  | reset c => exact absurd rfl (hop c)
  | feed b => exact ⟨_, rfl⟩
  | scan src => exact ⟨_, rfl⟩
  | rdtrace => exact ⟨_, rfl⟩
  | rdrec => exact ⟨_, rfl⟩
  | frame tid len body => exact ⟨_, rfl⟩

/-- Settles O13: the guard that `RESET` does not share refuses both, and inside a dispatch `RESET` has its own. -/
theorem overlapAndUseBeforeResetAreRefused : Obligations.OverlapAndUseBeforeResetAreRefused := by
  intro s op
  refine ⟨fun ha => ?_, fun ha hop => ?_⟩
  · by_cases hop : ∃ c, op = .reset c
    · obtain ⟨c, rfl⟩ := hop
      exact execReset_of_walking ha c
    · obtain ⟨r, hr⟩ := exec_hostOp_eq_whenIdle op s fun c hc => hop ⟨c, hc⟩
      exact hr.trans (whenIdle_of_walking ha r)
  · obtain ⟨r, hr⟩ := exec_hostOp_eq_whenIdle op s hop
    exact hr.trans (whenIdle_of_preReset ha r)

/-! ## Where a byte-feed step writes -/

/-- A byte-feed step leaves the buffer as it is, or stores its byte at the store offset and puts `WP` one past
it (R42). -/
theorem byteStep_buffer {b : Byte} {s t : State} (h : byteStep b s = .next t) :
    t.buf = s.buf ∨ (t.buf = Memory.write s.buf (storeOffset s) b ∧ t.wp = storeOffset s + 1) := by
  rcases byteStep_cases h with hq | ⟨x, -, rfl⟩ | hc
  · exact hq.buf.imp (fun hsame => hsame.1) fun hstored => hstored.2
  · exact .inl rfl
  · have ho : storeOffset s = s.wp := if_neg (by simp [hc.st])
    obtain ⟨r, p, n, rfl⟩ := hc.frame
    exact .inr ⟨by rw [ho]; rfl, by rw [ho]; rfl⟩

/-- Settles O45: of one write, only the byte written can have changed. -/
theorem feedWritesTheBufferAtTheWritePointerOnly : Obligations.FeedWritesTheBufferAtTheWritePointerOnly := by
  intro b s t h a hne
  obtain ⟨-, u, hu, rfl⟩ := exec_feed_eq_next.1 h
  rw [reportStatus_buf] at hne ⊢
  rcases byteStep_buffer hu with hbuf | ⟨hbuf, hwp⟩
  · exact absurd (by rw [hbuf]) hne
  · have ha : a = storeOffset s := by
      by_contra hx
      exact hne (by rw [hbuf, read_write_ne hx])
    subst ha
    exact ⟨rfl, hwp, by rw [hbuf, read_write_same]⟩

/-! ## Bytes accepted one after another -/

/-- The bytes `bs` accepted as far as the buffer and the status go: each stored at `WP` (R42) and answered `Running`. -/
def taken (bs : List Byte) (s : State) : State :=
  { s with
    buf := Memory.writeAll s.buf s.wp bs
    wp := s.wp + bs.length
    last := .running
    out := s.out ++ List.replicate bs.length (.status .running) }

theorem taken_taken (as bs : List Byte) (s : State) : taken bs (taken as s) = taken (as ++ bs) s := by
  simp only [taken, writeAll_append, List.length_append, List.replicate_add, Nat.add_assoc, List.append_assoc]

/-- Feeding goes on behind a byte that a byte operation stores. -/
theorem feedAll_of_store {b : Byte} {s u : State} {f : State → State} (bs : List Byte)
    (h : byteStep b s = andThen (store b u) fun t => .next (retire .running (f t))) (hcap : u.wp < u.cfg.cap) :
    feedAll (b :: bs) s = feedAll bs (reportStatus (retire .running (f (stored b u)))) :=
  feedAll_cons (by rw [h, store_of_lt hcap, andThen_next])

section Accepting

variable {s : State} {b : Byte} (bs : List Byte)

theorem feedAll_header1 (hst : s.st = .header1) (hcap : 0 < s.cfg.cap) :
    feedAll (MAGIC1 :: bs) s = feedAll bs (taken [MAGIC1] { clearFrame s with st := .header2 }) :=
  feedAll_of_store (u := clearFrame s) (f := goto .header2) bs (by simp only [byteStep, hst, byteH1, if_true]) hcap

theorem feedAll_header2 (hst : s.st = .header2) (hcap : s.wp < s.cfg.cap) :
    feedAll (MAGIC2 :: bs) s = feedAll bs (taken [MAGIC2] { s with st := .tidLow }) :=
  feedAll_of_store (u := s) (f := goto .tidLow) bs (by simp only [byteStep, hst, byteH2, if_true]) hcap

theorem feedAll_tidLow (hst : s.st = .tidLow) (hcap : s.wp < s.cfg.cap) :
    feedAll (b :: bs) s =
      feedAll bs (taken [b] (upd b { s with st := .tidHigh, tid := s.tid.extractLsb' 8 8 ++ b })) :=
  feedAll_of_store (u := s) (f := fun t => goto .tidHigh (upd b { t with tid := t.tid.extractLsb' 8 8 ++ b })) bs
    (by simp only [byteStep, hst, byteTidl]) hcap

theorem feedAll_tidHigh (hst : s.st = .tidHigh) (hcap : s.wp < s.cfg.cap) :
    feedAll (b :: bs) s =
      feedAll bs (taken [b] (upd b { s with st := .length, tid := b ++ s.tid.extractLsb' 0 8 })) :=
  feedAll_of_store (u := s) (f := fun t => goto .length (upd b { t with tid := b ++ t.tid.extractLsb' 0 8 })) bs
    (by simp only [byteStep, hst, byteTidh]) hcap

theorem feedAll_length (hst : s.st = .length) (hb : legalLength b = true) (hcap : s.wp < s.cfg.cap) :
    feedAll (b :: bs) s = feedAll bs (taken [b] (upd b { s with st := .message, len := b, rem := b })) :=
  feedAll_of_store (u := s) (f := fun t => goto .message (upd b { t with len := b, rem := b })) bs
    (by simp only [byteStep, hst, byteLen, hb, if_true]) hcap

theorem feedAll_message_byte (hst : s.st = .message) (hcap : s.wp < s.cfg.cap) :
    feedAll (b :: bs) s = feedAll bs
      (taken [b] (upd b { s with st := if s.rem - 1 = 0 then .crc1 else s.st, rem := s.rem - 1 })) :=
  feedAll_of_store (u := s)
    (f := fun t => goto (if t.rem - 1 = 0 then .crc1 else t.st) (upd b { t with rem := t.rem - 1 })) bs
    (by simp only [byteStep, hst, byteMsg]) hcap

theorem feedAll_crc1 (hst : s.st = .crc1) (hb : b = s.c0) (hcap : s.wp < s.cfg.cap) :
    feedAll (b :: bs) s = feedAll bs (taken [b] { s with st := .crc2 }) :=
  feedAll_of_store (u := s) (f := goto .crc2) bs (by simp only [byteStep, hst, byteCrc1, hb, if_true]) hcap

end Accepting

/-! ## A valid frame up to its last byte -/

/-- The accumulator after the bytes `bs` more (R91, R92). -/
def summed (bs : List Byte) (s : State) : State :=
  { s with c0 := (bs.foldl updPair (s.c0, s.c1)).1, c1 := (bs.foldl updPair (s.c0, s.c1)).2 }

/-- The id that `TIDL` and `TIDH` put together from its two halves (R103, R104). -/
theorem tid_of_halves (tid low : BitVec 16) :
    tid.extractLsb' 8 8 ++ (low.extractLsb' 8 8 ++ tid.extractLsb' 0 8).extractLsb' 0 8 = tid := by
  rw [BitVec.extractLsb'_append_eq_right]
  exact (BitVec.extractLsb'_append_extractLsb'_eq_extractLsb' rfl).trans BitVec.extractLsb'_eq_self

/-- Inside a frame fed from `s`, behind its bytes `bs`: the framer's registers, its sums as a pair. -/
def midFrame (f : FState) (tid : BitVec 16) (len rem : Byte) (sums : Byte × Byte) (bs : List Byte) (s : State) :
    State :=
  taken bs { clearFrame s with st := f, tid := tid, len := len, rem := rem, c0 := sums.1, c1 := sums.2 }

/-- The header of a frame with a legal length is accepted whole from `Header1` (R101 to R105). -/
theorem feedAll_header {s : State} {tid : BitVec 16} {len : Byte} (hst : s.st = .header1) (hcap : 206 ≤ s.cfg.cap)
    (hlen : legalLength len = true) (body : List Byte) : feedAll (frameBytes tid len body) s =
      feedAll body (midFrame .message tid len len (cks (covered tid len [])) (frameBytes tid len []) s) := by
  have hroom : ∀ n, n < 206 → n < s.cfg.cap := fun n hn => by omega
  rw [frameBytes, feedAll_header1 _ hst (hroom 0 (by decide)), feedAll_header2 _ rfl (hroom 1 (by decide)),
    feedAll_tidLow _ rfl (hroom 2 (by decide)), feedAll_tidHigh _ rfl (hroom 3 (by decide)),
    feedAll_length _ rfl hlen (hroom 4 (by decide))]
  calc
    _ = feedAll body (taken [len] (taken [tid.extractLsb' 8 8] (taken [tid.extractLsb' 0 8] (taken [MAGIC2]
          (midFrame .message
            (tid.extractLsb' 8 8 ++ ((0 : BitVec 16).extractLsb' 8 8 ++ tid.extractLsb' 0 8).extractLsb' 0 8)
            len len (cks (covered tid len [])) [MAGIC1] s))))) := rfl
    _ = _ := by
      rw [tid_of_halves, midFrame, taken_taken, taken_taken, taken_taken, taken_taken]
      rfl

/-- The rest of the message is accepted whole, and the checksum bytes come next (R106). -/
theorem feedAll_message (bs : List Byte) : ∀ (msg : List Byte) {s : State}, s.st = .message → msg ≠ [] →
    msg.length = s.rem.toNat → s.wp + msg.length ≤ s.cfg.cap →
    feedAll (msg ++ bs) s = feedAll bs (taken msg (summed msg { s with st := .crc1, rem := 0 })) := by
  intro msg
  induction msg with
  | nil => intro s _ hne; exact absurd rfl hne
  | cons b msg ih =>
    intro s hst _ hrem hcap
    rw [List.length_cons] at hrem hcap
    have hsub : (s.rem - 1).toNat = msg.length := by
      have := s.rem.isLt
      bv_omega
    rw [List.cons_append, feedAll_message_byte _ hst (by omega)]
    cases msg with
    | nil =>
      have hz : s.rem - 1 = 0 := BitVec.eq_of_toNat_eq hsub
      rw [if_pos hz, hz]
      rfl
    | cons c msg =>
      have hz : s.rem - 1 ≠ 0 := fun h => absurd (h ▸ hsub) (Nat.succ_ne_zero _).symm
      rw [if_neg hz]
      calc
        _ = feedAll bs (taken (c :: msg) (taken [b] (summed (b :: c :: msg) { s with st := .crc1, rem := 0 }))) :=
          ih (s := taken [b] (upd b { s with rem := s.rem - 1 })) hst (List.cons_ne_nil c msg) hsub.symm
            (Nat.succ_add_eq_add_succ s.wp _ ▸ hcap)
        _ = _ := by rw [taken_taken]; rfl

/-- The decoder behind all bytes of a valid frame but the last. -/
def beforeLastByte (tid : BitVec 16) (msg : List Byte) (s : State) : State :=
  midFrame .crc2 tid (BitVec.ofNat 8 msg.length) 0 (frameChecksum tid msg)
    (frameBytes tid (BitVec.ofNat 8 msg.length) (msg ++ [(frameChecksum tid msg).1])) s

theorem toNat_length {msg : List Byte} (hlim : msg.length < 200) : (BitVec.ofNat 8 msg.length).toNat = msg.length := by
  rw [BitVec.toNat_ofNat]
  omega

theorem midFrame_wp (f : FState) (tid : BitVec 16) (len rem : Byte) (sums : Byte × Byte) (bs : List Byte) (s : State) :
    (midFrame f tid len rem sums bs s).wp = bs.length :=
  Nat.zero_add _

@[simp] theorem frameBytes_length (tid : BitVec 16) (len : Byte) (body : List Byte) :
    (frameBytes tid len body).length = 5 + body.length :=
  Nat.add_comm body.length 5

/-- A valid frame is accepted up to its last byte (R107). -/
theorem feedAll_validFrameBytes {s : State} {tid : BitVec 16} {msg : List Byte} (hst : s.st = .header1)
    (hcap : 206 ≤ s.cfg.cap) (hmin : 4 ≤ msg.length) (hlim : msg.length < 200) :
    feedAll (validFrameBytes tid msg) s = feedAll [(frameChecksum tid msg).2] (beforeLastByte tid msg s) := by
  have hlen := toNat_length hlim
  have hroom : ∀ f rem sums, (midFrame f tid (BitVec.ofNat 8 msg.length) rem sums
      (frameBytes tid (BitVec.ofNat 8 msg.length) []) s).wp + msg.length < s.cfg.cap := fun f rem sums => by
    rw [midFrame_wp, frameBytes_length, List.length_nil]
    omega
  calc
    _ = feedAll (msg ++ [(frameChecksum tid msg).1, (frameChecksum tid msg).2])
          (midFrame .message tid (BitVec.ofNat 8 msg.length) (BitVec.ofNat 8 msg.length)
            (cks (covered tid (BitVec.ofNat 8 msg.length) [])) (frameBytes tid (BitVec.ofNat 8 msg.length) []) s) :=
      feedAll_header hst hcap (legalLength_iff.2 (by omega)) _
    _ = feedAll [(frameChecksum tid msg).1, (frameChecksum tid msg).2] (taken msg
          (midFrame .crc1 tid (BitVec.ofNat 8 msg.length) 0 (frameChecksum tid msg)
            (frameBytes tid (BitVec.ofNat 8 msg.length) []) s)) :=
      feedAll_message _ msg rfl (List.ne_nil_of_length_pos (by omega)) hlen.symm (Nat.le_of_lt (hroom ..))
    _ = feedAll [(frameChecksum tid msg).2] (taken [(frameChecksum tid msg).1] (taken msg
          (midFrame .crc2 tid (BitVec.ofNat 8 msg.length) 0 (frameChecksum tid msg)
            (frameBytes tid (BitVec.ofNat 8 msg.length) []) s))) :=
      feedAll_crc1 _ rfl rfl (hroom ..)
    _ = _ := by rw [midFrame, taken_taken, taken_taken]; rfl

/-! ## The last byte -/

/-- `CRC2` on its match: the byte is stored, the message walked to its end, the frame completed (R108). -/
theorem byteCrc2_of_match {b : Byte} {s : State} (hb : b = s.c1) (hroom : s.wp < s.cfg.cap)
    (hview : 5 + s.len.toNat ≤ s.cfg.cap) : ∃ w, walk s.len.toNat (dispatchBegin (stored b s)) = .next w ∧
      w.cur = w.len ∧ byteCrc2 b s = .next (completeFrame (dispatchEnd w)) := by
  obtain ⟨w, hw, -, hcur, hframe⟩ := walk_dispatch (fun _ => True) (stored b s) trivial fun _ _ _ _ _ => trivial
  have hrun : runDispatch (stored b s) = .next (dispatchEnd w) :=
    (if_pos hview).trans (by rw [hw, andThen_next])
  refine ⟨w, hw, hcur.trans (by rw [hframe]), ?_⟩
  rw [byteCrc2, if_pos hb, store_of_lt hroom, andThen_next, hrun, andThen_next]

theorem beforeLastByte_wp (tid : BitVec 16) (msg : List Byte) (s : State) :
    (beforeLastByte tid msg s).wp = 6 + msg.length := by
  rw [beforeLastByte, midFrame_wp, frameBytes_length, List.length_append, List.length_singleton]
  omega

/-- A valid frame fed from `Header1` of a good state is completed by its last byte (R114). -/
theorem exec_validFrame {s : State} {tid : BitVec 16} {msg : List Byte} (hs : Inv s) (hst : s.st = .header1)
    (hmin : 4 ≤ msg.length) (hlim : msg.length < 200) : ∃ t, exec (validFrame tid msg) s = .next (reportStatus t) ∧
      Completed (frameChecksum tid msg).2 (beforeLastByte tid msg s) t := by
  have hcap := hs.cap
  have hlen : (beforeLastByte tid msg s).len.toNat = msg.length := toNat_length hlim
  have hcfg : (beforeLastByte tid msg s).cfg = s.cfg := rfl
  have hwp := beforeLastByte_wp tid msg s
  obtain ⟨w, -, -, hlast⟩ := byteCrc2_of_match (b := (frameChecksum tid msg).2) (s := beforeLastByte tid msg s) rfl
    (by rw [hwp, hcfg]; omega) (by rw [hlen, hcfg]; omega)
  have hfed : feedAll (validFrameBytes tid msg) s = .next (reportStatus (completeFrame (dispatchEnd w))) :=
    (feedAll_validFrameBytes hst hcap hmin hlim).trans (feedAll_cons hlast)
  exact ⟨_, (whenIdle_of_idle hs.idle _).trans hfed, completed_of_last_done hlast rfl⟩

/-! ## Where a valid frame stands -/

/-- The bytes of a valid frame are written one after another from offset 0 on (R41, R42). -/
theorem write_beforeLastByte (tid : BitVec 16) (msg : List Byte) (s : State) :
    Memory.write (beforeLastByte tid msg s).buf (beforeLastByte tid msg s).wp (frameChecksum tid msg).2 =
      Memory.writeAll s.buf 0 (validFrameBytes tid msg) := by
  have hbytes : frameBytes tid (BitVec.ofNat 8 msg.length) (msg ++ [(frameChecksum tid msg).1]) ++
      [(frameChecksum tid msg).2] = validFrameBytes tid msg := by
    simp only [frameBytes, validFrameBytes, List.cons_append, List.append_assoc, List.nil_append]
  exact (writeAll_append s.buf 0 _ [(frameChecksum tid msg).2]).trans (by rw [hbytes])

/-- Settles O44: the completing step stores the last byte behind the others and leaves the buffer alone otherwise. -/
theorem frameStandsAtItsWireOffsets : Obligations.FrameStandsAtItsWireOffsets := by
  intro s tid msg hs hst hmin hlim
  obtain ⟨t, ht, hc⟩ := exec_validFrame (tid := tid) hs hst hmin hlim
  obtain ⟨r, p, n, rfl⟩ := hc.frame
  have hbuf := write_beforeLastByte tid msg s
  have hlength : (validFrameBytes tid msg).length = 7 + msg.length := by
    simp only [validFrameBytes, frameBytes_length, List.length_append, List.length_cons, List.length_nil]
    omega
  have hread : ∀ a, Memory.read (Memory.writeAll s.buf 0 (validFrameBytes tid msg)) a =
      if a < 7 + msg.length then (validFrameBytes tid msg)[a]? else Memory.read s.buf a := fun a => by
    rw [read_writeAll, hlength, Nat.zero_add, Nat.sub_zero]
    simp
  refine ⟨_, ht, ?_, fun a ha => ?_, fun a ha => ?_⟩
  · exact (congrArg (· + 1) (beforeLastByte_wp tid msg s)).trans (by omega)
  · exact (congrArg (Memory.read · a) hbuf).trans ((hread a).trans (if_pos ha))
  · exact (congrArg (Memory.read · a) hbuf).trans ((hread a).trans (if_neg (Nat.not_lt_of_le ha)))

/-! ## The dispatch one sub-record a step -/

/-- With no outputs pending, a step inside a dispatch is `stepWalking` of the state as it stands. -/
theorem step_of_walking_of_out_nil {s : State} (ha : s.act = .walking) (ho : s.out = []) : step s = stepWalking s := by
  have hs : { s with out := [] } = s := by rw [← ho]
  rw [step_of_walking ha, hs]

/-- At the end of the message one step completes the frame. -/
theorem run_one_of_end {s : State} (ha : s.act = .walking) (ho : s.out = []) (hstop : ¬ walkGoesOn s = true) :
    Host.Core.run Sys2Proof.core 1 s = .next (reportStatus (completeFrame (dispatchEnd s))) :=
  run_succ_eq_next.2 ⟨_, (step_of_walking_of_out_nil ha ho).trans (stepWalking_of_end hstop), rfl⟩

/-- The walk as steps of the block: one step an iteration, and one more to complete the frame (log 4). -/
theorem run_of_walk {w : State} (hend : w.cur = w.len) : ∀ (n : Nat) {s : State}, s.act = .walking → s.out = [] →
    walk n s = .next w → ∃ k, k ≤ n + 1 ∧
      Host.Core.run Sys2Proof.core k s = .next (reportStatus (completeFrame (dispatchEnd w))) := by
  have hstop : ¬ walkGoesOn w = true := fun h => Nat.ne_of_lt (walkGoesOn_iff.1 h) (congrArg BitVec.toNat hend)
  intro n
  induction n with
  | zero =>
    intro s ha ho hw
    cases hw
    exact ⟨1, le_refl _, run_one_of_end ha ho hstop⟩
  | succ n ih =>
    intro s ha ho hw
    rw [walk] at hw
    split at hw
    · rename_i hgo
      obtain ⟨u, hu, -, -, hframe⟩ := walkStep_next hgo
      obtain ⟨v, hv, hw⟩ := andThen_eq_next.1 hw
      cases hu.symm.trans hv
      obtain ⟨k, hk, hrun⟩ := ih (s := u) (by rw [hframe]; exact ha) (by rw [hframe]; exact ho) hw
      have hstep : step s = .next u :=
        (step_of_walking_of_out_nil ha ho).trans ((stepWalking_of_walkGoesOn hgo).trans hu)
      exact ⟨k + 1, Nat.succ_le_succ hk, run_succ_eq_next.2 ⟨u, hstep, hrun⟩⟩
    · cases hw
      exact ⟨1, Nat.le_add_left _ _, run_one_of_end ha ho hstop⟩

/-- Settles O39: `CRC2` completes the frame where its walk ends, and the steps take the same walk. -/
theorem atomicDispatchIsTheStepwiseWalk : Obligations.AtomicDispatchIsTheStepwiseWalk := by
  intro b s hidle hout hb hroom hview
  obtain ⟨w, hw, hend, hlast⟩ := byteCrc2_of_match hb hroom hview
  obtain ⟨k, hk, hrun⟩ := run_of_walk hend s.len.toNat (s := dispatchBegin (stored b s)) rfl hout hw
  have hexec : exec (.crc2 b) s = .next (reportStatus (completeFrame (dispatchEnd w))) :=
    (whenIdle_of_idle hidle _).trans (by rw [hlast, answer_next])
  exact ⟨k, _, hk, hexec, hrun⟩

end Sys2Proof.Machine
end

section
/-! PROOFS for spec/30_encoding.md: decode and encode agree (O6, O7), the words of the opcode table (O5), a frame as its
bytes fed (O42), and the rows that a configuration does not have (O28). -/

namespace Sys2Proof

open Sys2Proof.Machine (rowOf rowOf_build)

/-! ## Data bytes from the words read in them -/

/-- The bytes of the word at offset `o` are the data's own bytes there (R48, R136). -/
theorem leBytes_leWord {w n : Nat} (d : List Byte) (o : Nat) (hn : w / 8 = n) (hw : 2 ^ w = 256 ^ n)
    (hl : o + n ≤ d.length) : leBytes n (leWord w o d).toNat = (d.drop o).take n := by
  have hlen : ((d.drop o).take n).length = n := by
    rw [List.length_take, List.length_drop]
    omega
  calc
    leBytes n (leWord w o d).toNat = leBytes n (leu ((d.drop o).take n)) := by rw [(leWord_value d o hn hw hl).1]
    _ = leBytes ((d.drop o).take n).length (leu ((d.drop o).take n)) := by rw [hlen]
    _ = (d.drop o).take n := leBytes_leu _

/-- A word's bytes and the data behind it are the data from the word on. -/
theorem leBytes_leWord_append_drop {w n : Nat} (d : List Byte) (o : Nat) (hn : w / 8 = n) (hw : 2 ^ w = 256 ^ n)
    (hl : o + n ≤ d.length) : leBytes n (leWord w o d).toNat ++ d.drop (o + n) = d.drop o := by
  rw [leBytes_leWord d o hn hw hl, ← List.drop_drop, List.take_append_drop]

/-- The last word's bytes are the end of the data. -/
theorem leBytes_leWord_last {w n : Nat} (d : List Byte) (o : Nat) (hn : w / 8 = n) (hw : 2 ^ w = 256 ^ n)
    (hl : o + n = d.length) : leBytes n (leWord w o d).toNat = d.drop o := by
  have h := leBytes_leWord_append_drop d o hn hw hl.le
  rwa [hl, List.drop_length, List.append_nil] at h

theorem bytes32_leWord_append_drop (d : List Byte) (o : Nat) (hl : o + 4 ≤ d.length) :
    bytes32 (leWord 32 o d) ++ d.drop (o + 4) = d.drop o :=
  leBytes_leWord_append_drop d o rfl rfl hl

theorem bytes32_leWord_last (d : List Byte) (o : Nat) (hl : o + 4 = d.length) :
    bytes32 (leWord 32 o d) = d.drop o :=
  leBytes_leWord_last d o rfl rfl hl

theorem bytes64_leWord_append_drop (d : List Byte) (o : Nat) (hl : o + 8 ≤ d.length) :
    bytes64 (leWord 64 o d) ++ d.drop (o + 8) = d.drop o :=
  leBytes_leWord_append_drop d o rfl rfl hl

theorem bytes64_leWord_last (d : List Byte) (o : Nat) (hl : o + 8 = d.length) :
    bytes64 (leWord 64 o d) = d.drop o :=
  leBytes_leWord_last d o rfl rfl hl

/-- Twelve bytes from their three words. -/
theorem bytes32_three_leWord {d : List Byte} (hd : d.length = 12) :
    bytes32 (leWord 32 0 d) ++ (bytes32 (leWord 32 4 d) ++ bytes32 (leWord 32 8 d)) = d := by
  rw [bytes32_leWord_last d 8 hd.symm, bytes32_leWord_append_drop d 4 (by omega),
    bytes32_leWord_append_drop d 0 (by omega), List.drop_zero]

theorem bytesLanes3_lanes3 {d : List Byte} (hd : d.length = 12) : bytesLanes3 (lanes3 d) = d :=
  bytes32_three_leWord hd

theorem bytesLanes4_lanes4 {d : List Byte} (hd : d.length = 16) : bytesLanes4 (lanes4 d) = d := by
  rw [bytesLanes4, lanes4, bytes32_leWord_last d 12 hd.symm, bytes32_leWord_append_drop d 8 (by omega),
    bytes32_leWord_append_drop d 4 (by omega), bytes32_leWord_append_drop d 0 (by omega), List.drop_zero]

/-! ## The altitude under both widths -/

/-- The altitude read has the width the configuration asks for (R66, R167). -/
theorem altitudeOf_fits (c : Cfg) (d : List Byte) : (altitudeOf c d).fits c = true := by
  unfold altitudeOf
  split
  case h_1 h => exact beq_iff_eq.2 h
  case h_2 h => exact beq_iff_eq.2 h

theorem bytesAltitude_altitudeOf {c : Cfg} {d : List Byte} (hd : d.length = 16 + c.hpAlt.bytes) :
    bytesAltitude (altitudeOf c d) = d.drop 16 := by
  unfold altitudeOf
  split
  case h_1 h => exact bytes32_leWord_last d 16 (by rw [hd, h]; rfl)
  case h_2 h => exact bytes64_leWord_last d 16 (by rw [hd, h]; rfl)

theorem bytesAltitude_length {c : Cfg} {alt : Altitude} (h : alt.fits c = true) :
    (bytesAltitude alt).length = c.hpAlt.bytes := by
  cases alt with
  | w4 v => rw [beq_iff_eq.1 h]; exact bytes32_length v
  | w8 v => rw [beq_iff_eq.1 h]; exact bytes64_length v

/-- An altitude of the configuration's width is read from its own bytes. -/
theorem altitudeOf_append {c : Cfg} {alt : Altitude} (h : alt.fits c = true) {pre : List Byte} (hpre : pre.length = 16) :
    altitudeOf c (pre ++ bytesAltitude alt) = alt := by
  cases alt with
  | w4 v =>
    have hword := leWord32_at pre v [] hpre
    rw [List.append_nil] at hword
    rw [altitudeOf, beq_iff_eq.1 h]
    exact congrArg Altitude.w4 hword
  | w8 v =>
    have hword := leWord64_at pre v [] hpre
    rw [List.append_nil] at hword
    rw [altitudeOf, beq_iff_eq.1 h]
    exact congrArg Altitude.w8 hword

/-! ## The data bytes of a sub-record -/

/-- The data bytes of a sub-record operation (R64, R66). -/
def subData : Instr → List Byte
  | .temp v | .temp2 v => leBytes 2 v.toNat
  | .acc v | .gyro v | .facc v | .dvel v | .vel v | .magn v | .magr v | .eul v | .acc2 v | .gyro2 v => bytesLanes3 v
  | .quat v | .dquat v => bytesLanes4 v
  | .loc lat lon alt => bytes32 lat ++ (bytes32 lon ++ bytes32 alt)
  | .loch lat lon alt => bytes64 lat ++ (bytes64 lon ++ bytesAltitude alt)
  | .tss v | .tsd v => bytes32 v
  | _ => []

/-- A sub-record operation is encoded as its row's header and its data (R64). -/
theorem encode_of_rowOf {i : Instr} {k : Kind} (hr : rowOf i = some k) (c : Cfg) :
    encode c i = .message (encodeSub c k (subData i)) := by
  cases i <;> cases hr <;> rfl

/-- The row of a well-formed sub-record operation is active (R73). -/
theorem idOf_isSome_of_wf {c : Cfg} {i : Instr} {k : Kind} (hr : rowOf i = some k) (hi : i.wf c = true) :
    (c.idOf k).isSome = true := by
  cases i with
  | temp2 v | acc2 v | gyro2 v => cases hr; exact hi
  | _ => cases hr <;> rfl

/-- A sub-record operation has the data length its row expects (R65). -/
theorem subData_length {c : Cfg} {i : Instr} {k : Kind} (hr : rowOf i = some k) (hi : i.wf c = true) :
    (subData i).length = k.expLen c := by
  cases i with
  | temp v | temp2 v => cases hr; exact leBytes_length 2 _
  | acc v | gyro v | facc v | dvel v | vel v | magn v | magr v | eul v | acc2 v | gyro2 v =>
    cases hr; exact bytesLanes3_length v
  | quat v | dquat v => cases hr; exact bytesLanes4_length v
  | loc lat lon alt => cases hr; exact bytesLanes3_length ⟨lat, lon, alt⟩
  | loch lat lon alt =>
    cases hr
    rw [subData, List.length_append, List.length_append, bytes64_length, bytes64_length,
      bytesAltitude_length hi, ← Nat.add_assoc]
    rfl
  | tss v | tsd v => cases hr; exact bytes32_length v
  | _ => cases hr

/-- A sub-record operation is built from its own data (R66). -/
theorem build_subData {c : Cfg} {i : Instr} {k : Kind} (hr : rowOf i = some k) (hi : i.wf c = true) :
    k.build c (subData i) = i := by
  cases i with
  | temp v | temp2 v => cases hr; simp only [Kind.build, subData, leWord16]
  | acc v | gyro v | facc v | dvel v | vel v | magn v | magr v | eul v | acc2 v | gyro2 v =>
    cases hr; simp only [Kind.build, subData, lanes3_bytes]
  | quat v | dquat v => cases hr; simp only [Kind.build, subData, lanes4_bytes]
  | loc lat lon alt =>
    cases hr
    obtain ⟨hlat, hlon, halt⟩ := leWord32_three lat lon alt
    simp only [Kind.build, subData, hlat, hlon, halt]
  | loch lat lon alt =>
    cases hr
    have hlat := leWord64_at (o := 0) [] lat (bytes64 lon ++ bytesAltitude alt) rfl
    have hlon := leWord64_at (bytes64 lat) lon (bytesAltitude alt) (bytes64_length lat)
    have halt := altitudeOf_append hi (pre := bytes64 lat ++ bytes64 lon) (by simp)
    rw [List.nil_append] at hlat
    rw [List.append_assoc] at halt
    simp only [Kind.build, subData, hlat, hlon, halt]
  | tss v | tsd v => cases hr; simp only [Kind.build, subData, leWord32]
  | _ => cases hr

/-- What is built from data of the expected length has this data: no byte of it is ignored (R66). -/
theorem subData_build {c : Cfg} {k : Kind} {d : List Byte} (hd : d.length = k.expLen c) :
    subData (k.build c d) = d := by
  cases k with
  | temp | temp2 => exact leBytes_leWord_last d 0 rfl rfl ((Nat.zero_add 2).trans hd.symm)
  | acc | gyro | facc | dvel | vel | magn | magr | eul | acc2 | gyro2 => exact bytesLanes3_lanes3 hd
  | quat | dquat => exact bytesLanes4_lanes4 hd
  | loc => exact bytes32_three_leWord hd
  | loch =>
    have hl : d.length = 16 + c.hpAlt.bytes := hd
    simp only [Kind.build, subData]
    rw [bytesAltitude_altitudeOf hl, bytes64_leWord_append_drop d 8 (by omega),
      bytes64_leWord_append_drop d 0 (by omega), List.drop_zero]
  | tss | tsd => exact bytes32_leWord_last d 0 ((Nat.zero_add 4).trans hd.symm)

/-- What is built for an active row is well-formed. -/
theorem wf_build {c : Cfg} {k : Kind} (hk : (c.idOf k).isSome = true) (d : List Byte) :
    (k.build c d).wf c = true := by
  cases k with
  | temp2 | acc2 | gyro2 => exact hk
  | loch => exact altitudeOf_fits c d
  | _ => rfl

/-! ## Frames -/

/-- A transaction id from its two bytes (R60). -/
theorem tid_halves (tid : BitVec 16) : tid.extractLsb' 8 8 ++ tid.extractLsb' 0 8 = tid :=
  (BitVec.extractLsb'_append_extractLsb'_eq_extractLsb' rfl).trans BitVec.extractLsb'_eq_self

/-- The wire bytes behind a transaction id put together from `hi` and `lo` begin with these (R60). -/
theorem frameBytes_append (hi lo len : Byte) (body : List Byte) :
    frameBytes (hi ++ lo) len body = MAGIC1 :: MAGIC2 :: lo :: hi :: len :: body := by
  rw [frameBytes, BitVec.extractLsb'_append_eq_right, BitVec.extractLsb'_append_eq_left]

/-- A frame's own bytes decode to it, whatever follows (R60, R61, R74). -/
theorem decodeFrame_frameBytes (tid : BitVec 16) {len : Byte} {body : List Byte}
    (hbody : body.length = frameBodyLength len) (rest : List Byte) :
    decodeFrame (frameBytes tid len body ++ rest) = .ok (.frame tid len body, rest) := by
  have hroom : frameBodyLength len ≤ (body ++ rest).length := by
    rw [List.length_append, hbody]
    exact Nat.le_add_right _ _
  simp only [frameBytes, List.cons_append, decodeFrame, and_self, if_true, if_pos hroom, tid_halves,
    List.take_left' hbody, List.drop_left' hbody]

/-- Bytes that decode to a frame are its bytes and what is left over. -/
theorem decodeFrame_eq_ok {m rest : List Byte} {i : Instr} (h : decodeFrame m = .ok (i, rest)) :
    ∃ tid len body, i = .frame tid len body ∧ body.length = frameBodyLength len ∧
      frameBytes tid len body ++ rest = m := by
  unfold decodeFrame at h
  split at h
  case h_2 => cases h
  case h_1 m1 m2 lo hi len tail =>
    split at h
    case isFalse => cases h
    case isTrue hmagic =>
      split at h
      case isFalse => cases h
      case isTrue hroom =>
        obtain ⟨rfl, rfl⟩ := hmagic
        cases h
        refine ⟨hi ++ lo, len, tail.take (frameBodyLength len), rfl, List.length_take_of_le hroom, ?_⟩
        simp only [frameBytes_append, List.cons_append, List.take_append_drop]

/-! ## Decoding what was encoded -/

/-- Every code from 8 on selects `BADST`, which keeps its low bits (R80). -/
theorem decodeFsm_of_le {code : BitVec 4} (h : 8 ≤ code.toNat) (b : Byte) :
    decodeFsm code b = .badst (code.setWidth 3) b := by
  unfold decodeFsm
  split
  case h_9 => rfl
  all_goals omega

theorem decodeFsm_badst (low : BitVec 3) (b : Byte) : decodeFsm (8 + low.setWidth 4) b = .badst low b := by
  have hcode : 8 ≤ (8 + low.setWidth 4).toNat := by revert low; decide
  have hlow : (8 + low.setWidth 4).setWidth 3 = low := by revert low; decide
  rw [decodeFsm_of_le hcode, hlow]

theorem decode_encode_of_rowOf {c : Cfg} {i : Instr} {k : Kind} (hc : c.wf = true) (hr : rowOf i = some k)
    (hi : i.wf c = true) : decode c (encode c i) = .ok i := by
  obtain ⟨id, hid⟩ := Option.isSome_iff_exists.1 (idOf_isSome_of_wf hr hi)
  have hd := decodeSub_encodeSub hc hid (subData_length hr hi) []
  rw [List.append_nil, build_subData hr hi] at hd
  rw [encode_of_rowOf hr, decode, hd, wholeOf]

theorem decode_encode_of_rowOf_none {c : Cfg} {i : Instr} (hr : rowOf i = none) (hi : i.wf c = true) :
    decode c (encode c i) = .ok i := by
  cases i with
  | h1 _ | h2 _ | tidl _ | tidh _ | len _ | msg _ | crc1 _ | crc2 _ => rfl
  | badst low b => exact congrArg Except.ok (decodeFsm_badst low b)
  | frame tid len body =>
    have hd := decodeFrame_frameBytes tid (beq_iff_eq.1 hi) []
    rw [List.append_nil] at hd
    rw [encode, decode, hd, wholeOf]
  | noise b => rfl
  | reset _ | feed _ | scan _ | rdtrace | rdrec | dispatch | upd _ | clr => rfl
  | _ => cases hr

/-- Settles O6: a sub-record is found by its id and built from its own data; every other code is read by its format. -/
theorem decodeOfEncodeIsTheInstruction : Obligations.DecodeOfEncodeIsTheInstruction := by
  intro c i hc hi
  cases hr : rowOf i with
  | none => exact decode_encode_of_rowOf_none hr hi
  | some k => exact decode_encode_of_rowOf hc hr hi

/-! ## Encoding what was decoded -/

/-- A sub-record operation read from a message encodes back to the bytes it was read from. -/
theorem encode_build {c : Cfg} {k : Kind} {id : Byte} (hid : c.idOf k = some id) {d : List Byte}
    (hd : d.length = k.expLen c) : encode c (k.build c d) = .message (id :: BitVec.ofNat 8 (k.expLen c) :: d) := by
  rw [encode_of_rowOf (rowOf_build c k d), subData_build hd, encodeSub, hid, Option.getD_some]

/-- What the sub-record decoder reads is well-formed, and its code and what is left over are the message. -/
theorem decodeSub_eq_ok {c : Cfg} {m rest : List Byte} {i : Instr} (h : decodeSub c m = .ok (i, rest)) :
    i.wf c = true ∧ ∃ bs, encode c i = .message bs ∧ bs ++ rest = m := by
  cases m with
  | nil => cases h
  | cons b m =>
    rcases decodeSub_total c b m with ⟨-, hd⟩ | ⟨k, id, data, -, hid, rfl, rfl, hroom, hd⟩
    · cases hd.symm.trans h
      exact ⟨rfl, [b], rfl, rfl⟩
    · cases hd.symm.trans h
      refine ⟨wf_build (Option.isSome_of_eq_some hid) _, _, encode_build hid (List.length_take_of_le hroom), ?_⟩
      rw [List.cons_append, List.cons_append, List.take_append_drop]

/-- Settles O7: for messages row by row, for frames by their layout. -/
theorem decodedBytesEncodeBack : Obligations.DecodedBytesEncodeBack := by
  intro c m rest i
  refine ⟨decodeSub_eq_ok, fun h => ?_⟩
  obtain ⟨tid, len, body, rfl, hbody, hm⟩ := decodeFrame_eq_ok h
  exact ⟨beq_iff_eq.2 hbody, _, rfl, hm⟩

/-! ## The words of the opcode table -/

/-- A short word is a state code (R83, log 18). -/
theorem decodeTableWord_of_le_eight {nbits : Nat} (h : nbits ≤ 8) (w : Nat) :
    decodeTableWord nbits w = some (decodeFsm (BitVec.ofNat 4 w) 0) :=
  if_pos h

/-- The word of a row's header, as the table writes it: the id byte below the expected length (R72, R83). -/
def headerWord (c : Cfg) (k : Kind) (id : Byte) : Nat := id.toNat + 256 * k.expLen c

theorem leBytes_headerWord (c : Cfg) (k : Kind) (id : Byte) :
    leBytes 2 (headerWord c k id) = [id, BitVec.ofNat 8 (k.expLen c)] := by
  have hbytes := leBytes_leu [id, BitVec.ofNat 8 (k.expLen c)]
  simp only [leu, expLen_toNat, Nat.mul_zero, Nat.add_zero] at hbytes
  exact hbytes

/-- No row's header is the magic pair: no row expects as many data bytes as the second magic byte says. -/
theorem isFrameWord_headerWord (c : Cfg) (k : Kind) (id : Byte) : isFrameWord (headerWord c k id) = false := by
  have hlen := Kind.expLen_le c k
  have hid := id.isLt
  refine beq_eq_false_iff_ne.2 fun h => ?_
  have h := congrArg BitVec.toNat h
  rw [BitVec.toNat_ofNat, headerWord, show (MAGIC2 ++ MAGIC1).toNat = 21337 from rfl] at h
  omega

/-- The header word of a row of the default table decodes to that row with zero data (log 18). -/
theorem decodeTableWord_headerWord {k : Kind} {id : Byte} (hid : Cfg.default.idOf k = some id) :
    decodeTableWord 16 (headerWord Cfg.default k id) =
      some (k.build Cfg.default (List.replicate (k.expLen Cfg.default) 0)) := by
  have hpad : List.replicate 24 (0 : Byte) = List.replicate (k.expLen Cfg.default) 0 ++
      List.replicate (24 - k.expLen Cfg.default) 0 := by
    rw [List.replicate_append_replicate, Nat.add_sub_cancel' (Kind.expLen_le Cfg.default k)]
  have hbytes : tableBytes 16 (headerWord Cfg.default k id) SUB_MAX =
      encodeSub Cfg.default k (List.replicate (k.expLen Cfg.default) 0) ++
        List.replicate (24 - k.expLen Cfg.default) 0 := by
    calc
      _ = leBytes 2 (headerWord Cfg.default k id) ++ List.replicate 24 0 := rfl
      _ = _ := by rw [leBytes_headerWord, hpad, encodeSub, hid]; rfl
  rw [decodeTableWord, if_neg (by decide), isFrameWord_headerWord, hbytes,
    decodeSub_encodeSub Machine.cfg_default_wf hid List.length_replicate]
  rfl

/-- The same, where the word and what is built from zero data are given as the table gives them. -/
theorem decodeTableWord_row {k : Kind} {id : Byte} {w : Nat} {i : Instr} (hid : Cfg.default.idOf k = some id)
    (hw : headerWord Cfg.default k id = w)
    (hi : k.build Cfg.default (List.replicate (k.expLen Cfg.default) 0) = i) : decodeTableWord 16 w = some i := by
  rw [← hw, ← hi, decodeTableWord_headerWord hid]

/-- Settles O5: the state codes, the magic pair, each row's header, and a header that no row has. -/
theorem tableWordsDecodeToTheirRows : Obligations.TableWordsDecodeToTheirRows := by
  have code : ∀ w, decodeTableWord 8 w = some (decodeFsm (BitVec.ofNat 4 w) 0) :=
    decodeTableWord_of_le_eight (le_refl 8)
  have frame : decodeTableWord 16 0x5359 = some (.frame 0 0 []) := by decide
  have noRow : decodeTableWord 16 0x0D60 = some (.noise 0x60) := by decide
  exact ⟨code 0, code 1, code 2, code 3, code 4, code 5, code 6, code 7, code 8, code 0xB, frame,
    decodeTableWord_row (k := .temp) rfl rfl rfl, decodeTableWord_row (k := .acc) rfl rfl rfl,
    decodeTableWord_row (k := .gyro) rfl rfl rfl, decodeTableWord_row (k := .facc) rfl rfl rfl,
    decodeTableWord_row (k := .dvel) rfl rfl rfl, decodeTableWord_row (k := .vel) rfl rfl rfl,
    decodeTableWord_row (k := .magn) rfl rfl rfl, decodeTableWord_row (k := .magr) rfl rfl rfl,
    decodeTableWord_row (k := .eul) rfl rfl rfl, decodeTableWord_row (k := .quat) rfl rfl rfl,
    decodeTableWord_row (k := .dquat) rfl rfl rfl, decodeTableWord_row (k := .loc) rfl rfl rfl,
    decodeTableWord_row (k := .loch) rfl rfl rfl, decodeTableWord_row (k := .tss) rfl rfl rfl,
    decodeTableWord_row (k := .tsd) rfl rfl rfl, noRow⟩

namespace Machine

/-! ## A frame as its bytes fed -/

/-- From a good state the host's `FEED`s are the byte-feed steps of the bytes: every step leaves a good state, in which the
next `FEED` is not refused (R8). -/
theorem execAll_map_feed : ∀ (bs : List Byte) {s : State}, Inv s → execAll (bs.map .feed) s = feedAll bs s := by
  intro bs
  induction bs with
  | nil => intro s _; rfl
  | cons b bs ih =>
    intro s hs
    obtain ⟨t, ht, hi⟩ := byteStep_inv hs b
    have hfeed : exec (.feed b) s = .next (reportStatus t) := exec_feed_eq_next.2 ⟨hs.idle, t, ht, rfl⟩
    rw [List.map_cons, execAll, hfeed, andThen_next, ih (hi.withOutputs rfl), feedAll_cons ht]

/-- Settles O42: the frame and the `FEED`s are one run of byte-feed steps, which answers from every good state. -/
theorem frameIsItsBytesFed : Obligations.FrameIsItsBytesFed := by
  intro tid n body s hs
  obtain ⟨t, ht, hi, -⟩ := feedAll_next (frameBytes tid n body) hs
  exact ⟨t, (whenIdle_of_idle hs.idle _).trans ht, (execAll_map_feed _ hs).trans ht, hi⟩

/-! ## Rows that the configuration does not have -/

/-- A sub-record operation of a row that is not active is refused by the row's name (R73, log 19). -/
theorem exec_of_inactive {i : Instr} {k : Kind} {s : State} (hr : rowOf i = some k) (hk : s.cfg.idOf k = none) :
    exec i s = .refused (.inactiveRow k) := by
  rw [exec_row hr, subRecord, hk]

/-- With `DUAL = false` the table has no second-sensor row (R73). -/
theorem idOf_secondSensor {c : Cfg} (h : c.dual = false) :
    c.idOf .temp2 = none ∧ c.idOf .acc2 = none ∧ c.idOf .gyro2 = none := by
  simp only [Cfg.idOf, h, Bool.false_eq_true, if_false, and_self]

/-- Settles O28: none of the three rows is active. -/
theorem inactiveRowIsRefused : Obligations.InactiveRowIsRefused := by
  intro v w s hdual
  obtain ⟨htemp, hacc, hgyro⟩ := idOf_secondSensor hdual
  exact ⟨exec_of_inactive rfl htemp, exec_of_inactive rfl hacc, exec_of_inactive rfl hgyro⟩

end Machine
end Sys2Proof
end

section
/-! PROOFS for spec/40_checksum.md: what `UPD` and `CLR` do (O22), the closed form of the checksum (O23), a change of one
byte in the first sum (O24), and the frame of which a message byte was changed (O25). -/

namespace Sys2Proof.Machine

/-! ## The two instructions -/

theorem exec_upd (b : Byte) (s : State) : exec (.upd b) s = .next (upd b s) := rfl

theorem exec_clr (s : State) : exec .clr s = .next (clr s) := rfl

/-- Settles O22: the two additions are those of 8-bit words, which wrap. -/
theorem updAndClrChangeTheAccumulatorOnly : Obligations.UpdAndClrChangeTheAccumulatorOnly := by
  refine ⟨fun b s => ⟨upd b s, exec_upd b s, rfl, ?_, ?_, fun _ => rfl⟩, fun s => ⟨clr s, exec_clr s, rfl, fun _ => rfl⟩⟩
  · rw [upd_c0, BitVec.toNat_add]
  · rw [upd_c1, upd_c0, BitVec.toNat_add s.c1]

/-- `UPD` of each byte in turn leaves the accumulator after the bytes, and the rest of the state alone. -/
theorem execAll_map_upd (bs : List Byte) (s : State) : execAll (bs.map .upd) s = .next (summed bs s) := by
  induction bs generalizing s with
  | nil => rfl
  | cons b bs ih => rw [List.map_cons, execAll, exec_upd, andThen_next, ih]; rfl

/-- `CLR` and then `UPD` of each byte (R92). -/
theorem execAll_clr_map_upd (bs : List Byte) (s : State) :
    execAll (.clr :: bs.map .upd) s = .next (summed bs (clr s)) := by
  rw [execAll, exec_clr, andThen_next, execAll_map_upd]

/-! ## The closed form -/

/-- One more byte at the end adds one to the weight of every byte before it, and has itself weight one. -/
theorem weightedSum_succ (f : ℕ → ℕ) (n : ℕ) :
    ∑ i ∈ Finset.range (n + 1), (n + 1 - i) * f i =
      ∑ i ∈ Finset.range n, (n - i) * f i + ∑ i ∈ Finset.range (n + 1), f i := by
  have hweight : ∀ i ∈ Finset.range n, (n + 1 - i) * f i = (n - i) * f i + f i := fun i hi => by
    rw [Nat.succ_sub (Finset.mem_range.1 hi).le, Nat.succ_mul]
  rw [Finset.sum_range_succ, Finset.sum_congr rfl hweight, Finset.sum_add_distrib, Finset.sum_range_succ f,
    Nat.add_sub_cancel_left, one_mul, add_assoc]

/-- A sum over the indices of a list does not see what follows the list. -/
theorem sum_range_getD_append (w : ℕ → ℕ) (bs cs : List Byte) :
    ∑ i ∈ Finset.range bs.length, w i * ((bs ++ cs).getD i 0).toNat =
      ∑ i ∈ Finset.range bs.length, w i * (bs.getD i 0).toNat :=
  Finset.sum_congr rfl fun i hi => by rw [List.getD_append _ _ _ _ (Finset.mem_range.1 hi)]

/-- The first checksum byte is the sum of the bytes, modulo 256 (R92). -/
theorem cks_fst_toNat (bs : List Byte) :
    (cks bs).1.toNat = (∑ i ∈ Finset.range bs.length, (bs.getD i 0).toNat) % 256 := by
  induction bs using List.reverseRecOn with
  | nil => rfl
  | append_singleton bs b ih =>
    have hbefore := sum_range_getD_append (fun _ => 1) bs [b]
    have hlast : (bs ++ [b]).getD bs.length 0 = b := by simp
    simp only [one_mul] at hbefore
    rw [cks_snoc, updPair, BitVec.toNat_add, ih, List.length_append, List.length_singleton, Finset.sum_range_succ,
      hbefore, hlast, Nat.mod_add_mod]

/-- The second checksum byte is the sum of the bytes, each weighted with how many bytes there are from it on, modulo 256
(R92). -/
theorem cks_snd_toNat (bs : List Byte) :
    (cks bs).2.toNat = (∑ i ∈ Finset.range bs.length, (bs.length - i) * (bs.getD i 0).toNat) % 256 := by
  induction bs using List.reverseRecOn with
  | nil => rfl
  | append_singleton bs b ih =>
    have hfirst := cks_fst_toNat (bs ++ [b])
    rw [List.length_append, List.length_singleton] at hfirst ⊢
    rw [weightedSum_succ fun i => ((bs ++ [b]).getD i 0).toNat, sum_range_getD_append (bs.length - ·), Nat.add_mod, ← ih,
      ← hfirst, cks_snoc]
    exact BitVec.toNat_add _ _

/-- Settles O23: the run is `CLR` and `UPD` of each byte, and the closed form goes byte by byte from the end. -/
theorem checksumClosedForm : Obligations.ChecksumClosedForm := fun bs =>
  ⟨fun s => ⟨summed bs (clr s), execAll_clr_map_upd bs s, rfl⟩, cks_fst_toNat bs, cks_snd_toNat bs, rfl⟩

/-! ## One changed byte -/

theorem foldl_updPair_fst (bs : List Byte) (c : Byte × Byte) : (bs.foldl updPair c).1 = c.1 + bs.sum := by
  induction bs generalizing c with
  | nil => simp
  | cons b bs ih => rw [List.foldl_cons, ih, List.sum_cons, ← add_assoc]; rfl

/-- The first checksum byte is the sum of the bytes as 8-bit words, whatever their order. -/
theorem cks_fst (bs : List Byte) : (cks bs).1 = bs.sum := (foldl_updPair_fst bs (0, 0)).trans (zero_add _)

/-- The first checksum byte determines each byte from the others: addition of 8-bit words cancels. -/
theorem cks_fst_append_cons_inj {before after : List Byte} {x y : Byte} :
    (cks (before ++ x :: after)).1 = (cks (before ++ y :: after)).1 ↔ x = y := by
  simp only [cks_fst, List.sum_append, List.sum_cons, add_right_inj, add_left_inj]

/-- Settles O24: the other bytes contribute the same to both sums. -/
theorem oneChangedByteChangesTheFirstSum : Obligations.OneChangedByteChangesTheFirstSum :=
  fun _ _ _ _ hne h => hne (cks_fst_append_cons_inj.1 h)

/-- Two messages that differ in one byte have different first checksum bytes in a frame: the id and the length byte, which
the checksum covers too, are the same (R94, R96). -/
theorem frameChecksum_fst_append_cons_inj {tid : BitVec 16} {before after : List Byte} {x y : Byte} :
    (frameChecksum tid (before ++ x :: after)).1 = (frameChecksum tid (before ++ y :: after)).1 ↔ x = y := by
  simp only [frameChecksum, List.length_append, List.length_cons]
  exact cks_fst_append_cons_inj (before := covered tid _ before)

/-! ## A frame with a wrong first checksum byte -/

/-- The decoder behind the message of a frame, before its checksum bytes. -/
def behindMessage (tid : BitVec 16) (msg : List Byte) (s : State) : State :=
  midFrame .crc1 tid (BitVec.ofNat 8 msg.length) 0 (frameChecksum tid msg)
    (frameBytes tid (BitVec.ofNat 8 msg.length) msg) s

theorem behindMessage_out (tid : BitVec 16) (msg : List Byte) (s : State) :
    (behindMessage tid msg s).out = s.out ++ List.replicate (5 + msg.length) (.status .running) := by
  rw [← frameBytes_length tid (BitVec.ofNat 8 msg.length) msg]
  rfl

/-- A frame of legal length is accepted up to the end of its message, whatever follows (R101 to R106). -/
theorem feedAll_frameBytes_message {s : State} {tid : BitVec 16} {msg : List Byte} (hst : s.st = .header1)
    (hcap : 206 ≤ s.cfg.cap) (hmin : 4 ≤ msg.length) (hlim : msg.length < 200) (tail : List Byte) :
    feedAll (frameBytes tid (BitVec.ofNat 8 msg.length) (msg ++ tail)) s =
      feedAll tail (behindMessage tid msg s) := by
  have hlen := toNat_length hlim
  calc
    _ = feedAll (msg ++ tail) (midFrame .message tid (BitVec.ofNat 8 msg.length) (BitVec.ofNat 8 msg.length)
          (cks (covered tid (BitVec.ofNat 8 msg.length) [])) (frameBytes tid (BitVec.ofNat 8 msg.length) []) s) :=
      feedAll_header hst hcap (legalLength_iff.2 (by omega)) _
    _ = feedAll tail (taken msg (midFrame .crc1 tid (BitVec.ofNat 8 msg.length) 0 (frameChecksum tid msg)
          (frameBytes tid (BitVec.ofNat 8 msg.length) []) s)) := by
      refine feedAll_message tail msg rfl (List.ne_nil_of_length_pos (by omega)) hlen.symm ?_
      rw [midFrame_wp, frameBytes_length, List.length_nil]
      exact Nat.le_trans (by omega) hcap
    _ = _ := by rw [behindMessage, midFrame, taken_taken]; rfl

/-- `CRC1` on a byte that is not the first sum (R107). -/
theorem byteStep_crc1_of_mismatch {b : Byte} {s : State} (hst : s.st = .crc1) (hb : b ≠ s.c0) :
    byteStep b s = .next (raise .checksumError s) := by
  simp only [byteStep, hst, byteCrc1, hb, if_false]

/-- In `Header1` every byte is answered `Running` (R101). -/
theorem byteStep_header1_running {s : State} (hst : s.st = .header1) (hcap : 0 < s.cfg.cap) (b : Byte) :
    ∃ t, byteStep b s = .next t ∧ t.last = .running := by
  simp only [byteStep, hst, byteH1]
  by_cases hb : b = MAGIC1
  · rw [if_pos hb, store_of_lt (s := clearFrame s) hcap, andThen_next]
    exact ⟨_, rfl, rfl⟩
  · rw [if_neg hb]
    exact ⟨_, rfl, rfl⟩

/-- The two checksum bytes where the first is wrong: the first ends the frame with `ChecksumError`, the second is a byte
outside a frame (R107, R101). -/
theorem feedAll_checksum_of_mismatch {s : State} {b0 : Byte} (hst : s.st = .crc1) (hcap : 0 < s.cfg.cap)
    (hb : b0 ≠ s.c0) (b1 : Byte) : ∃ t, feedAll [b0, b1] s = .next t ∧
      t.out = s.out ++ [.status .checksumError, .status .running] ∧ t.cntDone = s.cntDone ∧
      t.cntFail = satInc s.cfg s.cntFail ∧ t.record = s.record ∧ t.present = s.present := by
  obtain ⟨u, hu, hl⟩ := byteStep_header1_running (s := reportStatus (raise .checksumError s)) rfl hcap b1
  obtain ⟨hout, hrecord, hpresent, -⟩ := byteStep_of_last_ne_done hu (by simp [hl])
  have hdone := byteStep_cntDone hu
  have hfail := byteStep_cntFail hu
  refine ⟨reportStatus u, by rw [feedAll_cons (byteStep_crc1_of_mismatch hst hb), feedAll_cons hu]; rfl, ?_, ?_, ?_,
    hrecord, hpresent⟩
  · simp [hout, hl]
  · simpa [hl] using hdone
  · simpa [hl] using hfail

/-- A frame of legal length with a wrong first checksum byte, from `Header1` of a good state: `Running` for the header and
the message, one `ChecksumError`, which is counted, and `Running` for the byte behind it; the record is as it was. -/
theorem exec_frame_of_mismatch {s : State} {tid : BitVec 16} {msg : List Byte} {b0 : Byte} (hs : Inv s)
    (hst : s.st = .header1) (hmin : 4 ≤ msg.length) (hlim : msg.length < 200) (hb : b0 ≠ (frameChecksum tid msg).1)
    (b1 : Byte) : ∃ t, exec (.frame tid (BitVec.ofNat 8 msg.length) (msg ++ [b0, b1])) s = .next t ∧
      t.out = s.out ++ (List.replicate (5 + msg.length) Status.running ++ [Status.checksumError, Status.running]).map .status ∧
      t.cntDone = s.cntDone ∧ t.cntFail = satInc s.cfg s.cntFail ∧ t.record = s.record ∧ t.present = s.present := by
  have hcap := hs.cap
  have hfed := feedAll_frameBytes_message (tid := tid) hst hcap hmin hlim [b0, b1]
  obtain ⟨t, ht, hout, hdone, hfail, hrecord, hpresent⟩ := feedAll_checksum_of_mismatch
    (s := behindMessage tid msg s) rfl (Nat.lt_of_lt_of_le (by decide) hcap) hb b1
  refine ⟨t, (whenIdle_of_idle hs.idle _).trans (hfed.trans ht), ?_, hdone, hfail, hrecord, hpresent⟩
  rw [hout, behindMessage_out]
  simp

/-- Statuses are no completion events. -/
theorem events_map_status (xs : List Status) : events (xs.map .status) = 0 := by
  induction xs with
  | nil => rfl
  | cons x xs ih => exact ih

/-- Settles O25: the changed message has another first sum, so the frame ends at its first checksum byte. -/
theorem corruptedMessageByteNeverCompletes : Obligations.CorruptedMessageByteNeverCompletes := by
  intro s tid before after x y hs hst hne hmin hlim
  have hlength : (before ++ x :: after).length = (before ++ y :: after).length := by simp
  obtain ⟨t, ht, hout, hdone, hfail, hrecord, hpresent⟩ := exec_frame_of_mismatch hs hst (hlength ▸ hmin)
    (hlength ▸ hlim) (fun h => hne (frameChecksum_fst_append_cons_inj.1 h)) (frameChecksum tid (before ++ x :: after)).2
  refine ⟨t, hlength ▸ ht, ?_, ?_, hdone, hfail, hrecord, hpresent⟩
  · rw [hout, events_append, events_map_status, Nat.add_zero]
  · rw [hout, List.drop_left]
    simp

end Sys2Proof.Machine
end

section
/-! PROOFS for spec/41_framer.md: `FEED` and the byte operations one by one (O11, O12, O14 to O21), the framer as a function
of its registers (O49), the end of every frame (O50), valid frames fed and scanned (O43, O56), and that no step from a good
state halts (O59). -/

namespace Sys2Proof.Machine

/-! ## What a dispatch leaves -/

theorem messageFrom_noise {s : State} (h : s.cur.toNat + 1 ≤ s.len.toNat) :
    (advance 1 s).messageFrom = s.messageFrom.drop 1 :=
  messageFrom_advance h rfl rfl rfl rfl

theorem messageFrom_decoded {id : Byte} {n : Nat} {r : SensorRecord} {s : State}
    (h : s.cur.toNat + (2 + n) ≤ s.len.toNat) : (decoded id n r s).messageFrom = s.messageFrom.drop (2 + n) :=
  messageFrom_advance h rfl rfl rfl rfl

/-- Where the walk goes on, one iteration executes the operation decoded at the cursor and puts the cursor before what
follows it (R132, R133). -/
theorem walkStep_decodeSub {s : State} (hgo : walkGoesOn s = true) : ∃ i rest t,
    decodeSub s.cfg s.messageFrom = .ok (i, rest) ∧ walkStep s = .next t ∧ exec i s = .next t ∧
      t.messageFrom = rest := by
  have hcur := walkGoesOn_iff.1 hgo
  have hlength := messageFrom_length s
  match hm : s.messageFrom with
  | [] =>
    rw [hm, List.length_nil] at hlength
    omega
  | b :: m =>
    rw [hm, List.length_cons] at hlength
    have hrun : ∀ {i : Instr} {rest : List Byte}, decodeSub s.cfg (b :: m) = .ok (i, rest) → walkStep s = exec i s :=
      fun hd => (stepWalking_of_walkGoesOn hgo).symm.trans (stepWalking_of_decodeSub hgo (hm ▸ hd))
    rcases decodeSub_total s.cfg b m with ⟨-, hd⟩ | ⟨k, id, data, -, hid, -, hdata, hfit, hd⟩
    · have hrest : s.messageFrom.drop 1 = m := by rw [hm]; rfl
      exact ⟨_, m, advance 1 s, hd, hrun hd, rfl, (messageFrom_noise hcur).trans hrest⟩
    · have hx := (exec_row (rowOf_build s.cfg k (data.take (k.expLen s.cfg))) s).trans (subRecord_of_idOf hid)
      rw [hdata, List.length_cons] at hlength
      have hrest : s.messageFrom.drop (2 + k.expLen s.cfg) = data.drop (k.expLen s.cfg) := by
        rw [hm, hdata, Nat.add_comm 2]
        rfl
      have hroom : s.cur.toNat + (2 + k.expLen s.cfg) ≤ s.len.toNat := by omega
      exact ⟨_, _, _, hd, (hrun hd).trans hx, hx, (messageFrom_decoded hroom).trans hrest⟩

/-- The walk executes the operations that the decoder finds in the rest of the message, in order (R132). -/
theorem walk_eq_execAll : ∀ (n : Nat) (s : State), s.len.toNat ≤ s.cur.toNat + n →
    walk n s = execAll (parse s.cfg n s.messageFrom) s := by
  intro n
  induction n with
  | zero => intro s _; rfl
  | succ n ih =>
    intro s hn
    by_cases hgo : walkGoesOn s = true
    · obtain ⟨i, rest, t, hd, hw, hx, hrest⟩ := walkStep_decodeSub hgo
      obtain ⟨u, hu, hlt, -, hframe⟩ := walkStep_next hgo
      cases hw.symm.trans hu
      have hcfg : t.cfg = s.cfg := by rw [hframe]
      have hlen : t.len = s.len := by rw [hframe]
      rw [walk, if_pos hgo, hw, andThen_next, ih t (by rw [hlen]; omega), hcfg, hrest]
      simp only [parse, hd, execAll, hx, andThen_next]
    · have hend : s.messageFrom = [] := by
        have hge : ¬ s.cur.toNat < s.len.toNat := fun h => hgo (walkGoesOn_iff.2 h)
        rw [← List.length_eq_zero_iff, messageFrom_length]
        omega
      rw [walk, if_neg hgo, hend]
      rfl

/-- What the dispatcher can decode: a noise byte or a sub-record of an active row. -/
def Dispatchable (c : Cfg) (i : Instr) : Prop :=
  (∃ b, i = .noise b) ∨ ∃ k id, rowOf i = some k ∧ c.idOf k = some id

/-- Such an operation changes the decoding in the same way whatever else the state holds (R150). -/
theorem exec_decoding_congr {c : Cfg} {i : Instr} {s u : State} (hi : Dispatchable c i) (hs : s.cfg = c)
    (hu : u.cfg = c) (hd : s.decoding = u.decoding) : ∃ t v, exec i s = .next t ∧ exec i u = .next v ∧
      t.cfg = c ∧ v.cfg = c ∧ t.decoding = v.decoding := by
  rcases hi with ⟨b, rfl⟩ | ⟨k, id, hr, hid⟩
  · exact ⟨advance 1 s, advance 1 u, rfl, rfl, hs, hu, hd⟩
  · obtain ⟨hrecord, hpresent⟩ := Decoding.mk.inj hd
    refine ⟨_, _, (exec_row hr s).trans (subRecord_of_idOf (hs ▸ hid)),
      (exec_row hr u).trans (subRecord_of_idOf (hu ▸ hid)), hs, hu, ?_⟩
    simp only [State.decoding, decoded_record, decoded_present, hrecord, hpresent]

theorem execAll_decoding_congr {c : Cfg} : ∀ (is : List Instr) {s u : State}, (∀ i ∈ is, Dispatchable c i) →
    s.cfg = c → u.cfg = c → s.decoding = u.decoding →
    ∃ t v, execAll is s = .next t ∧ execAll is u = .next v ∧ t.decoding = v.decoding := by
  intro is
  induction is with
  | nil => intro s u _ _ _ hd; exact ⟨s, u, rfl, rfl, hd⟩
  | cons i is ih =>
    intro s u hi hs hu hd
    obtain ⟨s', u', hxs, hxu, hs', hu', hd'⟩ := exec_decoding_congr (hi i List.mem_cons_self) hs hu hd
    obtain ⟨t, v, ht, hv, htv⟩ := ih (fun j hj => hi j (List.mem_cons_of_mem i hj)) hs' hu' hd'
    exact ⟨t, v, by rw [execAll, hxs, andThen_next, ht], by rw [execAll, hxu, andThen_next, hv], htv⟩

/-- The walk of a dispatch leaves the decoding of the message, whatever the record and the list held before (R131). -/
theorem decoding_of_walk {s w : State} (h : walk s.len.toNat (dispatchBegin s) = .next w) :
    w.decoding = decodingOf s.cfg s.message := by
  have hops : walk s.len.toNat (dispatchBegin s) = execAll (subOps s.cfg s.message) (dispatchBegin s) := by
    rw [walk_eq_execAll s.len.toNat (dispatchBegin s) (Nat.le_add_left _ _), messageFrom_dispatchBegin, subOps,
      message_length]
    rfl
  obtain ⟨t, v, ht, hv, htv⟩ := execAll_decoding_congr (c := s.cfg) (subOps s.cfg s.message) (s := dispatchBegin s)
    (u := dispatchBegin { State.reset with cfg := s.cfg }) (fun _ => mem_parse) rfl rfl rfl
  cases h.symm.trans (hops.trans ht)
  rw [decodingOf, hv, htv]

/-- What a dispatch leaves: the record and the present list of the message, the list's length as its count, the dead
cursor, and one completion event (R130, R137, R138). -/
def dispatched (s : State) : State :=
  { s with
    act := .idle
    cur := 0
    record := (decodingOf s.cfg s.message).record
    present := (decodingOf s.cfg s.message).present
    pcount := BitVec.ofNat 7 (decodingOf s.cfg s.message).present.length
    out := s.out ++ [.complete s.tid (decodingOf s.cfg s.message).record (decodingOf s.cfg s.message).present] }

/-- A completing step from a state with its last byte stored, its status returned: the event stands before the status
(R108, log 24). -/
theorem reportStatus_completeFrame_dispatched (s : State) : reportStatus (completeFrame (dispatched s)) =
    { s with
      act := .idle, st := .header1, cntDone := satInc s.cfg s.cntDone, last := .done, cur := 0
      record := (dispatched s).record, present := (dispatched s).present, pcount := (dispatched s).pcount
      out := s.out ++ [.complete s.tid (dispatched s).record (dispatched s).present, .status .done] } := by
  have hout := List.append_assoc s.out [.complete s.tid (dispatched s).record (dispatched s).present] [.status .done]
  rw [← List.singleton_append, ← hout]
  rfl

theorem completeFrame_dispatched_decoding (s : State) :
    (completeFrame (dispatched s)).decoding = decodingOf s.cfg s.message := rfl

/-- The present list of a message is short enough for its 7-bit count (R28). -/
theorem dispatched_pcount (s : State) : (dispatched s).pcount.toNat = (dispatched s).present.length := by
  obtain ⟨w, hw, hok, -, -⟩ := walk_dispatch (WalkOk s.cfg s.len) s (walkOk_begin s) walkOk_step
  have hlt : w.present.length < 2 ^ 7 := hok.count ▸ w.pcount.isLt
  have hpresent : w.present = (dispatched s).present := congrArg Decoding.present (decoding_of_walk hw)
  rw [hpresent] at hlt
  exact (BitVec.toNat_ofNat _ _).trans (Nat.mod_eq_of_lt hlt)

/-- `DISPATCH` as a function of the state, where the message view lies in the buffer. -/
theorem runDispatch_eq_next_iff {s t : State} :
    runDispatch s = .next t ↔ HDR_BYTES + s.len.toNat ≤ s.cfg.cap ∧ t = dispatched s := by
  have hrun : HDR_BYTES + s.len.toNat ≤ s.cfg.cap → runDispatch s = .next (dispatched s) := fun hview => by
    obtain ⟨t, w, ht, hok, -, hw, hframe⟩ := runDispatch_next (WalkOk s.cfg s.len) hview (walkOk_begin s) walkOk_step
    obtain ⟨hrecord, hpresent⟩ := Decoding.mk.inj (decoding_of_walk hw)
    have hcount : w.pcount = BitVec.ofNat 7 w.present.length := by
      rw [← hok.count, BitVec.ofNat_toNat, BitVec.setWidth_eq]
    rw [ht, hframe, hcount, hrecord, hpresent]
    rfl
  refine ⟨fun h => ?_, fun ⟨hview, ht⟩ => ht ▸ hrun hview⟩
  have hview := runDispatch_eq_next h
  exact ⟨hview, (Host.Outcome.next.inj ((hrun hview).symm.trans h)).symm⟩

/-! ## When a byte operation answers, and with what -/

theorem storeThen_eq_next {b : Byte} {s t : State} {f : State → State} :
    (andThen (store b s) fun u => .next (f u)) = .next t ↔ s.wp < s.cfg.cap ∧ t = f (stored b s) := by
  rw [andThen_eq_next]
  constructor
  · rintro ⟨u, hu, ht⟩
    obtain ⟨hroom, rfl⟩ := store_eq_next.1 hu
    exact ⟨hroom, (Host.Outcome.next.inj ht).symm⟩
  · rintro ⟨hroom, rfl⟩
    exact ⟨_, store_of_lt hroom, rfl⟩

/-- A byte operation that tests something first answers from one of its two branches. -/
theorem ite_eq_next_iff {p : Prop} [Decidable p] {r : Res State} {u t : State} {q : Prop}
    (hr : r = .next t ↔ q) : (if p then r else .next u) = .next t ↔ (p ∧ q) ∨ (¬p ∧ t = u) := by
  split
  case isTrue hp => simp only [hp, hr, true_and, not_true, false_and, or_false]
  case isFalse hp => simp only [hp, Host.Outcome.next.injEq, false_and, not_false_eq_true, true_and, false_or, eq_comm]

section Answers

variable {b : Byte} {s t : State}

/-- H1 (R101). -/
theorem byteH1_eq_next : byteH1 b s = .next t ↔
    (b = MAGIC1 ∧ 0 < s.cfg.cap ∧ t = retire .running (goto .header2 (stored b (clearFrame s)))) ∨
    (b ≠ MAGIC1 ∧ t = retire .running s) :=
  ite_eq_next_iff storeThen_eq_next

/-- H2 (R102). -/
theorem byteH2_eq_next : byteH2 b s = .next t ↔
    (b = MAGIC2 ∧ s.wp < s.cfg.cap ∧ t = retire .running (goto .tidLow (stored b s))) ∨
    (b ≠ MAGIC2 ∧ t = retire .running (goto .header1 s)) :=
  ite_eq_next_iff storeThen_eq_next

/-- TIDL (R103). -/
theorem byteTidl_eq_next : byteTidl b s = .next t ↔ s.wp < s.cfg.cap ∧
    t = retire .running (goto .tidHigh (upd b { stored b s with tid := s.tid.extractLsb' 8 8 ++ b })) :=
  storeThen_eq_next

/-- TIDH (R104). -/
theorem byteTidh_eq_next : byteTidh b s = .next t ↔ s.wp < s.cfg.cap ∧
    t = retire .running (goto .length (upd b { stored b s with tid := b ++ s.tid.extractLsb' 0 8 })) :=
  storeThen_eq_next

/-- LEN (R105). -/
theorem byteLen_eq_next : byteLen b s = .next t ↔
    (legalLength b = true ∧ s.wp < s.cfg.cap ∧
      t = retire .running (goto .message (upd b { stored b s with len := b, rem := b }))) ∨
    (¬ legalLength b = true ∧ t = raise .lengthError s) :=
  ite_eq_next_iff storeThen_eq_next

/-- MSG (R106). -/
theorem byteMsg_eq_next : byteMsg b s = .next t ↔ s.wp < s.cfg.cap ∧
    t = retire .running
      (goto (if s.rem - 1 = 0 then .crc1 else s.st) (upd b { stored b s with rem := s.rem - 1 })) :=
  storeThen_eq_next

/-- CRC1 (R107). -/
theorem byteCrc1_eq_next : byteCrc1 b s = .next t ↔
    (b = s.c0 ∧ s.wp < s.cfg.cap ∧ t = retire .running (goto .crc2 (stored b s))) ∨
    (b ≠ s.c0 ∧ t = raise .checksumError s) :=
  ite_eq_next_iff storeThen_eq_next

/-- CRC2 (R108). -/
theorem byteCrc2_eq_next : byteCrc2 b s = .next t ↔
    (b = s.c1 ∧ s.wp < s.cfg.cap ∧ HDR_BYTES + s.len.toNat ≤ s.cfg.cap ∧
      t = completeFrame (dispatched (stored b s))) ∨
    (b ≠ s.c1 ∧ t = raise .checksumError s) := by
  refine ite_eq_next_iff ?_
  rw [andThen_eq_next]
  constructor
  · rintro ⟨u, hu, h⟩
    obtain ⟨hroom, rfl⟩ := store_eq_next.1 hu
    obtain ⟨v, hv, ht⟩ := andThen_eq_next.1 h
    obtain ⟨hview, rfl⟩ := runDispatch_eq_next_iff.1 hv
    exact ⟨hroom, hview, (Host.Outcome.next.inj ht).symm⟩
  · rintro ⟨hroom, hview, rfl⟩
    exact ⟨_, store_of_lt hroom, andThen_eq_next.2 ⟨_, runDispatch_eq_next_iff.2 ⟨hview, rfl⟩, rfl⟩⟩

end Answers

/-! ## The byte operations one by one -/

/-- Between operations the host gets the answer of a byte operation with its status (R100, R201). -/
theorem whenIdle_answer {s t : State} {r : Res State} (hidle : s.act = .idle) (h : r = .next t) :
    whenIdle s (answer r) = .next (reportStatus t) := by
  rw [whenIdle_of_idle hidle, h, answer_next]

theorem storedAt_write (a : Nat) (b : Byte) (m : Memory) : StoredAt a b m (Memory.write m a b) :=
  ⟨read_write_same m a b, fun _ hx => read_write_ne hx⟩

theorem SameBytes.refl (m : Memory) : SameBytes m m := fun _ => rfl

/-- A 16-bit word put together from two bytes. -/
theorem toNat_append_byte (hi lo : Byte) : (hi ++ lo).toNat = hi.toNat * 256 + lo.toNat := by
  rw [BitVec.toNat_append, ← Nat.shiftLeft_add_eq_or_of_lt lo.isLt, Nat.shiftLeft_eq]

/-- The two halves of a transaction id as numbers (R12). -/
theorem toNat_tid_halves (tid : BitVec 16) :
    (tid.extractLsb' 8 8).toNat = tid.toNat / 256 ∧ (tid.extractLsb' 0 8).toNat = tid.toNat % 256 := by
  have := tid.isLt
  simp only [BitVec.extractLsb'_toNat, Nat.shiftRight_eq_div_pow]
  omega

/-- Settles O14: the two branches of `byteH1`. -/
theorem h1AcceptsOnlyTheFirstMagicByte : Obligations.H1AcceptsOnlyTheFirstMagicByte := by
  intro b s hidle hcap
  refine ⟨fun hb => ?_, fun hb => ?_⟩
  · subst hb
    exact ⟨_, whenIdle_answer hidle (byteH1_eq_next.2 (.inl ⟨rfl, hcap, rfl⟩)), rfl, storedAt_write 0 0x59 s.buf⟩
  · exact ⟨_, whenIdle_answer hidle (byteH1_eq_next.2 (.inr ⟨hb, rfl⟩)), rfl, .refl s.buf⟩

/-- The host feeds a byte and then goes on. -/
theorem execAll_feed_cons {b : Byte} {is : List Instr} {s t : State} (hidle : s.act = .idle)
    (h : byteStep b s = .next t) : execAll (.feed b :: is) s = execAll is (reportStatus t) := by
  rw [execAll, exec_feed_eq_next.2 ⟨hidle, t, h, rfl⟩, andThen_next]

/-- Settles O15: the two branches of `byteH2`; after the mismatch the third byte is one more that starts no frame. -/
theorem h2AcceptsTheSecondMagicByteOrResynchronises : Obligations.H2AcceptsTheSecondMagicByteOrResynchronises := by
  refine ⟨fun b s hidle hroom => ⟨fun hb => ?_, fun hb => ?_⟩, fun s hidle hst hcap => ?_⟩
  · subst hb
    exact ⟨_, whenIdle_answer hidle (byteH2_eq_next.2 (.inl ⟨rfl, hroom, rfl⟩)), rfl, storedAt_write s.wp 0x53 s.buf⟩
  · exact ⟨_, whenIdle_answer hidle (byteH2_eq_next.2 (.inr ⟨hb, rfl⟩)), rfl, .refl s.buf⟩
  · have hfirst : byteStep 0x59 s = .next (retire .running (goto .header2 (stored 0x59 (clearFrame s)))) := by
      rw [byteStep, hst]
      exact byteH1_eq_next.2 (.inl ⟨rfl, hcap, rfl⟩)
    have hsecond : ∀ u : State, u.st = .header2 → byteStep 0x59 u = .next (retire .running (goto .header1 u)) :=
      fun u hu => by
        rw [byteStep, hu]
        exact byteH2_eq_next.2 (.inr ⟨by decide, rfl⟩)
    have hthird : ∀ u : State, u.st = .header1 → byteStep 0x53 u = .next (retire .running u) := fun u hu => by
      rw [byteStep, hu]
      exact byteH1_eq_next.2 (.inr ⟨by decide, rfl⟩)
    refine ⟨_, (execAll_feed_cons hidle hfirst).trans ((execAll_feed_cons ?_ (hsecond _ rfl)).trans
      (execAll_feed_cons ?_ (hthird _ rfl))), rfl, ?_⟩
    · simpa using hidle
    · simpa using hidle
    · simp only [reportStatus_out, retire_out, goto_out, stored_out, clearFrame_out, List.append_assoc]
      rfl

/-- Settles O16: each half of the id is put beside the other half, and both sums are additions of 8-bit words. -/
theorem tidBytesAreStoredSummedAndKept : Obligations.TidBytesAreStoredSummedAndKept := by
  intro b s hidle hroom
  obtain ⟨hhigh, hlow⟩ := toNat_tid_halves s.tid
  refine ⟨⟨_, whenIdle_answer hidle (byteTidl_eq_next.2 ⟨hroom, rfl⟩), rfl, ?_, BitVec.toNat_add _ _,
      BitVec.toNat_add _ _, storedAt_write s.wp b s.buf⟩,
    ⟨_, whenIdle_answer hidle (byteTidh_eq_next.2 ⟨hroom, rfl⟩), rfl, ?_, BitVec.toNat_add _ _,
      BitVec.toNat_add _ _, storedAt_write s.wp b s.buf⟩⟩
  · exact (toNat_append_byte _ b).trans (by rw [hhigh])
  · exact (toNat_append_byte b _).trans (by rw [hlow])

/-- Settles O17: the two branches of `byteLen`, whose test is that of R61. -/
theorem lenAcceptsFourTo199AndRaisesLengthErrorElsewhere :
    Obligations.LenAcceptsFourTo199AndRaisesLengthErrorElsewhere := by
  intro b s hidle hroom
  refine ⟨fun hb => ?_, fun hb => ?_⟩
  · exact ⟨_, whenIdle_answer hidle (byteLen_eq_next.2 (.inl ⟨legalLength_iff.2 hb, hroom, rfl⟩)), rfl,
      BitVec.toNat_add _ _, BitVec.toNat_add _ _, storedAt_write s.wp b s.buf⟩
  · have hillegal : ¬ legalLength b = true := fun h => hb (legalLength_iff.1 h)
    exact ⟨_, whenIdle_answer hidle (byteLen_eq_next.2 (.inr ⟨hillegal, rfl⟩)), rfl, .refl s.buf⟩

/-- Settles O18: `REM` does not wrap, and it is 0 afterwards just if it was 1. -/
theorem msgStoresSumsAndCountsDown : Obligations.MsgStoresSumsAndCountsDown := by
  intro b s hidle hroom hst hrem
  have hlast : s.rem - 1 = 0 ↔ s.rem.toNat = 1 := by bv_omega
  refine ⟨_, whenIdle_answer hidle (byteMsg_eq_next.2 ⟨hroom, rfl⟩), rfl, ?_, ?_, BitVec.toNat_add _ _,
    BitVec.toNat_add _ _, storedAt_write s.wp b s.buf⟩
  · show (s.rem - 1).toNat = s.rem.toNat - 1
    bv_omega
  · show (if s.rem - 1 = 0 then FState.crc1 else s.st) = _
    simp only [hlast, hst]

/-- Settles O19: the two branches of `byteCrc1`. -/
theorem crc1ComparesWithC0 : Obligations.Crc1ComparesWithC0 := by
  intro b s hidle hroom
  refine ⟨fun hb => ?_, fun hb => ?_⟩
  · exact ⟨_, whenIdle_answer hidle (byteCrc1_eq_next.2 (.inl ⟨hb, hroom, rfl⟩)), rfl, storedAt_write s.wp b s.buf⟩
  · exact ⟨_, whenIdle_answer hidle (byteCrc1_eq_next.2 (.inr ⟨hb, rfl⟩)), rfl, .refl s.buf⟩

/-- Settles O20: the two branches of `byteCrc2`; the message is the one the state holds with the byte stored. -/
theorem crc2CompletesTheFrameOrRaisesChecksumError : Obligations.Crc2CompletesTheFrameOrRaisesChecksumError := by
  intro b s hidle
  refine ⟨fun hb hroom hview => ?_, fun hb => ?_⟩
  · refine ⟨_, whenIdle_answer hidle (byteCrc2_eq_next.2 (.inl ⟨hb, hroom, hview, rfl⟩)), ?_, rfl,
      dispatched_pcount (stored b s), storedAt_write s.wp b s.buf⟩
    rw [reportStatus_completeFrame_dispatched, hidle]
    rfl
  · exact ⟨_, whenIdle_answer hidle (byteCrc2_eq_next.2 (.inr ⟨hb, rfl⟩)), rfl, .refl s.buf⟩

/-- Settles O21: `byteBadst` is `raise`, which counts checksum errors only. -/
theorem badstRaisesInternalErrorAndChangesNothingElse :
    Obligations.BadstRaisesInternalErrorAndChangesNothingElse :=
  fun _ _ s hidle => ⟨_, whenIdle_answer hidle rfl, rfl, .refl s.buf⟩

/-! ## `FEED` -/

/-- Settles O11: the code of each state selects its byte operation, the eight invalid ones `BADST`. -/
theorem feedRunsTheByteOperationOfTheState : Obligations.FeedRunsTheByteOperationOfTheState := by
  intro b s
  show whenIdle s (answer (byteStep b s)) = _
  cases hst : s.st with
  | invalid low =>
    rw [byteStep, hst, FState.code, decodeFsm_badst]
    rfl
  | _ =>
    rw [byteStep, hst]
    rfl

/-- Settles O12: a byte-feed step answers a good state, and its status is one output more. -/
theorem feedAlwaysCompletes : Obligations.FeedAlwaysCompletes := by
  intro b s hs
  obtain ⟨t, ht, hi⟩ := byteStep_inv hs b
  have hk := byteStep_kept hs ht
  exact ⟨reportStatus t, exec_feed_eq_next.2 ⟨hs.idle, t, ht, rfl⟩, hi.withOutputs rfl, hk.cfg, hk.port, hk.epoch⟩

/-! ## No step halts -/

/-- From a good state every host operation but `RESET` answers. -/
theorem exec_hostOp_answers {op : HostOp} {s : State} (hs : Inv s) (hop : ∀ c, op ≠ .reset c) :
    ∃ t, exec op.instr s = .next t := by
  have answers : ∀ {r : Res State} {t : State}, r = .next t → ∃ t, whenIdle s r = .next t := fun h =>
    ⟨_, (whenIdle_of_idle hs.idle _).trans h⟩
  cases op with
  | reset c => exact absurd rfl (hop c)
  | feed b =>
    obtain ⟨t, ht, -⟩ := feedAlwaysCompletes b s hs
    exact ⟨t, ht⟩
  | scan src =>
    obtain ⟨t, ht, -⟩ := runScan_next src hs
    exact answers ht
  | rdtrace => exact answers rfl
  | rdrec => exact answers rfl
  | frame tid len body =>
    obtain ⟨t, ht, -⟩ := feedAll_next (frameBytes tid len body) hs
    exact answers ht

/-- Settles O59: an empty port is left as it is, a `RESET` is taken or refused, and every other operation answers. -/
theorem noStepFromAGoodStateHalts : Obligations.NoStepFromAGoodStateHalts := by
  intro s hs
  have hact : s.act ≠ .walking := by rw [hs.idle]; decide
  obtain ⟨takes, stays, -⟩ := stepRunsTheDecodedInstruction
  cases hport : s.port with
  | nil => exact .inl ⟨_, stays s hact hport⟩
  | cons op rest =>
    rw [takes s op rest hact hport]
    by_cases hop : ∃ c, op = .reset c
    · obtain ⟨c, rfl⟩ := hop
      by_cases hc : c.wf = true
      · exact .inl ⟨_, execReset_of_wf hact hc⟩
      · exact .inr ⟨c, rest, rfl, eq_false_of_ne_true hc, execReset_of_not_wf hact hc⟩
    · exact .inl (exec_hostOp_answers (hs.withOutputs rfl) fun c hc => hop ⟨c, hc⟩)

/-! ## The framer as a function of its registers -/

/-- The framer's working registers, with the status of its last step (R111). -/
structure Framer where
  st : FState
  rem : Byte
  c0 : Byte
  c1 : Byte
  last : Status

/-- The framer's working registers in the state. -/
def State.framer (s : State) : Framer := ⟨s.st, s.rem, s.c0, s.c1, s.last⟩

/-- The transition table of the framer (R110, R111). -/
def framerNext (b : Byte) (st : FState) (rem c0 c1 : Byte) : Framer :=
  match st with
  | .header1 => if b = MAGIC1 then ⟨.header2, 0, 0, 0, .running⟩ else ⟨.header1, rem, c0, c1, .running⟩
  | .header2 => ⟨if b = MAGIC2 then .tidLow else .header1, rem, c0, c1, .running⟩
  | .tidLow => ⟨.tidHigh, rem, c0 + b, c1 + (c0 + b), .running⟩
  | .tidHigh => ⟨.length, rem, c0 + b, c1 + (c0 + b), .running⟩
  | .length =>
    if legalLength b then ⟨.message, b, c0 + b, c1 + (c0 + b), .running⟩
    else ⟨.header1, rem, c0, c1, .lengthError⟩
  | .message => ⟨if rem - 1 = 0 then .crc1 else .message, rem - 1, c0 + b, c1 + (c0 + b), .running⟩
  | .crc1 => if b = c0 then ⟨.crc2, rem, c0, c1, .running⟩ else ⟨.header1, rem, c0, c1, .checksumError⟩
  | .crc2 => ⟨.header1, rem, c0, c1, if b = c1 then .done else .checksumError⟩
  | .invalid _ => ⟨.header1, rem, c0, c1, .internalError⟩

/-- A byte-feed step that answers moves the framer as the table says. -/
theorem byteStep_framer {b : Byte} {s t : State} (h : byteStep b s = .next t) :
    t.framer = framerNext b s.st s.rem s.c0 s.c1 := by
  revert h
  unfold byteStep
  cases hst : s.st with
  | header1 =>
    intro h
    rcases byteH1_eq_next.1 h with ⟨hb, -, rfl⟩ | ⟨hb, rfl⟩
    · exact (if_pos hb).symm
    · rw [framerNext, if_neg hb, ← hst]
      rfl
  | header2 =>
    intro h
    rcases byteH2_eq_next.1 h with ⟨hb, -, rfl⟩ | ⟨hb, rfl⟩
    · rw [framerNext, if_pos hb]
      rfl
    · rw [framerNext, if_neg hb]
      rfl
  | tidLow =>
    intro h
    obtain ⟨-, rfl⟩ := byteTidl_eq_next.1 h
    rfl
  | tidHigh =>
    intro h
    obtain ⟨-, rfl⟩ := byteTidh_eq_next.1 h
    rfl
  | length =>
    intro h
    rcases byteLen_eq_next.1 h with ⟨hb, -, rfl⟩ | ⟨hb, rfl⟩
    · exact (if_pos hb).symm
    · exact (if_neg hb).symm
  | message =>
    intro h
    obtain ⟨-, rfl⟩ := byteMsg_eq_next.1 h
    rw [framerNext, ← hst]
    rfl
  | crc1 =>
    intro h
    rcases byteCrc1_eq_next.1 h with ⟨hb, -, rfl⟩ | ⟨hb, rfl⟩
    · exact (if_pos hb).symm
    · exact (if_neg hb).symm
  | crc2 =>
    intro h
    rcases byteCrc2_eq_next.1 h with ⟨hb, -, -, rfl⟩ | ⟨hb, rfl⟩
    · rw [framerNext, if_pos hb]
      rfl
    · rw [framerNext, if_neg hb]
      rfl
  | invalid low =>
    intro h
    cases h
    rfl

/-- Settles O49: the table has no other arguments, and the status is the last output. -/
theorem framerIgnoresEverythingButItsRegisters : Obligations.FramerIgnoresEverythingButItsRegisters := by
  refine ⟨fun b s t h => ?_, fun b s t s' t' hst hrem hc0 hc1 h h' => ?_⟩
  · obtain ⟨-, u, -, rfl⟩ := exec_feed_eq_next.1 h
    exact List.getLast?_concat
  · obtain ⟨-, u, hu, rfl⟩ := exec_feed_eq_next.1 h
    obtain ⟨-, u', hu', rfl⟩ := exec_feed_eq_next.1 h'
    have hsame : u.framer = u'.framer := by
      rw [byteStep_framer hu, byteStep_framer hu', hst, hrem, hc0, hc1]
    exact Framer.mk.inj hsame

/-! ## The end of every frame -/

/-- Outside `Header1` a byte-feed step ends the frame or moves the write pointer on by one. -/
theorem byteStep_header1_or_wp {b : Byte} {s t : State} (hst : s.st ≠ .header1) (h : byteStep b s = .next t) :
    t.st = .header1 ∨ t.wp = s.wp + 1 := by
  revert h
  unfold byteStep
  cases h1 : s.st with
  | header1 => exact absurd h1 hst
  | header2 =>
    intro h
    rcases byteH2_eq_next.1 h with ⟨-, -, rfl⟩ | ⟨-, rfl⟩
    · exact .inr rfl
    · exact .inl rfl
  | tidLow =>
    intro h
    obtain ⟨-, rfl⟩ := byteTidl_eq_next.1 h
    exact .inr rfl
  | tidHigh =>
    intro h
    obtain ⟨-, rfl⟩ := byteTidh_eq_next.1 h
    exact .inr rfl
  | length =>
    intro h
    rcases byteLen_eq_next.1 h with ⟨-, -, rfl⟩ | ⟨-, rfl⟩
    · exact .inr rfl
    · exact .inl rfl
  | message =>
    intro h
    obtain ⟨-, rfl⟩ := byteMsg_eq_next.1 h
    exact .inr rfl
  | crc1 =>
    intro h
    rcases byteCrc1_eq_next.1 h with ⟨-, -, rfl⟩ | ⟨-, rfl⟩
    · exact .inr rfl
    · exact .inl rfl
  | crc2 =>
    intro h
    rcases byteCrc2_eq_next.1 h with ⟨-, -, -, rfl⟩ | ⟨-, rfl⟩
    · exact .inl rfl
    · exact .inl rfl
  | invalid low =>
    intro h
    cases h
    exact .inl rfl

/-- In a good state a frame in progress has at least one byte in the buffer and lacks at least one of the 206 (R34). -/
theorem Inv.wp_of_not_header1 {s : State} (hs : Inv s) (hst : s.st ≠ .header1) : 1 ≤ s.wp ∧ s.wp ≤ 205 := by
  have hf := hs.framer
  revert hf
  unfold FramerOk
  cases h1 : s.st with
  | header1 => exact absurd h1 hst
  | header2 | tidLow | tidHigh | length =>
    rintro ⟨hwp, -⟩
    omega
  | message =>
    rintro ⟨hwp, hrem, hle, hlen, -⟩
    have := legalLength_iff.1 hlen
    omega
  | crc1 | crc2 =>
    rintro ⟨hwp, -, hlen, -⟩
    have := legalLength_iff.1 hlen
    omega
  | invalid low => exact False.elim

/-- The write pointer bounds what is left of a frame in progress: before the bytes fed would take it to 206, the framer is
back in `Header1`. -/
theorem feedAll_take_header1 : ∀ (bs : List Byte) {s : State}, Inv s → s.st ≠ .header1 → 206 ≤ s.wp + bs.length →
    ∃ n t, n ≤ bs.length ∧ feedAll (bs.take n) s = .next t ∧ t.st = .header1 := by
  intro bs
  induction bs with
  | nil =>
    intro s hs hst hlen
    have := hs.wp_of_not_header1 hst
    rw [List.length_nil] at hlen
    omega
  | cons b bs ih =>
    intro s hs hst hlen
    obtain ⟨u, hu, hi⟩ := byteStep_inv hs b
    by_cases hend : u.st = .header1
    · exact ⟨1, reportStatus u, Nat.le_add_left 1 _, feedAll_cons hu, hend⟩
    · have hwp : u.wp = s.wp + 1 := (byteStep_header1_or_wp hst hu).resolve_left hend
      rw [List.length_cons] at hlen
      obtain ⟨n, t, hn, ht, htst⟩ := ih (s := reportStatus u) (hi.withOutputs rfl) hend
        (by rw [reportStatus_wp, hwp]; omega)
      exact ⟨n + 1, t, Nat.succ_le_succ hn, (feedAll_cons hu).trans ht, htst⟩

/-- Settles O50: a frame in progress has stored its first byte already, so 205 bytes are enough. -/
theorem framerIsBackInHeader1After205Bytes : Obligations.FramerIsBackInHeader1After205Bytes := by
  intro s hs
  refine ⟨fun b => ?_, fun bs hst hlen => ?_⟩
  · obtain ⟨t, ht, -⟩ := feedAlwaysCompletes b s hs
    exact ⟨t, ht⟩
  · obtain ⟨hwp, -⟩ := hs.wp_of_not_header1 hst
    obtain ⟨n, t, hn, ht, hback⟩ := feedAll_take_header1 bs hs hst (by omega)
    exact ⟨n, t, hlen ▸ hn, (execAll_map_feed _ hs).trans ht, hback⟩

/-! ## A valid frame, fed -/

/-- Everything a completing step leaves, as a function of the state (R108). -/
theorem Completed.eq_completeFrame {b : Byte} {s t : State} (h : Completed b s t) :
    t = completeFrame (dispatched (stored b s)) := by
  obtain ⟨u, hu, rfl⟩ := h.run
  obtain ⟨-, rfl⟩ := runDispatch_eq_next_iff.1 hu
  rfl

theorem validFrameBytes_eq_append (tid : BitVec 16) (msg : List Byte) : validFrameBytes tid msg =
    frameBytes tid (BitVec.ofNat 8 msg.length) (msg ++ [(frameChecksum tid msg).1]) ++ [(frameChecksum tid msg).2] := by
  simp only [validFrameBytes, frameBytes, List.cons_append, List.append_assoc, List.nil_append]

/-- With the last byte of a valid frame stored, the message view is its message (R41, R45). -/
theorem message_stored_lastByte {tid : BitVec 16} {msg : List Byte} (hlim : msg.length < 200) (s : State) :
    (stored (frameChecksum tid msg).2 (beforeLastByte tid msg s)).message = msg := by
  have hread : ∀ i, i < msg.length →
      Memory.read (stored (frameChecksum tid msg).2 (beforeLastByte tid msg s)).buf (5 + i) = msg[i]? := fun i hi => by
    have hin : 0 ≤ 5 + i ∧ 5 + i < 0 + (validFrameBytes tid msg).length := by
      rw [validFrameBytes, frameBytes_length, List.length_append]
      omega
    rw [stored_buf, write_beforeLastByte, read_writeAll, if_pos hin, Nat.sub_zero, Nat.add_comm]
    exact List.getElem?_append_left hi
  calc
    _ = (stored (frameChecksum tid msg).2 (beforeLastByte tid msg s)).bytesAt 5 msg.length :=
      congrArg (State.bytesAt _ 5) (toNat_length hlim)
    _ = msg := bytesAt_of_read hread

theorem beforeLastByte_out (tid : BitVec 16) (msg : List Byte) (s : State) :
    (beforeLastByte tid msg s).out = s.out ++ List.replicate (6 + msg.length) (.status .running) := by
  have hlength : (frameBytes tid (BitVec.ofNat 8 msg.length) (msg ++ [(frameChecksum tid msg).1])).length =
      6 + msg.length := by
    rw [frameBytes_length, List.length_append, List.length_singleton]
    omega
  rw [← hlength]
  rfl

/-- Settles O43: the bytes before the last are answered `Running`, and the last one completes the frame. -/
theorem validFrameCompletes : Obligations.ValidFrameCompletes := by
  intro s tid msg hs hst hmin hlim
  obtain ⟨t, ht, hc⟩ := exec_validFrame (tid := tid) hs hst hmin hlim
  obtain rfl := hc.eq_completeFrame
  refine ⟨_, ht, ?_, congrArg (decodingOf s.cfg) (message_stored_lastByte hlim s), rfl, rfl, rfl, rfl⟩
  rw [reportStatus_completeFrame_dispatched, stored_out, beforeLastByte_out, List.append_assoc]
  rfl

/-! ## The outputs are written only -/

/-- The same state with other outputs. -/
def setOut (o : List Output) (s : State) : State := { s with out := o }

theorem storeThen_setOut {b : Byte} {o : List Output} {s : State} {f : State → State}
    (hf : ∀ u, f (setOut o u) = setOut o (f u)) :
    (andThen (store b (setOut o s)) fun u => .next (f u)) =
      andThen (andThen (store b s) fun u => .next (f u)) fun u => .next (setOut o u) := by
  by_cases hroom : s.wp < s.cfg.cap
  · rw [store_of_lt hroom, store_of_lt (s := setOut o s) hroom]
    exact congrArg Host.Outcome.next (hf (stored b s))
  · have hfault : store b s = .fault (.bufferAddress s.wp) := if_neg hroom
    have hfault' : store b (setOut o s) = .fault (.bufferAddress s.wp) := if_neg hroom
    rw [hfault, hfault']
    rfl

theorem branch_setOut {p : Prop} [Decidable p] {o : List Output} {r r' : Res State} {s s' : State}
    (h : r' = andThen r fun u => .next (setOut o u)) (hs : s' = setOut o s) :
    (if p then r' else .next s') = andThen (if p then r else .next s) fun u => .next (setOut o u) := by
  subst hs
  split
  · exact h
  · rfl

/-- A byte-feed step that cannot complete a frame does the same whatever the outputs hold. -/
theorem byteStep_setOut {b : Byte} {s : State} (hst : s.st ≠ .crc2) (o : List Output) :
    byteStep b (setOut o s) = andThen (byteStep b s) fun u => .next (setOut o u) := by
  have hsame : (setOut o s).st = s.st := rfl
  unfold byteStep
  rw [hsame]
  cases h : s.st with
  | header1 => exact branch_setOut (storeThen_setOut (s := clearFrame s) fun _ => rfl) rfl
  | header2 => exact branch_setOut (storeThen_setOut fun _ => rfl) rfl
  | tidLow => exact storeThen_setOut fun _ => rfl
  | tidHigh => exact storeThen_setOut fun _ => rfl
  | length => exact branch_setOut (storeThen_setOut fun _ => rfl) rfl
  | message => exact storeThen_setOut fun _ => rfl
  | crc1 => exact branch_setOut (storeThen_setOut fun _ => rfl) rfl
  | crc2 => exact absurd h hst
  | invalid low => rfl

/-- The last byte of a frame is never answered `Running` (R108). -/
theorem st_ne_crc2_of_running {b : Byte} {s t : State} (h : byteStep b s = .next t) (hl : t.last = .running) :
    s.st ≠ .crc2 := by
  intro hst
  have hlast := congrArg Framer.last (byteStep_framer h)
  rw [hst] at hlast
  have hend : Status.running = if b = s.c1 then .done else .checksumError := hl.symm.trans hlast
  split at hend <;> cases hend

/-- A byte-feed step adds nothing to the outputs, or the event of the frame it completes (R31). -/
theorem byteStep_out {b : Byte} {s t : State} (h : byteStep b s = .next t) :
    t.out = s.out ∨ ∃ r p, t.out = s.out ++ [.complete s.tid r p] := by
  by_cases hl : t.last = .done
  · obtain ⟨r, p, n, rfl⟩ := (completed_of_last_done h hl).frame
    exact .inr ⟨r, p, rfl⟩
  · exact .inl (byteStep_of_last_ne_done h hl).1

/-- Feeding bytes only adds to the outputs (R201). -/
theorem feedAll_out {bs : List Byte} {s t : State} (h : feedAll bs s = .next t) : ∃ os, t.out = s.out ++ os := by
  refine feedAll_keeps (P := fun u => ∃ os, u.out = s.out ++ os) (fun b u v hu hv => ?_) (fun o u hu => ?_) bs
    ⟨[], (List.append_nil _).symm⟩ h
  · obtain ⟨os, hos⟩ := hu
    rcases byteStep_out hv with hsame | ⟨r, p, hevent⟩
    · exact ⟨os, hsame.trans hos⟩
    · exact ⟨os ++ [.complete u.tid r p], by rw [hevent, hos, List.append_assoc]⟩
  · obtain ⟨os, hos⟩ := hu
    exact ⟨os ++ [o], by rw [emit_out, hos, List.append_assoc]⟩

/-- Where the outputs gain nothing but `Running`, one for each byte, the first byte is answered so. -/
theorem feedAll_cons_running {b : Byte} {bs : List Byte} {s t : State} (h : feedAll (b :: bs) s = .next t)
    (hout : t.out = s.out ++ List.replicate (b :: bs).length (.status .running)) :
    ∃ u, byteStep b s = .next u ∧ u.last = .running ∧ feedAll bs (reportStatus u) = .next t ∧
      t.out = (reportStatus u).out ++ List.replicate bs.length (.status .running) := by
  obtain ⟨v, hv, hrest⟩ := andThen_eq_next.1 h
  obtain ⟨u, hu, rfl⟩ := answer_eq_next.1 hv
  obtain ⟨os, hos⟩ := feedAll_out hrest
  rw [hout, reportStatus_out, List.length_cons, List.replicate_succ] at hos
  rcases byteStep_out hu with hsame | ⟨r, p, hevent⟩
  · rw [hsame, List.append_assoc] at hos
    obtain ⟨hrunning, -⟩ := List.cons.inj (List.append_cancel_left hos)
    have hl : u.last = .running := (Output.status.inj hrunning).symm
    refine ⟨u, hu, hl, hrest, ?_⟩
    rw [hout, reportStatus_out, hsame, hl, List.append_assoc]
    rfl
  · rw [hevent, List.append_assoc, List.append_assoc] at hos
    cases (List.cons.inj (List.append_cancel_left hos)).1

/-! ## A valid frame, scanned -/

/-- The trial of a candidate goes on over bytes that, fed, are answered `Running` (R184). -/
theorem scanTry_of_running {src rest : List Byte} (n : Nat) (o : List Output) :
    ∀ (bs : List Byte) {q : Nat} {s t : State}, src.drop q = bs ++ rest → feedAll bs s = .next t →
    t.out = s.out ++ List.replicate bs.length (.status .running) →
    scanTry src (n + bs.length) q (setOut o s) = scanTry src n (q + bs.length) (setOut o t) := by
  intro bs
  induction bs with
  | nil => intro q s t _ h _; cases h; rfl
  | cons b bs ih =>
    intro q s t hdrop h hout
    obtain ⟨u, hu, hl, hrest, hout'⟩ := feedAll_cons_running h hout
    have hb : src[q]? = some b := by
      rw [← Nat.add_zero q, ← List.getElem?_drop, hdrop]
      rfl
    have hdrop' : src.drop (q + 1) = bs ++ rest := by
      rw [← List.drop_drop, hdrop]
      rfl
    have hstep : byteStep b (setOut o s) = .next (setOut o u) := by
      rw [byteStep_setOut (st_ne_crc2_of_running hu hl), hu, andThen_next]
    have hl' : (setOut o u).last = .running := hl
    rw [List.length_cons, ← Nat.add_assoc n, scanTry, hb]
    simp only [hstep, andThen_next, hl', reduceCtorEq, if_false, Status.isError, Bool.false_eq_true]
    exact (ih hdrop' hrest hout').trans (by rw [Nat.add_comm bs.length 1, Nat.add_assoc])

theorem nextCandidate_of_candidate {c : Cfg} {src : List Byte} {p : Nat} (h : candidate c src p = true) :
    nextCandidate c src p = some p := by
  obtain ⟨hroom, -⟩ := (candidate_iff c src p).1 h
  obtain ⟨k, hk⟩ := Nat.exists_eq_add_of_lt (show p < src.length by omega)
  rw [nextCandidate, show src.length - p = k + 1 by omega, List.range'_succ, List.find?_cons_of_pos h]

theorem nextCandidate_length (c : Cfg) (src : List Byte) : nextCandidate c src src.length = none := by
  rw [nextCandidate, Nat.sub_self]
  rfl

/-- At the end of the buffer the search ends (R187). -/
theorem scanSearch_length (src : List Byte) (n : Nat) (s : State) : scanSearch src n src.length s = .next s := by
  cases n with
  | zero => rfl
  | succ n => simp only [scanSearch, nextCandidate_length]

/-- From `Header1` the scan is the search (R182). -/
theorem runScan_of_header1 {s : State} (hst : s.st = .header1) (src : List Byte) :
    runScan src s = scanSearch src (src.length + 1) 0 s := by
  have hcontinue : scanContinue src (src.length + 1) 0 s = .next ⟨0, s⟩ := if_pos hst
  rw [runScan, hcontinue, andThen_next]
  exact if_pos hst

/-- Where the trial at the first byte of the buffer completes a frame with the last byte, that trial is the whole scan
(R185). -/
theorem runScan_of_completed {src : List Byte} {s t : State} (hst : s.st = .header1)
    (hcand : candidate s.cfg src 0 = true) (htry : scanTry src src.length 0 s = .next ⟨.completed, src.length, t⟩) :
    runScan src s = .next t := by
  rw [runScan_of_header1 hst, scanSearch]
  simp only [nextCandidate_of_candidate hcand, htry, andThen_next, scanSearch_length]

/-- All bytes of a valid frame but the last, fed. -/
theorem feedAll_beforeLastByte {s : State} {tid : BitVec 16} {msg : List Byte} (hst : s.st = .header1)
    (hcap : 206 ≤ s.cfg.cap) (hmin : 4 ≤ msg.length) (hlim : msg.length < 200) :
    feedAll (frameBytes tid (BitVec.ofNat 8 msg.length) (msg ++ [(frameChecksum tid msg).1])) s =
      .next (beforeLastByte tid msg s) := by
  have hroom : (behindMessage tid msg s).wp < (behindMessage tid msg s).cfg.cap := by
    rw [behindMessage, midFrame_wp, frameBytes_length]
    exact Nat.lt_of_lt_of_le (by omega) hcap
  calc
    _ = feedAll [(frameChecksum tid msg).1] (behindMessage tid msg s) := feedAll_frameBytes_message hst hcap hmin hlim _
    _ = feedAll [] (taken [(frameChecksum tid msg).1] { behindMessage tid msg s with st := .crc2 }) :=
      feedAll_crc1 [] rfl rfl hroom
    _ = .next (taken [(frameChecksum tid msg).1] (midFrame .crc2 tid (BitVec.ofNat 8 msg.length) 0
          (frameChecksum tid msg) (frameBytes tid (BitVec.ofNat 8 msg.length) msg) s)) := rfl
    _ = _ := by rw [midFrame, taken_taken]; rfl

/-- The header test holds at the first byte of a valid frame (R183). -/
theorem candidate_validFrameBytes (c : Cfg) {tid : BitVec 16} {msg : List Byte} (hmin : 4 ≤ msg.length)
    (hlim : msg.length < 200) : candidate c (validFrameBytes tid msg) 0 = true := by
  refine (candidate_iff c _ 0).2 ⟨?_, rfl, rfl, _, rfl, ?_⟩
  · rw [validFrameBytes, frameBytes_length, List.length_append]
    omega
  · rw [toNat_length hlim]
    exact ⟨hmin, hlim⟩

/-- The trial of a candidate ends with the first byte that is answered `Done` (R185). -/
theorem scanTry_of_done {src : List Byte} {q : Nat} {b : Byte} {s t : State} (hb : src[q]? = some b)
    (h : byteStep b s = .next t) (hl : t.last = .done) (n : Nat) :
    scanTry src (n + 1) q s = .next ⟨.completed, q + 1, t⟩ := by
  rw [scanTry, hb]
  simp only [h, andThen_next, hl, if_true]

/-- The last byte of a valid frame completes it, whatever the outputs hold (R108). -/
theorem byteStep_beforeLastByte {s : State} {tid : BitVec 16} {msg : List Byte} (hcap : 206 ≤ s.cfg.cap)
    (hlim : msg.length < 200) (o : List Output) :
    byteStep (frameChecksum tid msg).2 (setOut o (beforeLastByte tid msg s)) =
      .next (completeFrame (dispatched (stored (frameChecksum tid msg).2 (setOut o (beforeLastByte tid msg s))))) := by
  have hroom : (beforeLastByte tid msg s).wp < s.cfg.cap := by
    rw [beforeLastByte_wp]
    omega
  have hview : HDR_BYTES + (BitVec.ofNat 8 msg.length).toNat ≤ s.cfg.cap := by
    rw [toNat_length hlim, HDR_BYTES]
    omega
  have hcrc2 : byteStep (frameChecksum tid msg).2 (setOut o (beforeLastByte tid msg s)) =
      byteCrc2 (frameChecksum tid msg).2 (setOut o (beforeLastByte tid msg s)) := rfl
  rw [hcrc2, byteCrc2_eq_next]
  exact .inl ⟨rfl, hroom, hview, rfl⟩

theorem message_stored_setOut (b : Byte) (o : List Output) (s : State) :
    (stored b (setOut o s)).message = (stored b s).message :=
  message_congr rfl rfl rfl

/-- The trial of a valid frame completes it with its last byte (R184, R185). -/
theorem scanTry_validFrameBytes {s : State} {tid : BitVec 16} {msg : List Byte} (hst : s.st = .header1)
    (hcap : 206 ≤ s.cfg.cap) (hmin : 4 ≤ msg.length) (hlim : msg.length < 200) :
    scanTry (validFrameBytes tid msg) (validFrameBytes tid msg).length 0 s =
      .next ⟨.completed, (validFrameBytes tid msg).length,
        completeFrame (dispatched (stored (frameChecksum tid msg).2 (setOut s.out (beforeLastByte tid msg s))))⟩ := by
  rw [validFrameBytes_eq_append]
  have hfed := feedAll_beforeLastByte (tid := tid) hst hcap hmin hlim
  generalize hpre : frameBytes tid (BitVec.ofNat 8 msg.length) (msg ++ [(frameChecksum tid msg).1]) = pre at hfed ⊢
  have hout : (beforeLastByte tid msg s).out = s.out ++ List.replicate pre.length (.status .running) := hpre ▸ rfl
  have hlast : (pre ++ [(frameChecksum tid msg).2])[0 + pre.length]? = some (frameChecksum tid msg).2 := by
    rw [Nat.zero_add, List.getElem?_concat_length]
  rw [List.length_append, List.length_singleton, Nat.add_comm]
  calc
    _ = scanTry _ 1 (0 + pre.length) (setOut s.out (beforeLastByte tid msg s)) :=
      scanTry_of_running 1 s.out pre (s := s) rfl hfed hout
    _ = _ := by rw [scanTry_of_done hlast (byteStep_beforeLastByte hcap hlim s.out) rfl 0, Nat.zero_add, Nat.add_comm]

/-- Settles O56: the trial of the frame ends with its last byte, and so does the scan. -/
theorem scanningAValidFrameCompletesIt : Obligations.ScanningAValidFrameCompletesIt := by
  intro s tid msg hs hst hmin hlim
  have hscan := runScan_of_completed hst (candidate_validFrameBytes s.cfg (tid := tid) hmin hlim)
    (scanTry_validFrameBytes hst hs.cap hmin hlim)
  refine ⟨_, (whenIdle_of_idle hs.idle _).trans hscan, rfl, ?_, rfl, rfl, rfl⟩
  rw [completeFrame_dispatched_decoding, message_stored_setOut, message_stored_lastByte hlim]
  rfl

end Sys2Proof.Machine
end

section
/-! PROOFS for spec/42_dispatcher.md: what is recognised (O8), the little-endian integers (O9), single sub-records and noise
bytes (O26, O27), the walk over the message (O36, O37), and what a dispatch leaves (O35). -/

namespace Sys2Proof

/-! ## Little-endian integers -/

/-- The integer of a list of bytes as the sum of the bytes at their place values (R136). -/
theorem leu_eq_sum (bs : List Byte) :
    leu bs = ∑ j ∈ Finset.range bs.length, (bs.getD j 0).toNat * 2 ^ (8 * j) := by
  induction bs with
  | nil => rfl
  | cons b bs ih =>
    have hshift : ∀ j ∈ Finset.range bs.length, ((b :: bs).getD (j + 1) 0).toNat * 2 ^ (8 * (j + 1)) =
        256 * ((bs.getD j 0).toNat * 2 ^ (8 * j)) := fun j _ => by
      rw [List.getD_cons_succ, Nat.mul_succ, pow_add]
      ring
    rw [leu, ih, List.length_cons, Finset.sum_range_succ', Finset.sum_congr rfl hshift, ← Finset.mul_sum,
      List.getD_cons_zero, Nat.mul_zero, pow_zero, Nat.mul_one, Nat.add_comm]

/-- The two's complement reading, split at the sign bit of the most significant byte (R136). -/
theorem les_eq_ite {bs : List Byte} (h : 1 ≤ bs.length) : les bs =
    if leu bs < 2 ^ (8 * bs.length - 1) then (leu bs : Int) else (leu bs : Int) - 2 ^ (8 * bs.length) := by
  have hnat : 256 ^ bs.length = 2 * 2 ^ (8 * bs.length - 1) := by
    rw [← pow_succ', Nat.sub_add_cancel (by omega), pow_mul]
    rfl
  have hint : (256 : Int) ^ bs.length = 2 ^ (8 * bs.length) := by
    rw [pow_mul]
    rfl
  have hsign : 2 * leu bs < 256 ^ bs.length ↔ leu bs < 2 ^ (8 * bs.length - 1) := by
    rw [hnat]
    omega
  simp only [les, hsign, hint]

/-- A word built from exactly its bytes holds both their integers. -/
theorem leWord_value_whole {w n : Nat} {bs : List Byte} (hn : w / 8 = n) (hw : 2 ^ w = 256 ^ n) (hl : bs.length = n) :
    (leWord w 0 bs).toNat = leu bs ∧ (leWord w 0 bs).toInt = les bs := by
  have h := leWord_value bs 0 hn hw (by omega)
  rwa [List.drop_zero, List.take_of_length_le hl.le] at h

/-- Settles O9: the sum by induction on the bytes, the sign by halving the range, the words from their own bytes. -/
theorem littleEndianWordsHoldTheirIntegers : Obligations.LittleEndianWordsHoldTheirIntegers :=
  ⟨leu_eq_sum, fun _ => les_eq_ite, fun _ => leWord_value_whole rfl rfl, fun _ => leWord_value_whole rfl rfl,
    fun _ => leWord_value_whole rfl rfl⟩

/-! ## Recognition -/

/-- A length byte with the number a row expects is that row's length byte (R65). -/
theorem eq_ofNat_expLen_iff {c : Cfg} {k : Kind} {sl : Byte} :
    sl = BitVec.ofNat 8 (k.expLen c) ↔ sl.toNat = k.expLen c := by
  rw [← BitVec.toNat_inj, expLen_toNat]

/-- A row's id and length byte with enough data behind them decode to the row's operation on that data (R135). -/
theorem decodeSub_of_header {c : Cfg} {k : Kind} {id sl : Byte} {data : List Byte} (hc : c.wf = true)
    (hid : c.idOf k = some id) (hsl : sl.toNat = k.expLen c) (hfit : k.expLen c ≤ data.length) :
    decodeSub c (id :: sl :: data) = .ok (k.build c (data.take (k.expLen c)), data.drop (k.expLen c)) := by
  obtain rfl := eq_ofNat_expLen_iff.2 hsl
  rw [decodeSub_recognised (recognise_header (Cfg.lookup_of_idOf hc hid) hfit), Nat.add_comm 2]
  rfl

/-- Where no row's conditions are met the first byte is noise (R75, R135). -/
theorem decodeSub_of_no_row {c : Cfg} {id sl : Byte} {data : List Byte}
    (h : ∀ k, ¬(c.idOf k = some id ∧ sl.toNat = k.expLen c ∧ k.expLen c ≤ data.length)) :
    decodeSub c (id :: sl :: data) = .ok (.noise id, sl :: data) := by
  rcases decodeSub_total c id (sl :: data) with ⟨-, hd⟩ | ⟨k, id', data', -, hid, rfl, hm, hfit, -⟩
  · exact hd
  · obtain ⟨hsl, rfl⟩ := List.cons.inj hm
    exact absurd ⟨hid, eq_ofNat_expLen_iff.1 hsl, hfit⟩ (h k)

/-- Settles O8: the three conditions find the one row they can belong to; without them, or a length byte, nothing is
recognised. -/
theorem recognitionNeedsIdLengthAndRoom : Obligations.RecognitionNeedsIdLengthAndRoom :=
  fun _ _ _ _ hc => ⟨fun _ => decodeSub_of_header hc, decodeSub_of_no_row, decodeSub_noise rfl⟩

namespace Machine

/-! ## One operation -/

theorem exec_noise (b : Byte) (s : State) : exec (.noise b) s = .next (advance 1 s) := rfl

/-- Settles O26: a noise byte is an advance by one. -/
theorem noiseOnlyMovesTheCursorByOne : Obligations.NoiseOnlyMovesTheCursorByOne :=
  fun b s => ⟨advance 1 s, exec_noise b s, rfl, .refl s.buf⟩

/-- A sub-record operation of an active row writes the record, appends the id and passes the sub-record (R133, R137). -/
theorem exec_of_active {i : Instr} {k : Kind} {id : Byte} {s : State} (hr : rowOf i = some k)
    (hid : s.cfg.idOf k = some id) : exec i s = .next (decoded id (k.expLen s.cfg) (recordWith i s.record) s) :=
  (exec_row hr s).trans (subRecord_of_idOf hid)

/-- Settles O27: every row is `decoded` with the record that its operation leaves. -/
theorem everyActiveSubRecordRuns : Obligations.EveryActiveSubRecordRuns :=
  fun _ _ _ s hr hid => ⟨_, exec_of_active hr hid, rfl, .refl s.buf⟩

/-! ## The walk of a dispatch -/

/-- The walk of a dispatch executes the operations of the message, from its first byte on (R132). -/
theorem walk_dispatchBegin (s : State) :
    walk s.len.toNat (dispatchBegin s) = execAll (subOps s.cfg s.message) (dispatchBegin s) := by
  rw [walk_eq_execAll s.len.toNat (dispatchBegin s) (Nat.le_add_left _ _), messageFrom_dispatchBegin, dispatchBegin_cfg,
    subOps, message_length]

/-- `DISPATCH` between operations, with the message inside the buffer, is the walk and the completion event (R130). -/
theorem exec_dispatch_of_view {s : State} (hidle : s.act = .idle) (hview : 5 + s.len.toNat ≤ s.cfg.cap) :
    exec .dispatch s = andThen (walk s.len.toNat (dispatchBegin s)) fun t => .next (dispatchEnd t) :=
  (whenIdle_of_idle hidle _).trans (if_pos hview)

/-- Settles O36: one iteration of the walk executes the operation that the decoder finds at the cursor, and leaves the
cursor before what the decoder leaves over (`walk_eq_execAll`). -/
theorem dispatchExecutesTheDecodedOperationsInOrder : Obligations.DispatchExecutesTheDecodedOperationsInOrder := by
  intro s hidle hview
  rw [exec_dispatch_of_view hidle hview, walk_dispatchBegin]

/-- Settles O37: the walk ends where the message does, and every iteration keeps four message bytes for each id. -/
theorem walkEndsAtTheEndOfTheMessage : Obligations.WalkEndsAtTheEndOfTheMessage := by
  intro s
  obtain ⟨t, ht, hok, hend, hframe⟩ := walk_dispatch (WalkOk s.cfg s.len) s (walkOk_begin s) walkOk_step
  have hsize := hok.size
  rw [hend] at hsize
  exact ⟨t, ht, hend, hsize, hframe⟩

/-! ## What a dispatch leaves -/

/-- `DISPATCH` between operations as a function of the state. -/
theorem exec_dispatch_eq_dispatched {s : State} (hidle : s.act = .idle) (hview : 5 + s.len.toNat ≤ s.cfg.cap) :
    exec .dispatch s = .next (dispatched s) :=
  (whenIdle_of_idle hidle _).trans (runDispatch_eq_next_iff.2 ⟨hview, rfl⟩)

/-- Settles O35: `dispatched` holds the decoding of the message and its event; the activity is idle as it was before. -/
theorem dispatchDecodesTheMessageAndTouchesOnlyTheRecord :
    Obligations.DispatchDecodesTheMessageAndTouchesOnlyTheRecord := by
  intro s hidle hview
  exact ⟨dispatched s, exec_dispatch_eq_dispatched hidle hview,
    congrArg (fun a => { dispatched s with act := a }) hidle.symm, rfl, dispatched_pcount s, .refl s.buf⟩

end Machine
end Sys2Proof
end

section
/-! PROOFS for spec/43_fields.md: what the rows of the table write (O29 to O34), the message of one sub-record (O38), and the
physical values (O40). -/

namespace Sys2Proof

open Sys2Proof.Machine

/-! ## The integers of the data -/

theorem leWord32_toInt {d : List Byte} {o : Nat} (hl : o + 4 ≤ d.length) : (leWord 32 o d).toInt = signed4 d o :=
  (leWord_value d o rfl rfl hl).2

/-- The last word of the data holds the signed integer of all that is left of it. -/
theorem leWord_toInt_last {w n o : Nat} {d : List Byte} (hn : w / 8 = n) (hw : 2 ^ w = 256 ^ n)
    (hl : d.length = o + n) : (leWord w o d).toInt = les (d.drop o) := by
  rw [(leWord_value d o hn hw hl.ge).2, List.take_of_length_le]
  rw [List.length_drop, hl, Nat.add_sub_cancel_left]

theorem signedLanes3_lanes3 {d : List Byte} (hd : d.length = 12) : SignedLanes3 (lanes3 d) d :=
  ⟨leWord32_toInt (by omega), leWord32_toInt (by omega), leWord32_toInt (by omega)⟩

theorem signedLanes4_lanes4 {d : List Byte} (hd : d.length = 16) : SignedLanes4 (lanes4 d) d :=
  ⟨leWord32_toInt (by omega), leWord32_toInt (by omega), leWord32_toInt (by omega), leWord32_toInt (by omega)⟩

/-- Sign extension keeps the integer (R26). -/
theorem sext64_toInt (v : BitVec 32) : (sext64 v).toInt = v.toInt :=
  BitVec.toInt_signExtend_of_le (by decide)

/-- The altitude's 64 bits hold the signed integer of the last data bytes, under either width (R167). -/
theorem altitude64_altitudeOf_toInt {c : Cfg} {d : List Byte} (hd : d.length = 16 + c.hpAlt.bytes) :
    (altitude64 (altitudeOf c d)).toInt = les (d.drop 16) := by
  unfold altitudeOf
  split
  case h_1 h => exact (sext64_toInt _).trans (leWord_toInt_last rfl rfl (by rw [hd, h]; rfl))
  case h_2 h => exact leWord_toInt_last rfl rfl (by rw [hd, h]; rfl)

/-! ## Rows of the table -/

/-- Nothing in a message decodes to a row that is not active (R73). -/
theorem rowOf_ne_of_inactive {c : Cfg} {m rest : List Byte} {i : Instr} {k : Kind}
    (h : decodeSub c m = .ok (i, rest)) (hk : c.idOf k = none) : rowOf i ≠ some k := by
  intro hr
  have hactive := idOf_isSome_of_wf hr (decodeSub_eq_ok h).1
  rw [hk] at hactive
  cases hactive

/-- With `DUAL = true` the second-sensor rows have the OPEN ids (R73). -/
theorem idOf_secondSensor_of_dual {c : Cfg} (h : c.dual = true) :
    c.idOf .temp2 = c.idTemp2 ∧ c.idOf .acc2 = c.idAcc2 ∧ c.idOf .gyro2 = c.idGyro2 :=
  ⟨if_pos h, if_pos h, if_pos h⟩

namespace Machine

/-- Every active row writes what is built from its data (R135, R150): its header and data decode to it whatever follows, and
it is `decoded` with the record `recordWith` gives. -/
theorem rowWrites_build {s : State} {k : Kind} {id : Byte} {d : List Byte} (hc : s.cfg.wf = true)
    (hid : s.cfg.idOf k = some id) (hd : d.length = k.expLen s.cfg) (rest : List Byte) :
    RowWrites s d rest id (k.build s.cfg d) (recordWith (k.build s.cfg d)) := by
  have hdecode := decodeSub_encodeSub hc hid hd rest
  rw [encodeSub, hid, ← hd] at hdecode
  have hexec := exec_of_active (rowOf_build s.cfg k d) hid
  rw [← hd] at hexec
  exact ⟨hdecode, _, hexec, rfl, .refl s.buf⟩

/-- Settles O29: each row is `rowWrites_build` of its kind, with the three lanes of the data. -/
theorem threeLaneRowsWriteTheirField : Obligations.ThreeLaneRowsWriteTheirField := by
  refine ⟨⟨rfl, rfl, rfl, rfl, rfl, rfl, rfl⟩, fun s d rest hc hd => ⟨lanes3 d, signedLanes3_lanes3 hd, ?_⟩⟩
  exact ⟨rowWrites_build (k := .acc) hc rfl hd rest, rowWrites_build (k := .gyro) hc rfl hd rest,
    rowWrites_build (k := .facc) hc rfl hd rest, rowWrites_build (k := .dvel) hc rfl hd rest,
    rowWrites_build (k := .vel) hc rfl hd rest, rowWrites_build (k := .magn) hc rfl hd rest,
    rowWrites_build (k := .magr) hc rfl hd rest, rowWrites_build (k := .eul) hc rfl hd rest⟩

/-- Settles O30: as for three lanes. -/
theorem fourLaneRowsWriteTheirField : Obligations.FourLaneRowsWriteTheirField := by
  refine ⟨⟨rfl, rfl⟩, fun s d rest hc hd => ⟨lanes4 d, signedLanes4_lanes4 hd, ?_⟩⟩
  exact ⟨rowWrites_build (k := .quat) hc rfl hd rest, rowWrites_build (k := .dquat) hc rfl hd rest⟩

/-- Settles O31: the one word is the whole data, read signed for `TEMP` and unsigned for the timestamps. -/
theorem scalarRowsWriteTheirField : Obligations.ScalarRowsWriteTheirField := by
  refine ⟨⟨rfl, rfl, rfl⟩, fun s d rest hc hd => ?_, fun s d rest hc hd => ?_⟩
  · exact ⟨leWord 16 0 d, (leWord_value_whole rfl rfl hd).2, rowWrites_build (k := .temp) hc rfl hd rest⟩
  · exact ⟨leWord 32 0 d, (leWord_value_whole rfl rfl hd).1, rowWrites_build (k := .tss) hc rfl hd rest,
      rowWrites_build (k := .tsd) hc rfl hd rest⟩

/-- Settles O32: the three words are written sign-extended. -/
theorem locWritesSignExtendedLocation : Obligations.LocWritesSignExtendedLocation := by
  refine ⟨rfl, fun s d rest hc hd => ?_⟩
  have hsext : ∀ {o : Nat}, o + 4 ≤ d.length → (sext64 (leWord 32 o d)).toInt = signed4 d o :=
    fun hl => (sext64_toInt _).trans (leWord32_toInt hl)
  exact ⟨leWord 32 0 d, leWord 32 4 d, leWord 32 8 d, sext64 (leWord 32 0 d), sext64 (leWord 32 4 d),
    sext64 (leWord 32 8 d), hsext (by omega), hsext (by omega), hsext (by omega),
    rowWrites_build (k := .loc) hc rfl hd rest⟩

/-- Settles O33: the altitude is read in the configuration's width; `LOCH` is the only row with its id, so its length byte is
the only one under which the id is recognised. -/
theorem lochWritesHighPrecisionLocation : Obligations.LochWritesHighPrecisionLocation := by
  refine ⟨rfl, fun s d rest hc hd => ?_, fun c sl data hc hsl => decodeSub_of_no_row ?_⟩
  · exact ⟨leWord 64 0 d, leWord 64 8 d, altitude64 (altitudeOf s.cfg d), altitudeOf s.cfg d,
      (leWord_value d 0 rfl rfl (by omega)).2, (leWord_value d 8 rfl rfl (by omega)).2,
      altitude64_altitudeOf_toInt hd, rowWrites_build (k := .loch) hc rfl hd rest⟩
  · rintro k ⟨hid, hlen, -⟩
    obtain rfl : k = .loch := Cfg.idOf_injective hc hid rfl
    exact hsl hlen

/-- Settles O34: with `DUAL = true` the rows are active under the OPEN ids, with `DUAL = false` none of them is. -/
theorem secondSensorRowsWriteTheirFieldInDualMode : Obligations.SecondSensorRowsWriteTheirFieldInDualMode := by
  refine ⟨fun s d rest id hc hdual hd hid => ?_, fun s d rest ida idg hc hdual hd hida hidg => ?_,
    fun c m rest i hdual h => ?_⟩
  · obtain ⟨htemp, -, -⟩ := idOf_secondSensor_of_dual hdual
    exact ⟨leWord 16 0 d, (leWord_value_whole rfl rfl hd).2,
      rowWrites_build (k := .temp2) hc (htemp.trans hid) hd rest⟩
  · obtain ⟨-, hacc, hgyro⟩ := idOf_secondSensor_of_dual hdual
    exact ⟨lanes3 d, signedLanes3_lanes3 hd, rowWrites_build (k := .acc2) hc (hacc.trans hida) hd rest,
      rowWrites_build (k := .gyro2) hc (hgyro.trans hidg) hd rest⟩
  · obtain ⟨htemp, hacc, hgyro⟩ := idOf_secondSensor hdual
    exact ⟨rowOf_ne_of_inactive h htemp, rowOf_ne_of_inactive h hacc, rowOf_ne_of_inactive h hgyro⟩

/-! ## A message of one sub-record -/

theorem parse_nil (c : Cfg) (n : Nat) : parse c n [] = [] := by
  cases n <;> rfl

/-- The bytes of one sub-record are parsed to it alone (R132). -/
theorem subOps_encodeSub {c : Cfg} {i : Instr} {k : Kind} {id : Byte} (hc : c.wf = true) (hr : rowOf i = some k)
    (hi : i.wf c = true) (hid : c.idOf k = some id) : subOps c (encodeSub c k (subData i)) = [i] := by
  have hdecode := decodeSub_encodeSub hc hid (subData_length hr hi) []
  rw [List.append_nil, build_subData hr hi] at hdecode
  have hlength : (encodeSub c k (subData i)).length = (subData i).length + 1 + 1 := rfl
  rw [subOps, hlength, parse, hdecode]
  exact congrArg (i :: ·) (parse_nil c _)

theorem execAll_singleton (i : Instr) (s : State) : execAll [i] s = exec i s := by
  rw [execAll]
  cases exec i s <;> rfl

/-- Settles O38: the operations of the message are the one, executed from the zero record and the empty list. -/
theorem oneSubRecordMessageDecodesToItsRow : Obligations.OneSubRecordMessageDecodesToItsRow := by
  intro s i k id hidle hc hview hr hi hid hmsg
  have hbytes : encodeSub s.cfg k (subData i) = s.message :=
    Code.message.inj ((encode_of_rowOf hr s.cfg).symm.trans hmsg)
  have hexec := exec_of_active (s := dispatchBegin s) hr hid
  have hdispatch := exec_dispatch_of_view hidle hview
  rw [walk_dispatchBegin, ← hbytes, subOps_encodeSub hc hr hi hid, execAll_singleton, hexec, andThen_next] at hdispatch
  exact ⟨_, _, hdispatch, hexec, rfl, rfl⟩

/-! ## Physical values -/

theorem scaled_eq_mul (k : Nat) (raw : Int) : scaled k raw = (raw : ℚ) * (1 / 10 ^ k) :=
  div_eq_mul_one_div _ _

@[simp] theorem scaled_raw_zero (k : Nat) : scaled k 0 = 0 := by
  rw [scaled, Int.cast_zero, zero_div]

/-- Exponent 0 leaves the integer (R25). -/
theorem scaled_exponent_zero (n : Nat) : scaled 0 n = (n : ℚ) := by
  rw [scaled, pow_zero, div_one, Int.cast_natCast]

/-- The two location rows have the same values, under the exponent of the tag (R25, R151). -/
theorem fieldValues_location {r : SensorRecord} {k : Nat} (h : latLonExponent r.locPrec = k) :
    fieldValues r .loc = [scaled k r.lat.toInt, scaled k r.lon.toInt, scaled altExponent r.alt.toInt] ∧
    fieldValues r .loch = [scaled k r.lat.toInt, scaled k r.lon.toInt, scaled altExponent r.alt.toInt] := by
  subst h
  exact ⟨rfl, rfl⟩

/-- Settles O40: the field of each row with the row's exponent, every lane by `scaled_eq_mul`. -/
theorem physicalValuesAreScaledRawIntegers : Obligations.PhysicalValuesAreScaledRawIntegers := by
  intro r value three four place
  have hvalue : value = scaled := funext₂ fun k x => (scaled_eq_mul k x).symm
  clear_value value
  subst hvalue
  refine ⟨rfl, rfl, rfl, rfl, rfl, rfl, rfl, rfl, rfl, rfl, rfl, rfl, rfl, rfl, ?_, ?_, ?_, ?_, ?_⟩
  · exact congrArg (fun q => [q]) (scaled_exponent_zero _)
  · exact congrArg (fun q => [q]) (scaled_exponent_zero _)
  · exact fun hprec => fieldValues_location (by rw [hprec]; rfl)
  · exact fun hprec => fieldValues_location (by rw [hprec]; rfl)
  · intro hprec hlat hlon halt
    obtain ⟨hloc, hloch⟩ := fieldValues_location (r := r) (k := 0) (by rw [hprec]; rfl)
    rw [hloc, hloch, hlat, hlon, halt]
    simp

end Machine
end Sys2Proof
end

section
/-! PROOFS for spec/44_scanner.md: the search for candidates (O51), that `SCAN` always completes (O52), the trial of a candidate
(O53), where the search goes on after it (O54), and a frame in progress (O55). -/

namespace Sys2Proof.Machine

theorem exec_scan_of_idle {s : State} (hidle : s.act = .idle) (src : List Byte) : exec (.scan src) s = runScan src s :=
  whenIdle_of_idle hidle _

/-! ## The search for candidates -/

theorem candidate_lt_length {c : Cfg} {src : List Byte} {p : Nat} (h : candidate c src p = true) : p < src.length := by
  obtain ⟨hroom, -⟩ := (candidate_iff c src p).1 h
  omega

/-- The search answers the least candidate (R180). -/
theorem nextCandidate_eq_some {c : Cfg} {src : List Byte} {pos p : Nat} : nextCandidate c src pos = some p ↔
    pos ≤ p ∧ candidate c src p = true ∧ ∀ q, pos ≤ q → q < p → ¬ candidate c src q = true := by
  rw [nextCandidate, List.find?_range'_eq_some, List.mem_range'_1]
  constructor
  · rintro ⟨hcand, ⟨hpos, -⟩, hleast⟩
    exact ⟨hpos, hcand, fun q hq hlt hc => by simpa [hc] using hleast q hq hlt⟩
  · rintro ⟨hpos, hcand, hleast⟩
    have hlt := candidate_lt_length hcand
    exact ⟨hcand, ⟨hpos, by omega⟩, fun q hq hqp => by simpa using hleast q hq hqp⟩

theorem nextCandidate_eq_none {c : Cfg} {src : List Byte} {pos : Nat} : nextCandidate c src pos = none ↔
    ∀ p, pos ≤ p → ¬ candidate c src p = true := by
  rw [nextCandidate, List.find?_range'_eq_none]
  constructor
  · intro h p hp hc
    have hlt := candidate_lt_length hc
    simpa [hc] using h p hp (by omega)
  · intro h p hp _
    simpa using h p hp

/-- Settles O51: the header test is what the statement calls plausible, and the search answers the least place it holds at. -/
theorem nextCandidateIsTheLeastPlausibleHeader : Obligations.NextCandidateIsTheLeastPlausibleHeader := by
  intro c src pos plausible
  have hplausible : ∀ p, candidate c src p = true ↔ plausible p := candidate_iff c src
  simp only [← hplausible]
  exact ⟨fun _ => nextCandidate_eq_some, nextCandidate_eq_none⟩

/-! ## The whole scan -/

/-- Settles O52: what `runScan_next` says of the scan between operations. -/
theorem scanAlwaysCompletes : Obligations.ScanAlwaysCompletes := by
  intro src s hs
  obtain ⟨t, ht, hi, hk⟩ := runScan_next src hs
  exact ⟨t, (exec_scan_of_idle hs.idle src).trans ht, hi, hk.cfg, hk.port, hk.epoch, hk.done, hk.fail, hk.outs⟩

/-! ## Bytes answered `Running` -/

/-- Feeding the bytes leads from one state to the other, each byte answered `Running`. -/
inductive FedRunning : List Byte → State → State → Prop where
  | nil (s : State) : FedRunning [] s s
  | cons {b : Byte} {bs : List Byte} {s u t : State} (step : byteStep b s = .next u) (last : u.last = .running)
      (rest : FedRunning bs u t) : FedRunning (b :: bs) s t

theorem feedSilent_cons {b : Byte} {s u : State} (h : byteStep b s = .next u) (bs : List Byte) :
    feedSilent (b :: bs) s = feedSilent bs u := by
  rw [feedSilent, h, andThen_next]

theorem FedRunning.feedSilent_append {bs : List Byte} {s t : State} (h : FedRunning bs s t) (rest : List Byte) :
    feedSilent (bs ++ rest) s = feedSilent rest t := by
  induction h with
  | nil s => rfl
  | cons step _ _ ih => exact (feedSilent_cons step _).trans ih

theorem FedRunning.feedSilent {bs : List Byte} {s t : State} (h : FedRunning bs s t) : feedSilent bs s = .next t := by
  simpa [Machine.feedSilent] using h.feedSilent_append []

theorem FedRunning.last_running {bs : List Byte} {s t : State} (h : FedRunning bs s t) (hne : bs ≠ []) :
    t.last = .running := by
  induction h with
  | nil s => exact absurd rfl hne
  | cons _ last rest ih =>
    cases rest with
    | nil _ => exact last
    | cons _ _ _ => exact ih (List.cons_ne_nil _ _)

/-- The first bytes of bytes answered `Running` are answered so. -/
theorem FedRunning.take {bs : List Byte} {s t : State} (h : FedRunning bs s t) (n : Nat) :
    ∃ v, FedRunning (bs.take n) s v := by
  induction h generalizing n with
  | nil s => exact ⟨s, by rw [List.take_nil]; exact .nil s⟩
  | @cons b bs s u t step last _ ih =>
    cases n with
    | zero => exact ⟨s, .nil s⟩
    | succ n =>
      obtain ⟨v, hv⟩ := ih n
      exact ⟨v, .cons step last hv⟩

/-- After the first `n` of them, at least one, the status is `Running`. -/
theorem FedRunning.feedSilent_take {bs : List Byte} {s t : State} {n : Nat} (h : FedRunning bs s t) (hpos : 0 < n)
    (hn : n ≤ bs.length) : ∃ v, Machine.feedSilent (bs.take n) s = .next v ∧ v.last = .running := by
  obtain ⟨v, hv⟩ := h.take n
  refine ⟨v, hv.feedSilent, hv.last_running (List.ne_nil_of_length_pos ?_)⟩
  rw [List.length_take]
  omega

/-! ## What a trial can do -/

/-- A status is one of `Running`, `Done` and the errors (R81). -/
theorem Status.eq_running {x : Status} (hdone : x ≠ .done) (herr : ¬ x.isError = true) : x = .running := by
  cases x with
  | running => rfl
  | done => exact absurd rfl hdone
  | checksumError | lengthError | internalError => exact absurd rfl herr

theorem Status.ne_running_of_isError {x : Status} (h : x.isError = true) : x ≠ .running := by
  rintro rfl
  cases h

/-- A byte-feed step that does not answer `Running` leaves the framer in `Header1` (R108, R225). -/
theorem byteStep_header1_of_not_running {b : Byte} {s t : State} (h : byteStep b s = .next t) (hl : t.last ≠ .running) :
    t.st = .header1 := by
  rcases byteStep_cases h with hq | ⟨x, -, rfl⟩ | hc
  · exact absurd hq.last hl
  · rfl
  · obtain ⟨u, -, rfl⟩ := hc.run
    rfl

/-- How the status of the last byte fed makes the verdict of a trial that ended before the buffer did (R184). -/
def Verdict.Ends : Verdict → Status → Prop
  | .completed, x => x = .done
  | .failed, x => x.isError = true
  | .unfinished, _ => False

theorem Verdict.Ends.ne_running {v : Verdict} {x : Status} (h : v.Ends x) : x ≠ .running := by
  rintro rfl
  cases v with
  | completed | failed => cases h
  | unfinished => exact h

/-- A trial feeds on while it is answered `Running`: to the end of the buffer, or up to a byte that is answered otherwise and
makes the verdict (R184). -/
theorem scanTry_eq_next {src : List Byte} : ∀ {n q : Nat} {s : State} {r : Trial}, src.length ≤ q + n →
    scanTry src n q s = .next r →
    (r.verdict = .unfinished ∧ r.q = q + (src.drop q).length ∧ FedRunning (src.drop q) s r.state) ∨
    ∃ bs b rest u, src.drop q = bs ++ b :: rest ∧ r.q = q + bs.length + 1 ∧ FedRunning bs s u ∧
      byteStep b u = .next r.state ∧ r.verdict.Ends r.state.last := by
  intro n
  induction n with
  | zero =>
    intro q s r hn h
    cases h
    rw [List.drop_eq_nil_of_le (by omega)]
    exact .inl ⟨rfl, rfl, .nil s⟩
  | succ n ih =>
    intro q s r hn h
    rw [scanTry] at h
    split at h
    next hnone =>
      cases h
      rw [List.drop_eq_nil_of_le (List.getElem?_eq_none_iff.1 hnone)]
      exact .inl ⟨rfl, rfl, .nil s⟩
    next b hb =>
      obtain ⟨hlt, rfl⟩ := List.getElem?_eq_some_iff.1 hb
      rw [List.drop_eq_getElem_cons hlt]
      obtain ⟨t, ht, h⟩ := andThen_eq_next.1 h
      split at h
      next hdone =>
        cases h
        exact .inr ⟨[], _, _, s, rfl, rfl, .nil s, ht, hdone⟩
      next hdone =>
        split at h
        next herr =>
          cases h
          exact .inr ⟨[], _, _, s, rfl, rfl, .nil s, ht, herr⟩
        next herr =>
          have hl := Status.eq_running hdone herr
          rcases ih (by omega) h with ⟨hv, hq, hfed⟩ | ⟨bs, b, rest, u, hdrop, hq, hfed, hstep, hends⟩
          · refine .inl ⟨hv, ?_, .cons ht hl hfed⟩
            rw [hq, List.length_cons]
            omega
          · refine .inr ⟨_ :: bs, b, rest, u, by rw [hdrop]; rfl, ?_, .cons ht hl hfed, hstep, hends⟩
            rw [hq, List.length_cons]
            omega

/-! ## No other error than a wrong checksum -/

/-- The byte at an index is a legal length byte (R105). -/
def LegalLengthAt (bs : List Byte) (i : Nat) : Prop := ∃ l, bs[i]? = some l ∧ legalLength l = true

/-- What is left of a plausible header stands ahead of the framer (R183): whatever it still awaits of the magic pair, and a
legal length byte. -/
def HeaderAhead (bs : List Byte) : FState → Prop
  | .header1 => bs[0]? = some MAGIC1 ∧ bs[1]? = some MAGIC2 ∧ LegalLengthAt bs 4
  | .header2 => bs[0]? = some MAGIC2 ∧ LegalLengthAt bs 3
  | .tidLow => LegalLengthAt bs 2
  | .tidHigh => LegalLengthAt bs 1
  | .length => LegalLengthAt bs 0
  | .message => True
  | .crc1 => True
  | .crc2 => True
  | .invalid _ => False

theorem headerAhead_of_candidate {c : Cfg} {src : List Byte} {p : Nat} (h : candidate c src p = true) :
    HeaderAhead (src.drop p) .header1 := by
  obtain ⟨-, hmagic1, hmagic2, l, hl, hlegal⟩ := (candidate_iff c src p).1 h
  simp only [HeaderAhead, LegalLengthAt, List.getElem?_drop]
  exact ⟨hmagic1, hmagic2, l, hl, legalLength_iff.2 hlegal⟩

/-- With a plausible header ahead the framer goes on with it, or compares a checksum byte. -/
theorem framerNext_of_headerAhead {b : Byte} {bs : List Byte} {st : FState} (rem c0 c1 : Byte)
    (h : HeaderAhead (b :: bs) st) :
    ((framerNext b st rem c0 c1).last = .running ∧ HeaderAhead bs (framerNext b st rem c0 c1).st) ∨
    (framerNext b st rem c0 c1).last = .done ∨ (framerNext b st rem c0 c1).last = .checksumError := by
  cases st with
  | header1 =>
    obtain ⟨hb, hrest⟩ := h
    rw [framerNext, if_pos (Option.some.inj hb)]
    exact .inl ⟨rfl, hrest⟩
  | header2 =>
    obtain ⟨hb, hrest⟩ := h
    rw [framerNext, if_pos (Option.some.inj hb)]
    exact .inl ⟨rfl, hrest⟩
  | tidLow => exact .inl ⟨rfl, h⟩
  | tidHigh => exact .inl ⟨rfl, h⟩
  | length =>
    obtain ⟨l, hb, hlegal⟩ := h
    obtain rfl := Option.some.inj hb
    rw [framerNext, if_pos hlegal]
    exact .inl ⟨rfl, trivial⟩
  | message =>
    refine .inl ⟨rfl, ?_⟩
    rw [framerNext]
    split <;> trivial
  | crc1 =>
    rw [framerNext]
    split
    · exact .inl ⟨rfl, trivial⟩
    · exact .inr (.inr rfl)
  | crc2 =>
    rw [framerNext]
    split
    · exact .inr (.inl rfl)
    · exact .inr (.inr rfl)
  | invalid low => exact h.elim

theorem byteStep_of_headerAhead {b : Byte} {bs : List Byte} {s t : State} (h : byteStep b s = .next t)
    (hs : HeaderAhead (b :: bs) s.st) :
    (t.last = .running ∧ HeaderAhead bs t.st) ∨ t.last = .done ∨ t.last = .checksumError := by
  have hnext := framerNext_of_headerAhead s.rem s.c0 s.c1 hs
  rw [← byteStep_framer h] at hnext
  exact hnext

theorem FedRunning.headerAhead {bs : List Byte} {s t : State} (h : FedRunning bs s t) {rest : List Byte}
    (hs : HeaderAhead (bs ++ rest) s.st) : HeaderAhead rest t.st := by
  induction h with
  | nil s => exact hs
  | cons step last _ ih =>
    rcases byteStep_of_headerAhead step hs with ⟨-, hu⟩ | hdone | herr
    · exact ih hu
    · cases last.symm.trans hdone
    · cases last.symm.trans herr

/-- Settles O53: the bytes fed are those before the last one, all answered `Running` with the rest of the header ahead, and
the byte that makes the verdict. -/
theorem candidateTrialFeedsUntilDoneErrorOrEnd : Obligations.CandidateTrialFeedsUntilDoneErrorOrEnd := by
  intro src cand s r hst hcand h
  have hlt := candidate_lt_length hcand
  have hahead : HeaderAhead (src.drop cand) s.st := hst ▸ headerAhead_of_candidate hcand
  have hlen : (src.drop cand).length = src.length - cand := List.length_drop
  rcases scanTry_eq_next (Nat.le_add_left _ _) h with
    ⟨hv, hq, hfed⟩ | ⟨bs, b, rest, u, hdrop, hq, hfed, hstep, hends⟩
  · have hend : r.q = src.length := by omega
    refine ⟨?_, by omega, hend.le, fun n hn hnq => hfed.feedSilent_take (by omega) (by omega), ?_, ?_,
      fun _ => ⟨hend, ?_⟩⟩
    · rw [hend, ← hlen, List.take_length]
      exact hfed.feedSilent
    · rw [hv]
      exact nofun
    · rw [hv]
      exact nofun
    · exact hfed.last_running (List.ne_nil_of_length_pos (by omega))
  · have hback := byteStep_header1_of_not_running hstep hends.ne_running
    rw [hdrop] at hahead hlen ⊢
    rw [List.length_append, List.length_cons] at hlen
    refine ⟨?_, by omega, by omega, fun n hn hnq => ?_, fun hv => ?_, fun hv => ?_, fun hv => ?_⟩
    · rw [show r.q - cand = bs.length + 1 by omega, List.take_length_add_append, hfed.feedSilent_append]
      exact feedSilent_cons hstep []
    · rw [List.take_append_of_le_length (by omega)]
      exact hfed.feedSilent_take (by omega) (by omega)
    · rw [hv] at hends
      exact ⟨hends, hback⟩
    · rw [hv] at hends
      rcases byteStep_of_headerAhead hstep (hfed.headerAhead hahead) with ⟨hl, -⟩ | hl | hl
      · exact absurd hl hends.ne_running
      · exact absurd hl (Status.ne_done_of_isError hends)
      · exact ⟨hl, hback⟩
    · rw [hv] at hends
      exact hends.elim

/-! ## A buffer that starts later -/

/-- The same trial, with its next index counted from `d` bytes earlier. -/
def Trial.shift (d : Nat) (r : Trial) : Trial := { r with q := d + r.q }

/-- Where no byte is left a trial ends (R187). -/
theorem scanTry_of_length_le {src : List Byte} {q : Nat} (h : src.length ≤ q) (n : Nat) (s : State) :
    scanTry src n q s = .next ⟨.unfinished, q, s⟩ := by
  cases n with
  | zero => rfl
  | succ n => rw [scanTry, List.getElem?_eq_none h]

/-- The trial of a candidate in a buffer that starts `d` bytes later; bounds that reach the end of the buffer are
irrelevant (R188). -/
theorem scanTry_drop {src : List Byte} {d : Nat} : ∀ {n m q : Nat} {s : State}, src.length ≤ d + q + n →
    src.length ≤ d + q + m →
    scanTry src n (d + q) s = andThen (scanTry (src.drop d) m q s) fun r => .next (r.shift d) := by
  have hlen : (src.drop d).length = src.length - d := List.length_drop
  intro n
  induction n with
  | zero =>
    intro m q s hn _
    rw [scanTry_of_length_le (by omega), scanTry_of_length_le (by omega)]
    rfl
  | succ n ih =>
    intro m q s hn hm
    cases m with
    | zero =>
      rw [scanTry_of_length_le (by omega), scanTry_of_length_le (by omega)]
      rfl
    | succ m =>
      rw [scanTry, scanTry, List.getElem?_drop]
      cases src[d + q]? with
      | none => rfl
      | some b =>
        simp only [andThen_assoc]
        refine congrArg _ (funext fun t => ?_)
        split
        · rfl
        · split
          · rfl
          · exact ih (q := q + 1) (by omega) (by omega)

/-- Where no byte is left the search ends (R187). -/
theorem scanSearch_of_length_le {src : List Byte} {pos : Nat} (h : src.length ≤ pos) (n : Nat) (s : State) :
    scanSearch src n pos s = .next s := by
  cases n with
  | zero => rfl
  | succ n =>
    have hnone : nextCandidate s.cfg src pos = none :=
      nextCandidate_eq_none.2 fun p hp hc => by
        have := candidate_lt_length hc
        omega
    rw [scanSearch, hnone]

/-- The search in a buffer that starts `d` bytes later; bounds that reach the end of the buffer are irrelevant (R188). -/
theorem scanSearch_drop {src : List Byte} {d : Nat} : ∀ {n m pos : Nat} {s : State}, src.length ≤ d + pos + n →
    src.length ≤ d + pos + m → scanSearch src n (d + pos) s = scanSearch (src.drop d) m pos s := by
  have hlen : (src.drop d).length = src.length - d := List.length_drop
  intro n
  induction n with
  | zero =>
    intro m pos s hn _
    rw [scanSearch_of_length_le (by omega), scanSearch_of_length_le (by omega)]
  | succ n ih =>
    intro m pos s hn hm
    cases m with
    | zero => rw [scanSearch_of_length_le (by omega), scanSearch_of_length_le (by omega)]
    | succ m =>
      rw [scanSearch, scanSearch, nextCandidate_drop]
      cases hcand : nextCandidate s.cfg (src.drop d) pos with
      | none => rfl
      | some cand =>
        obtain ⟨hpos, -⟩ := nextCandidate_eq_some.1 hcand
        have htry : scanTry src src.length (d + cand) s = _ :=
          scanTry_drop (m := (src.drop d).length) (by omega) (by omega)
        simp only [Option.map_some, htry]
        cases hr : scanTry (src.drop d) (src.drop d).length cand s with
        | fault x => rfl
        | refused x => rfl
        | next r =>
          obtain ⟨-, hmoves⟩ := scanTry_moves _ _ _ _ _ hr
          simp only [andThen_next, Trial.shift]
          cases hv : r.verdict with
          | completed =>
            have := hmoves (by rw [hv]; exact nofun)
            exact ih (by omega) (by omega)
          | failed => exact ih (pos := cand + 2) (by omega) (by omega)
          | unfinished => rfl

/-- The search from a position on is the scan of the buffer from there on (R180). -/
theorem scanSearch_eq_runScan_drop {src : List Byte} {n pos : Nat} {s : State} (hst : s.st = .header1)
    (hn : src.length ≤ pos + n) : scanSearch src n pos s = runScan (src.drop pos) s := by
  rw [runScan_of_header1 hst]
  exact scanSearch_drop (pos := 0) hn (by rw [List.length_drop]; omega)

/-! ## Where the search goes on -/

/-- A trial that ended before the buffer did left the framer in `Header1` (R185, R186). -/
theorem scanTry_header1 {src : List Byte} {n q : Nat} {s : State} {r : Trial} (hn : src.length ≤ q + n)
    (h : scanTry src n q s = .next r) (hv : r.verdict ≠ .unfinished) : r.state.st = .header1 := by
  rcases scanTry_eq_next hn h with ⟨hunfinished, -⟩ | ⟨_, _, _, _, -, -, -, hstep, hends⟩
  · exact absurd hunfinished hv
  · exact byteStep_header1_of_not_running hstep hends.ne_running

/-- Settles O54: one turn of the search, whose other turns are the scan of the buffer from the new position on. -/
theorem scanGoesOnBehindTheFrameOrTwoPastTheCandidate :
    Obligations.ScanGoesOnBehindTheFrameOrTwoPastTheCandidate := by
  intro src s hs hst
  have hscan : exec (.scan src) s = scanSearch src (src.length + 1) 0 s :=
    (exec_scan_of_idle hs.idle src).trans (runScan_of_header1 hst src)
  rw [hscan, scanSearch]
  refine ⟨fun hnone => by rw [hnone], fun cand r hcand htry => ?_⟩
  have hi : Inv r.state := scanTry_keeps (fun _ _ _ h ht => h.of_byteStep ht) src _ _ s r hs htry
  have hgoesOn : ∀ pos, r.verdict ≠ .unfinished →
      scanSearch src src.length pos r.state = exec (.scan (src.drop pos)) r.state := fun pos hv =>
    (scanSearch_eq_runScan_drop (scanTry_header1 (Nat.le_add_left _ _) htry hv) (Nat.le_add_left _ _)).trans
      (exec_scan_of_idle hi.idle _).symm
  simp only [hcand, htry, andThen_next]
  refine ⟨fun hv => ?_, fun hv => ?_, fun hv => ?_⟩
  · rw [hv]
    exact hgoesOn r.q (by rw [hv]; exact nofun)
  · rw [hv]
    exact hgoesOn (cand + 2) (by rw [hv]; exact nofun)
  · rw [hv]

/-! ## A frame in progress -/

/-- One turn of the continuation (R182). -/
theorem scanContinue_step {src : List Byte} {n pos : Nat} {b : Byte} {s t : State} (hst : s.st ≠ .header1)
    (hb : src[pos]? = some b) (h : byteStep b s = .next t) :
    scanContinue src (n + 1) pos s = scanContinue src n (if t.last.isError then 0 else pos + 1) t := by
  rw [scanContinue, if_neg hst, hb]
  simp only [h, andThen_next]

/-- Bytes that leave the framer outside `Header1` are fed one after another: an error would have left it there (R182, R225). -/
theorem scanContinue_inProgress {src : List Byte} {n : Nat} {u : State} :
    ∀ {pre rest : List Byte} {pos : Nat} {s : State}, src.drop pos = pre ++ rest →
    (∀ n v, n ≤ pre.length → feedSilent (pre.take n) s = .next v → v.st ≠ .header1) → feedSilent pre s = .next u →
    scanContinue src (n + pre.length) pos s = scanContinue src n (pos + pre.length) u := by
  intro pre
  induction pre with
  | nil => intro rest pos s _ _ h; cases h; rfl
  | cons b pre ih =>
    intro rest pos s hdrop hout h
    obtain ⟨v, hv, hrest⟩ := andThen_eq_next.1 h
    have hb : src[pos]? = some b := by
      rw [← Nat.add_zero pos, ← List.getElem?_drop, hdrop]
      rfl
    have hdrop' : src.drop (pos + 1) = pre ++ rest := by
      rw [← List.drop_drop, hdrop]
      rfl
    have hvst : v.st ≠ .header1 := hout 1 v (Nat.le_add_left 1 _) (feedSilent_cons hv [])
    have hnoerr : ¬ v.last.isError = true := fun herr =>
      hvst (byteStep_header1_of_not_running hv (Status.ne_running_of_isError herr))
    have hout' : ∀ n w, n ≤ pre.length → feedSilent (pre.take n) v = .next w → w.st ≠ .header1 := fun n w hn hw =>
      hout (n + 1) w (Nat.succ_le_succ hn) ((feedSilent_cons hv _).trans hw)
    rw [List.length_cons, ← Nat.add_assoc, scanContinue_step (hout 0 s (Nat.zero_le _) rfl) hb hv, if_neg hnoerr,
      ih hdrop' hout' hrest, Nat.add_assoc, Nat.add_comm 1]

/-- A byte that brings the framer to `Header1` ends the continuation (R182). -/
theorem runScan_of_continued {src : List Byte} {n pos : Nat} {s t : State} (hst : t.st = .header1)
    (h : scanContinue src (src.length + 1) 0 s = scanContinue src n pos t) :
    runScan src s = scanSearch src (src.length + 1) pos t := by
  have hstop : scanContinue src n pos t = .next ⟨pos, t⟩ := by
    cases n with
    | zero => rfl
    | succ n => exact if_pos hst
  rw [runScan, h, hstop, andThen_next]
  exact if_pos hst

/-- Settles O55: the first part of the buffer is fed without searching, and the byte behind it ends the continuation where it
brings the framer to `Header1`. -/
theorem scanContinuesAFrameInProgress : Obligations.ScanContinuesAFrameInProgress := by
  intro pre src b s u t hs hout hu ht
  have hust : u.st ≠ .header1 := hout pre.length u le_rfl (by rwa [List.take_length])
  have hui : Inv u := by
    obtain ⟨v, hv, hi, -⟩ := feedSilent_next pre hs
    cases hv.symm.trans hu
    exact hi
  have hti : Inv t := hui.of_byteStep ht
  have hlen : (pre ++ b :: src).length = pre.length + src.length + 1 := by
    rw [List.length_append, List.length_cons, Nat.add_assoc]
  have hcontinue : scanContinue (pre ++ b :: src) ((pre ++ b :: src).length + 1) 0 s =
      scanContinue (pre ++ b :: src) (src.length + 1) (if t.last.isError then 0 else pre.length + 1) t := by
    have hb : (pre ++ b :: src)[0 + pre.length]? = some b := by
      rw [Nat.zero_add, List.getElem?_append_right le_rfl, Nat.sub_self]
      rfl
    rw [show (pre ++ b :: src).length + 1 = (src.length + 1 + 1) + pre.length by omega,
      scanContinue_inProgress rfl hout hu, scanContinue_step hust hb ht, Nat.zero_add]
  rw [exec_scan_of_idle hs.idle, exec_scan_of_idle hs.idle, exec_scan_of_idle hti.idle, exec_scan_of_idle hti.idle]
  refine ⟨?_, fun herr => ?_, fun hst herr => ?_⟩
  · have hfed : scanContinue pre (pre.length + 1) 0 s = .next ⟨pre.length, u⟩ := by
      rw [Nat.add_comm, scanContinue_inProgress (pos := 0) (List.append_nil pre).symm hout hu, Nat.zero_add, scanContinue,
        if_neg hust, List.getElem?_eq_none le_rfl]
    rw [runScan, hfed, andThen_next]
    exact if_neg hust
  · have hst : t.st = .header1 := byteStep_header1_of_not_running ht (Status.ne_running_of_isError herr)
    rw [if_pos herr] at hcontinue
    rw [runScan_of_continued hst hcontinue, runScan_of_header1 hst]
  · rw [if_neg (by rw [herr]; exact Bool.false_ne_true)] at hcontinue
    rw [runScan_of_continued hst hcontinue, scanSearch_eq_runScan_drop hst (by omega), ← List.drop_drop,
      List.drop_left]
    rfl

end Sys2Proof.Machine
end

section
/-! PROOFS for spec/45_host_operations.md: what the two read operations of the host present (O41). -/

namespace Sys2Proof.Machine

/-- A read between operations is one output more: the trace registers (R203). -/
theorem exec_rdtrace_of_idle {s : State} (hidle : s.act = .idle) :
    exec .rdtrace s = .next (emit (.trace s.cntDone s.cntFail s.last) s) :=
  whenIdle_of_idle hidle _

/-- A read between operations is one output more: the record with its list and its id (R204). -/
theorem exec_rdrec_of_idle {s : State} (hidle : s.act = .idle) :
    exec .rdrec s = .next (emit (.record s.record s.present s.pcount s.tid) s) :=
  whenIdle_of_idle hidle _

/-- Settles O41: both reads emit one output, and emitting leaves the buffer and every other field alone. -/
theorem readsPresentRegistersAndChangeNothing : Obligations.ReadsPresentRegistersAndChangeNothing := by
  intro s hidle
  constructor
  · exact ⟨_, exec_rdtrace_of_idle hidle, rfl, .refl s.buf⟩
  · exact ⟨_, exec_rdrec_of_idle hidle, rfl, .refl s.buf⟩

end Sys2Proof.Machine
end

section
/-! PROOFS for spec/60_exceptions.md: what an error status leaves unchanged (O48). -/

namespace Sys2Proof.Machine

/-- A byte-feed step that ends with an error status is taking that exception and nothing else (R225): no other step ends
with one. -/
theorem byteStep_eq_raise_of_isError {b : Byte} {s t : State} (h : byteStep b s = .next t) (herr : t.last.isError = true) :
    t = raise t.last s := by
  rcases byteStep_cases h with hq | ⟨x, -, rfl⟩ | hc
  · exact absurd hq.last (Status.ne_running_of_isError herr)
  · rfl
  · obtain ⟨u, -, rfl⟩ := hc.run
    exact absurd (completeFrame_last u) (Status.ne_done_of_isError herr)

/-- Settles O48: a step that ends with `Done` does not answer `Running`, so it ends in `Header1`; one that ends with an error
is `raise`, and the status returned is one output more. -/
theorem errorsReturnToHeader1AndSaveNothing : Obligations.ErrorsReturnToHeader1AndSaveNothing := by
  intro b s t h
  obtain ⟨-, u, hu, rfl⟩ := exec_feed_eq_next.1 h
  rw [reportStatus_last, reportStatus_st]
  refine ⟨fun hdone => ?_, fun herr => ?_⟩
  · exact byteStep_header1_of_not_running hu (by rw [hdone]; decide)
  · exact congrArg reportStatus (byteStep_eq_raise_of_isError hu herr)

end Sys2Proof.Machine
end
